-- ==== Sys2Proof/Word.lean ====
section
/-! DEFINITION. The word types of the UART character engine (spec/00_scope.md R7, R9, R10) and the
constants that are plain words. Arithmetic on a word of width N is modulo 2^N (R10), which is what
`BitVec N` computes. -/

namespace Sys2Proof

/-- A character or one byte of data memory, `u8` (R7 CHAR_W). -/
abbrev Byte := BitVec 8

/-- The width of RDLINE's maximum length, `u16` (R7 MAX_W). -/
abbrev Half := BitVec 16

/-- A register word, a data-memory address, the accumulator: `u32` (R7 REG_W, ADDR_W, ACC_W). -/
abbrev Word := BitVec 32

/-- A command word, format C64 (R80). -/
abbrev Command := BitVec 64

/-- One entry of the digit buffer DBUF, `u4` (R29). -/
abbrev Nibble := BitVec 4

/-- CR, the terminator of decoding and line editing (R7). -/
def charCR : Byte := 0x0D#8

/-- LF, to which the core gives no control meaning (R7, 90_conflicts.md C4). -/
def charLF : Byte := 0x0A#8

/-- BS, the erase-last character (R7). -/
def charBS : Byte := 0x08#8

/-- The terminator of strings and lines (R7). -/
def charNUL : Byte := 0x00#8

end Sys2Proof
end

