-- ==== Sys2Proof/Syntax.lean ====
section
/-! DEFINITION. The nine commands of the engine, one constructor per row of spec/opcode_table.json
(spec/30_encoding.md R83), each with exactly the operands R82 gives it. -/

namespace Sys2Proof

/-- The operation codes of R83, in the order of the source's public operation list. -/
inductive Op where
  | init | rxchar | txchar | txstr | decdec | encdec | dechex | enchex | rdline
deriving DecidableEq, Repr

/-- A command: an operation with its operands (R82). Every operand has exactly the width of its field
of C64 (R81), so every term is well formed. -/
inductive Instr where
  /-- INIT, `init()` (R133). -/
  | init
  /-- RXCHAR, `receiveChar()` (R136). -/
  | rxchar
  /-- TXCHAR, `sendChar(c)` (R138). -/
  | txchar (c : Byte)
  /-- TXSTR, `sendString(s)`: the address of a zero-terminated string (R140). -/
  | txstr (a : Word)
  /-- DECDEC, `decodeUnsignedDecimal()` (R162). -/
  | decdec
  /-- ENCDEC, `encodeUnsignedDecimal(n)` (R165). -/
  | encdec (n : Word)
  /-- DECHEX, `decodeUnsignedHex()` (R181). -/
  | dechex
  /-- ENCHEX, `encodeUnsignedHex(n)` (R185). -/
  | enchex (n : Word)
  /-- RDLINE, `readLine(buffer, maxLength)`: buffer address and maximum length (R201). -/
  | rdline (a : Word) (max : Half)
deriving DecidableEq, Repr

/-- The operation a command belongs to. -/
def Instr.op : Instr → Op
  | .init => .init
  | .rxchar => .rxchar
  | .txchar _ => .txchar
  | .txstr _ => .txstr
  | .decdec => .decdec
  | .encdec _ => .encdec
  | .dechex => .dechex
  | .enchex _ => .enchex
  | .rdline _ _ => .rdline

end Sys2Proof
end

