-- ==== Sys2Proof/Config.lean ====
section
/-! DEFINITION. What an implementation fixes: the launch parameters of spec/00_scope.md R7, the names of
the registers of spec/10_state.md R30, and the free values (draws) that the spec calls "any value". The
parameters the spec leaves OPEN are "arguments the model takes": they are the fields of `Params`, which the
state carries unchanged, so a statement about every state is a statement about every parameter value. The
draws are constants without a body. -/

namespace Sys2Proof

/-- The thirteen registers the engine reaches (R30). -/
inductive Reg where
  | dr | fr | ibrd | fbrd | lcrh | ctl
  | afsel | den | amsel | pctl
  | rcgcUart | rcgcGpio | prGpio
deriving DecidableEq, Repr

/-- FBRD_ROUND (R7, R132): decided as `nearest`; `truncate` is the alternative R132 names. -/
inductive Rounding where
  | nearest | truncate
deriving DecidableEq, Repr

/-- A range of data-memory addresses, both ends included. -/
structure Range where
  lo : Word
  hi : Word
deriving DecidableEq, Repr

/-- The launch parameters of R7. `memOk` lists the address ranges that the OPEN predicate MEM_OK
admits; every predicate on 32-bit addresses is such a list. -/
structure Params where
  /-- UART_BASE (R30, R71). -/
  uartBase : Word
  /-- GPIO_BASE (R30, R71). -/
  gpioBase : Word
  /-- A_RCGC_UART (R30, R41). -/
  rcgcUartAddr : Word
  /-- A_RCGC_GPIO (R30, R41). -/
  rcgcGpioAddr : Word
  /-- A_PR_GPIO (R30, R41). -/
  prGpioAddr : Word
  /-- UART_CLK_BIT (R41). -/
  uartClkBit : Fin 32
  /-- GPIO_CLK_BIT (R41). -/
  gpioClkBit : Fin 32
  /-- FIFO_DEPTH, an integer >= 1 (R7, R116). -/
  fifoDepth : ℕ+
  /-- BUS_CLK_HZ (R132). -/
  busClkHz : Nat
  /-- BAUD (R132). -/
  baud : Nat
  /-- FBRD_ROUND (R132). -/
  rounding : Rounding
  /-- PINS (R7, R37). -/
  pins : Word
  /-- PCTL_MASK (R40). -/
  pctlMask : Word
  /-- PCTL_FUNC (R40). -/
  pctlFunc : Word
  /-- MEM_OK (R62), as a list of admitted ranges. -/
  memOk : List Range
deriving DecidableEq, Repr

/-- The reference binding: the values R7, R41, R71 and D6, D11, D31, D32 give as reference, BUS_CLK_HZ
and BAUD of vector V-INIT-1, and as data memory every address outside the megabyte
0x4000_0000 to 0x400F_FFFF, in which the reference register addresses lie.
PRESUMED (notes/assumptions/1.md) for the reference values, DESIGN CHOICE (notes/assumptions/2.md)
for the clock, the baud rate and the data-memory map; unsafe. -/
def Params.reference : Params where
  uartBase := 0x4000C000#32
  gpioBase := 0x40004000#32
  rcgcUartAddr := 0x400FE618#32
  rcgcGpioAddr := 0x400FE608#32
  prGpioAddr := 0x400FEA08#32
  uartClkBit := 0
  gpioClkBit := 0
  fifoDepth := 16
  busClkHz := 80000000
  baud := 115200
  rounding := .nearest
  pins := 0x00000003#32
  pctlMask := 0x000000FF#32
  pctlFunc := 0x00000011#32
  memOk := [⟨0x00000000#32, 0x3FFFFFFF#32⟩, ⟨0x40100000#32, 0xFFFFFFFF#32⟩]

namespace Config

/-- A FREE VALUE: bits [31:8] of the n-th draw when DR is read and RXQ is non-empty (R31, R103). No
body: nothing constrains it (notes/assumptions/3.md). -/
opaque drUpperDraw : Nat → BitVec 24

/-- A FREE VALUE: the word a read of DR returns while RXQ is empty (R103, D38;
notes/assumptions/3.md). -/
opaque drEmptyDraw : Nat → Word

/-- A FREE VALUE: the bits of FR other than [4] and [5], drawn afresh at each read (R32, R105;
notes/assumptions/3.md). -/
opaque frDraw : Nat → Word

/-- A FREE VALUE: whether the reconfiguration of R115 empties RXQ (D21; notes/assumptions/3.md). -/
opaque flushRxDraw : Nat → Bool

/-- A FREE VALUE: whether the reconfiguration of R115 empties TXQ, independent of `flushRxDraw` (D21;
notes/assumptions/3.md). -/
opaque flushTxDraw : Nat → Bool

end Config

end Sys2Proof
end

