-- ==== Sys2Proof/Machine/Layout.lean ====
section
/-! DEFINITION. What follows from the launch parameters: the register addresses (spec/10_state.md R30),
MEM_OK (spec/20_memory.md R62), the baud-rate divisors (spec/41_uart_driver.md R132) and the other
constants INIT writes (R131, R133). -/

namespace Sys2Proof

/-- The address of each register (R30). -/
def Params.addr (p : Params) : Reg → Word
  | .dr => p.uartBase
  | .fr => p.uartBase + 0x018#32
  | .ibrd => p.uartBase + 0x024#32
  | .fbrd => p.uartBase + 0x028#32
  | .lcrh => p.uartBase + 0x02C#32
  | .ctl => p.uartBase + 0x030#32
  | .afsel => p.gpioBase + 0x420#32
  | .den => p.gpioBase + 0x51C#32
  | .amsel => p.gpioBase + 0x528#32
  | .pctl => p.gpioBase + 0x52C#32
  | .rcgcUart => p.rcgcUartAddr
  | .rcgcGpio => p.rcgcGpioAddr
  | .prGpio => p.prGpioAddr

/-- All registers, in the order of R30's table. -/
def Reg.all : List Reg :=
  [.dr, .fr, .ibrd, .fbrd, .lcrh, .ctl, .afsel, .den, .amsel, .pctl, .rcgcUart, .rcgcGpio, .prGpio]

/-- MEM_OK(addr) (R62). -/
def Params.admits (p : Params) (a : Word) : Bool :=
  p.memOk.any fun r => decide (r.lo ≤ a ∧ a ≤ r.hi)

/-- DIV64, the baud-rate divisor in units of 1/64 (R132). -/
def Params.div64 (p : Params) : Nat :=
  match p.rounding with
  | .nearest => (8 * p.busClkHz + p.baud) / (2 * p.baud)
  | .truncate => (4 * p.busClkHz) / p.baud

/-- IBRD_VAL, the integer part of the divisor (R132). -/
def Params.ibrdVal (p : Params) : Nat := p.div64 / 64

/-- FBRD_VAL, the 6-bit fractional part of the divisor (R132). -/
def Params.fbrdVal (p : Params) : Nat := p.div64 % 64

/-- LCRH_VAL: WLEN = 0b11 and FEN = 1, all other fields 0 (R35, R131). -/
def lcrhVal : Word := 0x00000070#32

/-- `1 << UART_CLK_BIT` (R133). -/
def Params.uartClkMask (p : Params) : Word := 1#32 <<< p.uartClkBit.val

/-- `1 << GPIO_CLK_BIT` (R133). -/
def Params.gpioClkMask (p : Params) : Word := 1#32 <<< p.gpioClkBit.val

end Sys2Proof
end

