-- ==== Sys2Proof/WellFormed.lean ====
section
/-! DEFINITION. The checks the spec asks for before anything runs: on a configuration, those for which
the spec says that it is refused (`Params.ok`: R64, R132, 93_implementation_defined.md) and the further
constraints it states without refusing anything (`Params.constrained`: R7, R40, R71); and on an assembler
line's operands (R88: "An operand that does not fit its field is refused by the assembler; it is never
truncated"). A term of `Instr` needs no check: its operands have exactly the widths of their fields. -/

namespace Sys2Proof

/-- No word stands twice in the list. -/
def distinct : List Word → Bool
  | [] => true
  | a :: rest => !rest.contains a && distinct rest

/-- How many of the low `n` bits of `w` are set. -/
def countOnes (w : Word) : Nat → Nat
  | 0 => 0
  | n + 1 => (if w.getLsbD n then 1 else 0) + countOnes w n

/-- R64: every register is bound to an address that is a multiple of 4; otherwise "the configuration is
refused". -/
def Params.aligned (p : Params) : Bool :=
  Reg.all.all fun r => p.addr r &&& 3#32 == 0#32

/-- R71: the thirteen register addresses are distinct; a binding "in which addresses collide" is refused
(93_implementation_defined.md). -/
def Params.apart (p : Params) : Bool := distinct (Reg.all.map p.addr)

/-- R71: no register address is a data-memory address, read as: MEM_OK admits no register address. It is a
constraint and no ground to refuse: R249 has every address admitted and the endless TXSTR run, and the two
address spaces are apart (R60). DEDUCED (notes/assumptions/17.md); safe, because the machine runs either
way. -/
def Params.outsideMemory (p : Params) : Bool :=
  Reg.all.all fun r => !p.admits (p.addr r)

/-- R132: `BAUD >= 1`, `BUS_CLK_HZ >= 1` and `1 <= IBRD_VAL <= 0xFFFF`; otherwise the configuration is
refused. -/
def Params.divisorOk (p : Params) : Bool :=
  decide (1 ≤ p.baud) && decide (1 ≤ p.busClkHz) && decide (1 ≤ p.ibrdVal) && decide (p.ibrdVal ≤ 0xFFFF)

/-- R7, D32: PINS has exactly two bits set. -/
def Params.pinsOk (p : Params) : Bool := countOnes p.pins 32 == 2

/-- R40, D32: `PCTL_FUNC & ~PCTL_MASK = 0`. -/
def Params.pctlOk (p : Params) : Bool := p.pctlFunc &&& ~~~p.pctlMask == 0#32

/-- The configuration is admitted: the spec does not refuse it (R64, R132, 93_implementation_defined.md). -/
def Params.ok (p : Params) : Bool := p.aligned && p.apart && p.divisorOk

/-- The configuration meets every constraint the spec states, those included that refuse nothing (R7, R40,
R71; notes/assumptions/15.md and 17.md). -/
def Params.constrained (p : Params) : Bool := p.ok && p.outsideMemory && p.pinsOk && p.pctlOk

/-- One assembler line (R88, R89) with its operands as the numbers written, before they are known to
fit their fields. `newline` is the pseudo-instruction of R89. -/
inductive SourceLine where
  | init
  | rxchar
  | txchar (c : Nat)
  | txstr (addr : Nat)
  | decdec
  | encdec (n : Nat)
  | dechex
  | enchex (n : Nat)
  | rdline (addr max : Nat)
  | newline
deriving DecidableEq, Repr

/-- R88: every operand fits its field. -/
def SourceLine.fits : SourceLine → Bool
  | .init => true
  | .rxchar => true
  | .txchar c => decide (c < 2 ^ 8)
  | .txstr a => decide (a < 2 ^ 32)
  | .decdec => true
  | .encdec n => decide (n < 2 ^ 32)
  | .dechex => true
  | .enchex n => decide (n < 2 ^ 32)
  | .rdline a m => decide (a < 2 ^ 32) && decide (m < 2 ^ 16)
  | .newline => true

end Sys2Proof
end

