-- ==== Sys2Proof/Decode.lean ====
section
/-! DEFINITION. The command encoding of spec/30_encoding.md: the decoder, total on every 64-bit word
(R93), which refuses by name (R84, R85), and the encoder written from the same fields (R81 to R83). -/

namespace Sys2Proof

/-- Why a command word is illegal (R85). -/
inductive Illegal where
  /-- OP = 0x00 or OP in 0x0A to 0xFF. -/
  | opcode (op : Byte)
  /-- A bit outside OP and the opcode's used fields is not zero (R84). -/
  | reservedBits (op : Op)
deriving DecidableEq, Repr

/-- The field OP, bits [7:0] (R81). -/
def fieldOP (w : Command) : Byte := w.extractLsb' 0 8

/-- The field CH, bits [15:8] (R81). -/
def fieldCH (w : Command) : Byte := w.extractLsb' 8 8

/-- The field MAX, bits [31:16] (R81). -/
def fieldMAX (w : Command) : Half := w.extractLsb' 16 16

/-- The field A, bits [63:32] (R81). -/
def fieldA (w : Command) : Word := w.extractLsb' 32 32

/-- The OP value of each operation (R83). -/
def Op.code : Op → Byte
  | .init => 0x01#8
  | .rxchar => 0x02#8
  | .txchar => 0x03#8
  | .txstr => 0x04#8
  | .decdec => 0x05#8
  | .encdec => 0x06#8
  | .dechex => 0x07#8
  | .enchex => 0x08#8
  | .rdline => 0x09#8

/-- The operation of an OP value, none for 0x00 and 0x0A to 0xFF (R83, R85). -/
def Op.ofCode (b : Byte) : Option Op :=
  if b = 0x01#8 then some .init
  else if b = 0x02#8 then some .rxchar
  else if b = 0x03#8 then some .txchar
  else if b = 0x04#8 then some .txstr
  else if b = 0x05#8 then some .decdec
  else if b = 0x06#8 then some .encdec
  else if b = 0x07#8 then some .dechex
  else if b = 0x08#8 then some .enchex
  else if b = 0x09#8 then some .rdline
  else none

/-- CH is an operand field of the operation (R83, column "used fields"). -/
def Op.usesCH : Op → Bool
  | .txchar => true
  | _ => false

/-- MAX is an operand field of the operation (R83). -/
def Op.usesMAX : Op → Bool
  | .rdline => true
  | _ => false

/-- A is an operand field of the operation (R83). -/
def Op.usesA : Op → Bool
  | .txstr => true
  | .encdec => true
  | .enchex => true
  | .rdline => true
  | _ => false

/-- Every field of the word that the operation does not use is zero (R84). -/
def reservedZero (op : Op) (w : Command) : Bool :=
  (op.usesCH || fieldCH w == 0#8) && (op.usesMAX || fieldMAX w == 0#16) && (op.usesA || fieldA w == 0#32)

/-- The command of an operation, its operands taken from the word (R82). -/
def assembleOperands (op : Op) (w : Command) : Instr :=
  match op with
  | .init => .init
  | .rxchar => .rxchar
  | .txchar => .txchar (fieldCH w)
  | .txstr => .txstr (fieldA w)
  | .decdec => .decdec
  | .encdec => .encdec (fieldA w)
  | .dechex => .dechex
  | .enchex => .enchex (fieldA w)
  | .rdline => .rdline (fieldA w) (fieldMAX w)

/-- The decoder (R93): the one command a word stands for, or why it is illegal. -/
def decode (w : Command) : Except Illegal Instr :=
  match Op.ofCode (fieldOP w) with
  | none => .error (.opcode (fieldOP w))
  | some op => if reservedZero op w then .ok (assembleOperands op w) else .error (.reservedBits op)

/-- The command word with the given fields, {A, MAX, CH, OP} (R81, D2). -/
def packFields (a : Word) (max : Half) (ch : Byte) (op : Byte) : Command := a ++ max ++ ch ++ op

/-- The encoder: the command word of a command, its unused fields zero (R81 to R84). -/
def encode : Instr → Command
  | .init => packFields 0 0 0 Op.init.code
  | .rxchar => packFields 0 0 0 Op.rxchar.code
  | .txchar c => packFields 0 0 c Op.txchar.code
  | .txstr a => packFields a 0 0 Op.txstr.code
  | .decdec => packFields 0 0 0 Op.decdec.code
  | .encdec n => packFields n 0 0 Op.encdec.code
  | .dechex => packFields 0 0 0 Op.dechex.code
  | .enchex n => packFields n 0 0 Op.enchex.code
  | .rdline a max => packFields a max 0 Op.rdline.code

/-- A row of R83's table: a word w selects the row when `w & mask = match`. -/
structure Row where
  op : Op
  pattern : Command
  mask : Command
deriving DecidableEq, Repr

/-- The row of each operation, as R83 prints it. -/
def Op.row : Op → Row
  | .init => ⟨.init, 0x0000000000000001#64, 0xFFFFFFFFFFFFFFFF#64⟩
  | .rxchar => ⟨.rxchar, 0x0000000000000002#64, 0xFFFFFFFFFFFFFFFF#64⟩
  | .txchar => ⟨.txchar, 0x0000000000000003#64, 0xFFFFFFFFFFFF00FF#64⟩
  | .txstr => ⟨.txstr, 0x0000000000000004#64, 0x00000000FFFFFFFF#64⟩
  | .decdec => ⟨.decdec, 0x0000000000000005#64, 0xFFFFFFFFFFFFFFFF#64⟩
  | .encdec => ⟨.encdec, 0x0000000000000006#64, 0x00000000FFFFFFFF#64⟩
  | .dechex => ⟨.dechex, 0x0000000000000007#64, 0xFFFFFFFFFFFFFFFF#64⟩
  | .enchex => ⟨.enchex, 0x0000000000000008#64, 0x00000000FFFFFFFF#64⟩
  | .rdline => ⟨.rdline, 0x0000000000000009#64, 0x000000000000FFFF#64⟩

/-- The word selects the operation's row (R83). -/
def Op.selects (op : Op) (w : Command) : Bool := w &&& op.row.mask == op.row.pattern

/-- The instruction the decoder reads from an opcode-table row's word: the low `nbits` bits of `w`,
every bit above them zero. A command is one 64-bit word (R80), so a longer one has no meaning. -/
def decodeTableWord (nbits w : Nat) : Option Instr :=
  if w % 2 ^ nbits < 2 ^ 64 then (decode (BitVec.ofNat 64 (w % 2 ^ nbits))).toOption else none

end Sys2Proof
end

