-- ==== Sys2Proof/Machine/State.lean ====
section
/-! DEFINITION. The state of the machine, as plain data: everything spec/10_state.md gives the engine,
the peripheral and the data memory, the launch parameters of spec/00_scope.md R7, and the four fields
that are the model's own (the schedule of the agents, the draw counter, the observed events, and INIT's
local value). INVENTORY.md, under State, lists every field with its rule and its reset value. -/

namespace Sys2Proof.Machine

/-- MODE (R21, R130). -/
inductive Mode where
  | uninit | ready
deriving DecidableEq, Repr

/-- The positions of INIT's pseudocode after its first (R133): each stands just before one access. The
first position, the read of RCGC_UART, is `Phase.start`. -/
inductive InitPos where
  | wrRcgcUart | rdRcgcGpio | wrRcgcGpio | pollPr
  | rdCtlOff | wrCtlOff | wrIbrd | wrFbrd | wrLcrh | rdCtlOn | wrCtlOn
  | rdAfsel | wrAfsel | rdDen | wrDen | rdPctl | wrPctl | rdAmsel | wrAmsel
deriving DecidableEq, Repr

/-- A position in an operation's pseudocode, just before one primitive (R22). `start` is the position
an issue leaves the engine at (R90): the internal computation before the first access, then that
access. RECV and SEND (R108, R109) have a poll and an access each. -/
inductive Phase where
  | start
  /-- RECV: the read of FR. -/
  | rxPoll
  /-- RECV: the read of DR. -/
  | rxRead
  /-- SEND: the read of FR. -/
  | txPoll
  /-- SEND: the write of DR. -/
  | txWrite
  /-- TXSTR: the read of the next byte (R140). -/
  | strRead
  /-- RDLINE: the store of a character (R201). -/
  | lineStore
  /-- RDLINE: the write of the terminator (R201). -/
  | lineTerm
  /-- INIT after its first access. -/
  | init (p : InitPos)
deriving DecidableEq, Repr

/-- SEQ, the sequencer (R22): idle, or at a phase of an operation. -/
inductive Seq where
  | idle
  | run (op : Op) (phase : Phase)
deriving DecidableEq, Repr

/-- The model faults of R221, a closed set. None of them is an outcome of a step: raising one writes
FAULT and the step answers a next state (R222), because the line environment goes on; so no constructor
here ends a run of the model, and no claim is lost by it. -/
inductive Fault where
  /-- Code 1. Raised by an issue while SEQ is not IDLE (R90). Safe: the source calls the behaviour
  undefined, and the engine halts. -/
  | commandWhileBusy (w : Command)
  /-- Code 2. Raised by an issue of a word that matches no row (R85, R90). Safe: the engine halts. -/
  | illegalCommand (w : Command)
  /-- Code 3. Raised by an issue of a command other than INIT while MODE = UNINIT (R90). Safe: the
  engine halts. -/
  | notReady (w : Command)
  /-- Code 4. Raised by a data-memory access of TXSTR or RDLINE at an address MEM_OK does not admit
  (R66, R67). Safe: the engine halts before the access. -/
  | memRefused (addr : Word)
deriving DecidableEq, Repr

/-- The number of a fault reason (R221). -/
def Fault.code : Fault → Nat
  | .commandWhileBusy _ => 1
  | .illegalCommand _ => 2
  | .notReady _ => 3
  | .memRefused _ => 4

/-- Why a step has no meaning. -/
inductive Refusal where
  /-- An instruction that has no meaning yet. No arm of `exec` answers it. Safe: the run ends. -/
  | notModelled (mnemonic : String)
  /-- The spec says that the configuration is refused: a register binding that is not word-aligned (R64) or
  in which addresses collide (R71, 93_implementation_defined.md), or a divisor outside its range (R132).
  Raised by `step`, before any agent moves. Safe: the spec gives such a machine no run. -/
  | configuration
deriving DecidableEq, Repr

/-- The observable events of R125. -/
inductive Event where
  | issue (w : Command)
  | busRd (a v : Word)
  | busWr (a v : Word)
  | memRd (a : Word) (b : Byte)
  | memWr (a : Word) (b : Byte)
  | done (op : Op) (res : Option Word)
  | fault (r : Fault)
  | rxIn (b : Byte)
  | txOut (b : Byte)
deriving DecidableEq, Repr

/-- A step of the line environment, the agent on the far side of the peripheral (R120 to R122). -/
inductive LineStep where
  | rxArrive (b : Byte)
  | txDrain
  | clkReady
deriving DecidableEq, Repr

/-- One turn of the interleaving of the three agents of R20: the engine, the line environment, or the
host, which issues a command word (R90). -/
inductive Turn where
  | engine
  | line (e : LineStep)
  | host (w : Command)
deriving DecidableEq, Repr

/-- The engine's datapath registers (R26 to R29). -/
structure Datapath where
  /-- ACC, the accumulator's value (R27). -/
  acc : Word
  /-- CNT, the accumulator's digit count (R27). -/
  cnt : Word
  /-- BUFA, the address of the caller's line buffer (R28). -/
  bufa : Word
  /-- MAXL, the caller's maximum length (R28). -/
  maxl : Half
  /-- LEN, the active length of the line (R28). -/
  len : Half
  /-- CH, the character latch (R29). -/
  ch : Byte
  /-- PTR, the string pointer of TXSTR (R29). -/
  ptr : Word
  /-- N, the work register of ENCDEC and ENCHEX (R29). -/
  n : Word
  /-- DBUF, the digit buffer: 10 entries of 4 bits (R29). -/
  dbuf : Vector Nibble 10
  /-- DCNT, its fill count (R29). -/
  dcnt : Nibble
  /-- The local `v` of INIT's pseudocode, which a read leaves for the write after it (R133). -/
  v : Word
deriving DecidableEq, Repr

/-- The registers and FIFOs of the peripheral (R31 to R42), each register with exactly its implemented
bits (R106). DR and FR have no storage (R31, R32). -/
structure Periph where
  /-- IBRD[15:0] (R33). -/
  ibrd : Half
  /-- FBRD[5:0] (R34). -/
  fbrd : BitVec 6
  /-- LCRH[7:0] (R35). -/
  lcrh : Byte
  /-- CTL (R36). -/
  ctl : Word
  /-- AFSEL (R37). -/
  afsel : Word
  /-- DEN (R38). -/
  den : Word
  /-- AMSEL (R39). -/
  amsel : Word
  /-- PCTL (R40). -/
  pctl : Word
  /-- RCGC_UART (R41). -/
  rcgcUart : Word
  /-- RCGC_GPIO (R41). -/
  rcgcGpio : Word
  /-- PR_GPIO (R41). -/
  prGpio : Word
  /-- RXQ, the receive FIFO, oldest character first (R42). -/
  rxq : List Byte
  /-- TXQ, the transmit FIFO, oldest character first (R42). -/
  txq : List Byte
deriving DecidableEq, Repr

/-- The machine's state. -/
structure State where
  /-- MODE (R21). -/
  mode : Mode
  /-- SEQ (R22). -/
  seq : Seq
  /-- FAULT (R24). -/
  fault : Option Fault
  /-- CMD, the latched command word (R25). -/
  cmd : Command
  /-- The datapath registers (R26 to R29). -/
  dp : Datapath
  /-- The peripheral (R30 to R42). -/
  per : Periph
  /-- Data memory (R44): the listed bytes, addresses strictly rising, none equal to `Memory.launchByte`. -/
  mem : List Host.Cell
  /-- The launch parameters (R7); no step changes them. -/
  cfg : Params
  /-- The model's own: the turns the agents take next, oldest first; the engine moves when it is empty
  (notes/assumptions/4.md). -/
  agenda : List Turn
  /-- The model's own: how many draws the machine has taken (notes/assumptions/3.md). -/
  draws : Nat
  /-- The model's own: the events observed so far, newest first (R125, R231). -/
  trace : List Event
deriving DecidableEq, Repr

/-- The datapath at reset: unspecified by R26, so every register is zero. DESIGN CHOICE
(notes/assumptions/5.md); unsafe. -/
def Datapath.reset : Datapath where
  acc := 0
  cnt := 0
  bufa := 0
  maxl := 0
  len := 0
  ch := 0
  ptr := 0
  n := 0
  dbuf := #v[0, 0, 0, 0, 0, 0, 0, 0, 0, 0]
  dcnt := 0
  v := 0

/-- The peripheral at reset (R45, R241: launch parameters): the reference values of R45 for IBRD, FBRD,
LCRH and CTL (PRESUMED, the family's), the launch values of R133's example and of vector V-INIT-1 for the
others (DESIGN CHOICE), and both FIFOs empty, which R42 calls the usual launch premise
(notes/assumptions/6.md); unsafe. -/
def Periph.reset : Periph where
  ibrd := 0
  fbrd := 0
  lcrh := 0
  ctl := 0x00000300#32
  afsel := 0
  den := 0
  amsel := 0
  pctl := 0
  rcgcUart := 0
  rcgcGpio := 0
  prGpio := 0
  rxq := []
  txq := []

/-- The machine right after reset (R45, R240): MODE = UNINIT, SEQ = IDLE, FAULT = none, nothing listed
in memory, no turn scheduled, nothing observed. -/
def State.reset : State where
  mode := .uninit
  seq := .idle
  fault := none
  cmd := 0
  dp := Datapath.reset
  per := Periph.reset
  mem := []
  cfg := Params.reference
  agenda := []
  draws := 0
  trace := []

end Sys2Proof.Machine
end

