-- ==== Sys2Proof/Machine/Flags.lean ====
section
/-! DEFINITION. Every flag of the machine as a live function of its state (spec/10_state.md R32, R43;
spec/40_register_interface.md R105, R107, R116): RXFE, TXFF, UARTEN, the effective FIFO depth, and the
clock-readiness bit. The block has no arithmetic condition codes (R43). -/

namespace Sys2Proof.Machine

/-- UARTEN, CTL[0] (R36). -/
def Periph.uarten (p : Periph) : Bool := p.ctl.getLsbD 0

/-- FEN, LCRH[4] (R35). -/
def Periph.fen (p : Periph) : Bool := p.lcrh.getLsbD 4

/-- DEPTH, the effective depth of each FIFO: FIFO_DEPTH when FEN = 1, else 1 (R116). -/
def State.depth (s : State) : Nat := if s.per.fen then s.cfg.fifoDepth else 1

/-- RXFE: the receive FIFO is empty (R32, R105). -/
def State.rxfe (s : State) : Bool := s.per.rxq.isEmpty

/-- TXFF: the length of TXQ equals the effective depth (R32, R105). -/
def State.txff (s : State) : Bool := s.per.txq.length == s.depth

/-- A word whose bit 4 is `rxfe`, whose bit 5 is `txff`, and whose other bits are those of `x`. -/
def flagWord (x : Word) (rxfe txff : Bool) : Word :=
  (x &&& ~~~0x30#32) ||| (if rxfe then 0x10#32 else 0#32) ||| (if txff then 0x20#32 else 0#32)

/-- The word a read of FR returns (R105): bits [4] and [5] are the flags, the rest is a draw. -/
def State.frWord (s : State) : Word := flagWord (Config.frDraw s.draws) s.rxfe s.txff

/-- The word a read of PR_GPIO returns: its stored value, 0 in any bit whose RCGC_GPIO bit is 0 (R41,
R106). -/
def Periph.prWord (p : Periph) : Word := p.prGpio &&& p.rcgcGpio

/-- The engine is idle: the host's ready-for-command indication (R43). -/
def State.isIdle (s : State) : Bool := s.seq == .idle

/-- The engine is halted by a fault (R24, R222). -/
def State.halted (s : State) : Bool := s.fault.isSome

end Sys2Proof.Machine
end

