-- ==== Sys2Proof/Machine/Operands.lean ====
section
/-! DEFINITION. The character classes and digit values of the codecs, the accumulator's two operations,
and the digit buffer: what the commands compute between their accesses (spec/42_decimal_codec.md R160,
R161, R165; spec/43_hex_codec.md R180, R184, R185). The operands of a command word are taken in
Sys2Proof/Decode.lean (R82). -/

namespace Sys2Proof.Machine

/-- Byte `k` of a register word is bits [8k+7:8k] (R63). -/
def regByte (w : Word) (k : Nat) : Byte := w.extractLsb' (8 * k) 8

/-- The digit value of a character of DIGIT10, none outside the class (R161). -/
def digit10 (c : Byte) : Option Word :=
  if 0x30#8 ≤ c ∧ c ≤ 0x39#8 then some ((c - 0x30#8).setWidth 32) else none

/-- `hexval`: the digit value of a character of DIGIT16, none outside the class (R180). -/
def digit16 (c : Byte) : Option Word :=
  if 0x30#8 ≤ c ∧ c ≤ 0x39#8 then some ((c - 0x30#8).setWidth 32)
  else if 0x41#8 ≤ c ∧ c ≤ 0x46#8 then some ((c - 0x37#8).setWidth 32)
  else if 0x61#8 ≤ c ∧ c ≤ 0x66#8 then some ((c - 0x57#8).setWidth 32)
  else none

/-- The character of a decimal digit, `0x30 + v` (R165). -/
def decChar (v : Nibble) : Byte := 0x30#8 + v.setWidth 8

/-- `hexchar`: the character of a nibble, uppercase (R184). -/
def hexChar (v : Nibble) : Byte :=
  if v ≤ 9#4 then 0x30#8 + v.setWidth 8 else 0x37#8 + v.setWidth 8

/-- `append_B(d)` (R160): u32 arithmetic, wraps. -/
def Datapath.append (base d : Word) (r : Datapath) : Datapath :=
  { r with acc := r.acc * base + d, cnt := r.cnt + 1#32 }

/-- `undo_B()` (R160). -/
def Datapath.undo (base : Word) (r : Datapath) : Datapath :=
  { r with acc := r.acc / base, cnt := r.cnt - 1#32 }

/-- ACC <- 0, CNT <- 0: the start of DECDEC and DECHEX (R162, R181). -/
def Datapath.clearAcc (r : Datapath) : Datapath := { r with acc := 0#32, cnt := 0#32 }

/-- What a decoder does with a received character (R162, R163, R181, R182). -/
inductive DecodeAct where
  /-- CR: the command completes. -/
  | finish
  /-- A digit or an accepted backspace: the accumulator is updated and the character echoed. -/
  | echo (r : Datapath)
  /-- Any other character, or a backspace with CNT = 0: no action, no echo. -/
  | ignore
deriving DecidableEq, Repr

/-- One row of the decoder's table (R163): `digit` is the digit class with its values, `base` is B. -/
def decodeChar (base : Word) (digit : Byte → Option Word) (c : Byte) (r : Datapath) : DecodeAct :=
  if c = charCR then .finish
  else
    match digit c with
    | some d => .echo (r.append base d)
    | none => if c = charBS ∧ r.cnt ≠ 0#32 then .echo (r.undo base) else .ignore

/-- `DBUF[DCNT] <- N % B; DCNT <- DCNT + 1; N <- N / B` (R165, R185). -/
def Datapath.pushDigit (base : Word) (r : Datapath) : Datapath :=
  { r with
    dbuf := r.dbuf.setIfInBounds r.dcnt.toNat ((r.n % base).setWidth 4)
    dcnt := r.dcnt + 1#4
    n := r.n / base }

/-- The digit loop of R165 and R185: at least once, until N = 0. Ten rounds reach N = 0 for every
32-bit N and either base (R8), so the bound of ten never ends it early. -/
def Datapath.pushDigits (base : Word) : Nat → Datapath → Datapath
  | 0, r => r
  | k + 1, r =>
    let r' := r.pushDigit base
    if r'.n = 0#32 then r' else r'.pushDigits base k

/-- The digit buffer filled with the digits of `n`, least significant first: the internal start of
ENCDEC and ENCHEX. -/
def Datapath.loadNumber (base n : Word) (r : Datapath) : Datapath :=
  Datapath.pushDigits base 10 { r with n := n, dcnt := 0#4 }

/-- `DCNT <- DCNT - 1`, then CH holds the character of `DBUF[DCNT]`, the operand of the SEND that
follows (R29, R165, R185). -/
def Datapath.popDigit (char : Nibble → Byte) (r : Datapath) : Datapath :=
  let k := r.dcnt - 1#4
  { r with dcnt := k, ch := char (r.dbuf.getD k.toNat 0#4) }

/-- What RDLINE does with a received character (R202). -/
inductive LineAct where
  /-- CR: write the terminator. -/
  | terminate
  /-- An accepted backspace: LEN is decremented and the backspace echoed. -/
  | erase
  /-- A character for which there is room: store it, then echo it. -/
  | store
  /-- A backspace on an empty line, or a character at LEN = MAXL: no action. -/
  | drop
deriving DecidableEq, Repr

/-- The RX rows of R202's table. -/
def lineChar (c : Byte) (len maxl : Half) : LineAct :=
  if c = charCR then .terminate
  else if c = charBS then (if len ≠ 0#16 then .erase else .drop)
  else if len < maxl then .store
  else .drop

/-- `BUFA + zext_32(LEN)`, modulo 2^32: where the next character or the terminator goes (R68, R201). -/
def Datapath.lineAddr (r : Datapath) : Word := r.bufa + r.len.setWidth 32

end Sys2Proof.Machine
end

