-- ==== Sys2Proof/Machine/Ops.lean ====
section
/-! DEFINITION. The shared operations of the machine: data memory (spec/20_memory.md), the register bus
and the registers behind it (spec/40_register_interface.md R100 to R116), the status polls, the two
character primitives RECV and SEND (R107 to R109), raising a fault (spec/60_exceptions.md R222) and
completing a command (spec/30_encoding.md R91). Nothing returns from a fault (R226), so raising one has
no partner. -/

namespace Sys2Proof.Machine

/-! ### Data memory -/

/-- Data memory: address and byte pairs, addresses strictly rising. -/
abbrev Memory := List Host.Cell

/-- What an unlisted address holds. R44 makes the content at launch a launch parameter, which the list
itself carries. DESIGN CHOICE (notes/assumptions/7.md); unsafe. -/
def Memory.launchByte : Byte := 0x00#8

/-- The byte at an address. -/
def Memory.read (a : Nat) : Memory → Byte
  | [] => Memory.launchByte
  | (k, b) :: rest => if a = k then b else Memory.read a rest

/-- The memory without an entry for the address, if it had one. -/
def Memory.erase (a : Nat) : Memory → Memory
  | [] => []
  | (k, b) :: rest => if a = k then rest else (k, b) :: Memory.erase a rest

/-- The memory with the entry `(a, v)` at its place in the order. -/
def Memory.insert (a : Nat) (v : Byte) : Memory → Memory
  | [] => [(a, v)]
  | (k, b) :: rest =>
    if a < k then (a, v) :: (k, b) :: rest
    else if a = k then (a, v) :: rest
    else (k, b) :: Memory.insert a v rest

/-- The memory with `v` at the address, in canonical form. -/
def Memory.write (a : Nat) (v : Byte) (m : Memory) : Memory :=
  if v = Memory.launchByte then m.erase a else m.insert a v

/-- Addresses rise strictly from `lo` on and lie below 2^32, and no entry is equal to what an unlisted
address holds. -/
def Memory.wfFrom (lo : Nat) : Memory → Bool
  | [] => true
  | (k, b) :: rest =>
    decide (lo ≤ k) && decide (k < 2 ^ 32) && decide (b ≠ Memory.launchByte) && Memory.wfFrom (k + 1) rest

/-- The canonical form. -/
def Memory.wf (m : Memory) : Bool := m.wfFrom 0

/-- The byte of data memory at an address (R44). -/
def State.byteAt (s : State) (a : Word) : Byte := Memory.read a.toNat s.mem

/-! ### Events, control and faults -/

/-- An event is observed (R125). -/
def State.record (e : Event) (s : State) : State := { s with trace := e :: s.trace }

/-- The sequencer moves to a phase of an operation (R23). -/
def State.goto (op : Op) (ph : Phase) (s : State) : State := { s with seq := .run op ph }

/-- `raise Fault(r)` (R222): FAULT is set, the event is recorded, SEQ stays where it was, no completion
is posted. The engine takes no further step (`State.current`); the line environment keeps its steps. -/
def State.raise (r : Fault) (s : State) : State := ({ s with fault := some r }).record (.fault r)

/-- `complete(res)` (R91): posts `Done(op, res)` and sets SEQ to IDLE. -/
def State.complete (op : Op) (res : Option Word) (s : State) : State :=
  ({ s with seq := .idle }).record (.done op res)

/-- The phase at which the engine stands in an operation's pseudocode. Where SEQ is not at a phase of
this operation, the operation is at its start; a step asks only at a phase of the running operation
(notes/assumptions/8.md). -/
def State.phaseIn (op : Op) (s : State) : Phase :=
  match s.seq with
  | .idle => .start
  | .run o ph => if o = op then ph else .start

/-! ### The register bus -/

/-- One draw has been taken. -/
def State.tick (s : State) : State := { s with draws := s.draws + 1 }

/-- Read of DR (R103): the removal of the head of RXQ, and the word returned. -/
def State.readDr (s : State) : Word × State :=
  match s.per.rxq with
  | b :: rest => (Config.drUpperDraw s.draws ++ b, ({ s with per := { s.per with rxq := rest } }).tick)
  | [] => (Config.drEmptyDraw s.draws, s.tick)

/-- The value of a register that a read does not change (R106): 0 in the bits that are not implemented.
DR and FR have no storage; their reads are `readDr` and `frWord`. -/
def Periph.stored (p : Periph) : Reg → Word
  | .dr => 0#32
  | .fr => 0#32
  | .ibrd => p.ibrd.setWidth 32
  | .fbrd => p.fbrd.setWidth 32
  | .lcrh => p.lcrh.setWidth 32
  | .ctl => p.ctl
  | .afsel => p.afsel
  | .den => p.den
  | .amsel => p.amsel
  | .pctl => p.pctl
  | .rcgcUart => p.rcgcUart
  | .rcgcGpio => p.rcgcGpio
  | .prGpio => p.prWord

/-- The value a read of a register returns, and the state after it, without the event. -/
def State.readReg (r : Reg) (s : State) : Word × State :=
  match r with
  | .dr => s.readDr
  | .fr => (s.frWord, s.tick)
  | r => (s.per.stored r, s)

/-- `BusRead(a)` (R101): one read of a register, recorded as `BusRd(a, v)` (R100). -/
def State.busRead (r : Reg) (s : State) : Word × State :=
  ((s.readReg r).1, (s.readReg r).2.record (.busRd (s.cfg.addr r) (s.readReg r).1))

/-- What a write stores (R106): the value masked to the register's implemented bits. FR and PR_GPIO are
read-only, and DR has no storage. -/
def Periph.store (r : Reg) (v : Word) (p : Periph) : Periph :=
  match r with
  | .dr => p
  | .fr => p
  | .ibrd => { p with ibrd := v.setWidth 16 }
  | .fbrd => { p with fbrd := v.setWidth 6 }
  | .lcrh => { p with lcrh := v.setWidth 8 }
  | .ctl => { p with ctl := v }
  | .afsel => { p with afsel := v }
  | .den => { p with den := v }
  | .amsel => { p with amsel := v }
  | .pctl => { p with pctl := v }
  | .rcgcUart => { p with rcgcUart := v }
  | .rcgcGpio => { p with rcgcGpio := v }
  | .prGpio => p

/-- A FIFO that a reconfiguration keeps or empties, as the draw says (R115). -/
def keepOrFlush (flush : Bool) (q : List Byte) : List Byte :=
  match q with
  | [] => []
  | b :: rest => if flush then [] else b :: rest

/-- Each FIFO is kept or emptied, by two independent draws (R115, D21). -/
def State.reconfigure (s : State) : State :=
  ({ s with
    per := { s.per with
      rxq := keepOrFlush (Config.flushRxDraw s.draws) s.per.rxq
      txq := keepOrFlush (Config.flushTxDraw s.draws) s.per.txq } }).tick

/-- Write of DR (R104): bits [7:0] are appended to TXQ unless it is full; a character written to a full
TXQ is lost. -/
def State.writeDr (v : Word) (s : State) : State :=
  if s.per.txq.length < s.depth then
    { s with per := { s.per with txq := s.per.txq ++ [v.setWidth 8] } }
  else s

/-- A write of `v` to the register may flush the FIFOs (R115): a write of LCRH, or a write of CTL that
changes UARTEN. -/
def Periph.reconfigures (p : Periph) (r : Reg) (v : Word) : Bool :=
  match r with
  | .lcrh => true
  | .ctl => v.getLsbD 0 != p.uarten
  | _ => false

/-- The state after a write of a register, without the event. -/
def State.writeReg (r : Reg) (v : Word) (s : State) : State :=
  match r with
  | .dr => s.writeDr v
  | r =>
    let s' : State := { s with per := s.per.store r v }
    if s.per.reconfigures r v then s'.reconfigure else s'

/-- `BusWrite(a, v)` (R102): one write of a register, recorded as `BusWr(a, v)` (R100). -/
def State.busWrite (r : Reg) (v : Word) (s : State) : State :=
  (s.writeReg r v).record (.busWr (s.cfg.addr r) v)

/-! ### The data-memory port -/

/-- `MemRead(addr, 1)` (R66): the byte and the state after the access, none where MEM_OK refuses the
address. -/
def State.memRead (a : Word) (s : State) : Option (Byte × State) :=
  if s.cfg.admits a then some (s.byteAt a, s.record (.memRd a (s.byteAt a))) else none

/-- `MemWrite(addr, 1, v)` (R67): the state after the store, none where MEM_OK refuses the address. -/
def State.memWrite (a : Word) (v : Byte) (s : State) : Option State :=
  if s.cfg.admits a then some (({ s with mem := Memory.write a.toNat v s.mem }).record (.memWr a v)) else none

/-! ### The status polls and the two character primitives -/

/-- The character latch is loaded. -/
def State.setCh (c : Byte) (s : State) : State := { s with dp := { s.dp with ch := c } }

/-- `PollRXFE()` inside RECV (R107, R108): one read of FR; the engine polls again while RXFE = 1. The
flag tested is bit 4 of the word read (`frWord_rxfe`). -/
def State.recvPoll (op : Op) (s : State) : State :=
  (s.busRead .fr).2.goto op (if s.rxfe then .rxPoll else .rxRead)

/-- The low 8 bits of the word that a read of DR returns (`drByte_eq`). -/
def State.drByte (s : State) : Byte :=
  match s.per.rxq with
  | b :: _ => b
  | [] => (Config.drEmptyDraw s.draws).setWidth 8

/-- The last step of RECV (R108): one read of DR, its low 8 bits latched in CH. -/
def State.recvRead (s : State) : State := (s.busRead .dr).2.setCh s.drByte

/-- `PollTXFF()` inside SEND (R107, R109): one read of FR; the engine polls again while TXFF = 1. The
flag tested is bit 5 of the word read (`frWord_txff`). -/
def State.sendPoll (op : Op) (s : State) : State :=
  (s.busRead .fr).2.goto op (if s.txff then .txPoll else .txWrite)

/-- The last step of SEND (R109): one write of `zext_32(CH)` to DR. -/
def State.sendWrite (s : State) : State := s.busWrite .dr (s.dp.ch.setWidth 32)

/-! ### The steps that two commands share -/

/-- A decoder acts on the character just received (R163). -/
def State.applyDecode (op : Op) (a : DecodeAct) (s : State) : State :=
  match a with
  | .finish => s.complete op (some s.dp.acc)
  | .echo r => ({ s with dp := r }).goto op .txPoll
  | .ignore => s.goto op .rxPoll

/-- One step of a decoder (R162, R163, R181, R182), after the position the sequencer holds. -/
def State.decoderStep (op : Op) (base : Word) (digit : Byte → Option Word) (s : State) : State :=
  match s.phaseIn op with
  | .rxPoll => s.recvPoll op
  | .rxRead =>
    let s' := s.recvRead
    s'.applyDecode op (decodeChar base digit s'.dp.ch s'.dp)
  | .txPoll => s.sendPoll op
  | .txWrite => s.sendWrite.goto op .rxPoll
  | _ => ({ s with dp := s.dp.clearAcc }).recvPoll op

/-- One step of an encoder (R165, R185). `char` gives a digit's character. -/
def State.encoderStep (op : Op) (base : Word) (char : Nibble → Byte) (n : Word) (s : State) : State :=
  match s.phaseIn op with
  | .txPoll => s.sendPoll op
  | .txWrite =>
    let s' := s.sendWrite
    if s'.dp.dcnt = 0#4 then s'.complete op none
    else ({ s' with dp := s'.dp.popDigit char }).goto op .txPoll
  | _ => ({ s with dp := (s.dp.loadNumber base n).popDigit char }).sendPoll op

end Sys2Proof.Machine
end

