-- ==== Sys2Proof/Machine/Agents.lean ====
section
/-! DEFINITION. The agents around the engine (spec/10_state.md R20): the host's issue of a command
(spec/30_encoding.md R90), the steps of the line environment (spec/40_register_interface.md R120 to
R123), and which agent moves next. -/

namespace Sys2Proof.Machine

/-- `issue(w)` (R90, R223): one atomic host step without any access. A halted engine ignores it; else
the first of CommandWhileBusy, IllegalCommand and NotReady that applies is raised; else the word is
latched and the sequencer starts. -/
def State.issue (w : Command) (s : State) : State :=
  let s' := s.record (.issue w)
  if s.halted then s'
  else if ¬ s.isIdle then s'.raise (.commandWhileBusy w)
  else
    match decode w with
    | .error _ => s'.raise (.illegalCommand w)
    | .ok i =>
      if i.op ≠ .init ∧ s.mode = .uninit then s'.raise (.notReady w)
      else ({ s' with cmd := w }).goto i.op .start

/-- `rx_arrive(b)` is enabled when UARTEN = 1 and RXQ is not full; `tx_drain` when UARTEN = 1 and TXQ
is not empty; `clk_ready` when the port's clock is gated on and not yet ready (R120 to R123). -/
def State.enabled (e : LineStep) (s : State) : Bool :=
  match e with
  | .rxArrive _ => s.per.uarten && decide (s.per.rxq.length < s.depth)
  | .txDrain => s.per.uarten && !s.per.txq.isEmpty
  | .clkReady => s.per.rcgcGpio.getLsbD s.cfg.gpioClkBit.val && !s.per.prGpio.getLsbD s.cfg.gpioClkBit.val

/-- The effect of an enabled step of the line environment. -/
def State.lineEffect (e : LineStep) (s : State) : State :=
  match e with
  | .rxArrive b => ({ s with per := { s.per with rxq := s.per.rxq ++ [b] } }).record (.rxIn b)
  | .txDrain =>
    match s.per.txq with
    | [] => s
    | b :: rest => ({ s with per := { s.per with txq := rest } }).record (.txOut b)
  | .clkReady => { s with per := { s.per with prGpio := s.per.prGpio ||| s.cfg.gpioClkMask } }

/-- A turn of the line environment: its step if it is enabled, else nothing happens
(notes/assumptions/4.md). -/
def State.lineStep (e : LineStep) (s : State) : State := if s.enabled e then s.lineEffect e else s

/-- Whose turn it is: the head of the schedule, the engine when the schedule is empty. -/
def State.turn (s : State) : Turn := s.agenda.headD .engine

/-- The schedule without the turn being taken. -/
def State.takeTurn (s : State) : State := { s with agenda := s.agenda.tail }

/-- The command the engine has in hand (R23, R25): the one CMD holds, while SEQ is RUN and no fault has
halted the engine (R222). An idle engine waits for an issue. -/
def State.current (s : State) : Option Instr :=
  match s.fault, s.seq with
  | none, .run _ _ => (decode s.cmd).toOption
  | _, _ => none

/-- The schedule under which the very next turn is the engine's. -/
def engineFirst : List Turn → List Turn
  | [] => []
  | t :: rest => .engine :: t :: rest

/-- The state in which the word has been latched and the engine's next step is the command's first; a
word that is no command is put to the port instead, so that the next step is its issue
(notes/assumptions/9.md). -/
def State.placeCommand (w : Command) (s : State) : State :=
  match decode w with
  | .ok i => { s with cmd := w, seq := .run i.op .start, fault := none, agenda := engineFirst s.agenda }
  | .error _ => { s with agenda := .host w :: s.agenda }

end Sys2Proof.Machine
end

