-- ==== Sys2Proof/Machine/Decimal.lean ====
section
/-! DEFINITION. The decimal codec's commands DECDEC and ENCDEC (spec/42_decimal_codec.md), each one
engine step of its command (R14). -/

namespace Sys2Proof.Machine

/-- One step of DECDEC (R162, R163): base 10, the digits of R161. -/
def execDecdec (s : State) : Host.Outcome State Fault Refusal :=
  .next (s.decoderStep .decdec 10#32 digit10)

/-- One step of ENCDEC (R165): base 10, most significant digit first. -/
def execEncdec (n : Word) (s : State) : Host.Outcome State Fault Refusal :=
  .next (s.encoderStep .encdec 10#32 decChar n)

end Sys2Proof.Machine
end

