-- ==== Sys2Proof/Machine/Driver.lean ====
section
/-! DEFINITION. The UartDriver commands INIT, RXCHAR, TXCHAR and TXSTR (spec/41_uart_driver.md). A
meaning is ONE engine step of its command (R14): at most one access, at the phase the sequencer holds,
with the internal computation around it. -/

namespace Sys2Proof.Machine

/-- `v <- BusRead(a)` in INIT, then the next position (R133). -/
def State.initRead (r : Reg) (next : InitPos) (s : State) : State :=
  let (v, s') := s.busRead r
  ({ s' with dp := { s'.dp with v := v } }).goto .init (.init next)

/-- `BusWrite(a, x)` in INIT, then the next position (R133). -/
def State.initWrite (r : Reg) (x : Word) (next : InitPos) (s : State) : State :=
  (s.busWrite r x).goto .init (.init next)

/-- The readiness poll of INIT (R133 step 2): one read of PR_GPIO; the engine polls again until its bit
GPIO_CLK_BIT is 1. -/
def State.initPoll (s : State) : State :=
  let (v, s') := s.busRead .prGpio
  ({ s' with dp := { s'.dp with v := v } }).goto .init
    (.init (if v.getLsbD s.cfg.gpioClkBit.val then .rdCtlOff else .pollPr))

/-- INIT after its first access, one access a step, in the order of R133. -/
def State.initStep (p : InitPos) (s : State) : State :=
  match p with
  | .wrRcgcUart => s.initWrite .rcgcUart (s.dp.v ||| s.cfg.uartClkMask) .rdRcgcGpio
  | .rdRcgcGpio => s.initRead .rcgcGpio .wrRcgcGpio
  | .wrRcgcGpio => s.initWrite .rcgcGpio (s.dp.v ||| s.cfg.gpioClkMask) .pollPr
  | .pollPr => s.initPoll
  | .rdCtlOff => s.initRead .ctl .wrCtlOff
  | .wrCtlOff => s.initWrite .ctl (s.dp.v &&& 0xFFFFFFFE#32) .wrIbrd
  | .wrIbrd => s.initWrite .ibrd (BitVec.ofNat 32 s.cfg.ibrdVal) .wrFbrd
  | .wrFbrd => s.initWrite .fbrd (BitVec.ofNat 32 s.cfg.fbrdVal) .wrLcrh
  | .wrLcrh => s.initWrite .lcrh lcrhVal .rdCtlOn
  | .rdCtlOn => s.initRead .ctl .wrCtlOn
  | .wrCtlOn => s.initWrite .ctl (s.dp.v ||| 0x00000001#32) .rdAfsel
  | .rdAfsel => s.initRead .afsel .wrAfsel
  | .wrAfsel => s.initWrite .afsel (s.dp.v ||| s.cfg.pins) .rdDen
  | .rdDen => s.initRead .den .wrDen
  | .wrDen => s.initWrite .den (s.dp.v ||| s.cfg.pins) .rdPctl
  | .rdPctl => s.initRead .pctl .wrPctl
  | .wrPctl => s.initWrite .pctl ((s.dp.v &&& ~~~s.cfg.pctlMask) ||| s.cfg.pctlFunc) .rdAmsel
  | .rdAmsel => s.initRead .amsel .wrAmsel
  | .wrAmsel => ({ s.busWrite .amsel (s.dp.v &&& ~~~s.cfg.pins) with mode := .ready }).complete .init none

/-- One step of INIT (R133). It reads no operand. -/
def execInit (s : State) : Host.Outcome State Fault Refusal :=
  match s.phaseIn .init with
  | .init p => .next (s.initStep p)
  | _ => .next (s.initRead .rcgcUart .wrRcgcUart)

/-- One step of RXCHAR (R136, R137): RECV, then `complete(some zext_32(CH))` in the step of the DR
read. -/
def execRxchar (s : State) : Host.Outcome State Fault Refusal :=
  match s.phaseIn .rxchar with
  | .rxRead =>
    let s' := s.recvRead
    .next (s'.complete .rxchar (some (s'.dp.ch.setWidth 32)))
  | _ => .next (s.recvPoll .rxchar)

/-- One step of TXCHAR (R138): CH <- c, SEND(CH), then `complete(none)` in the step of the DR write. -/
def execTxchar (c : Byte) (s : State) : Host.Outcome State Fault Refusal :=
  match s.phaseIn .txchar with
  | .txPoll => .next (s.sendPoll .txchar)
  | .txWrite => .next (s.sendWrite.complete .txchar none)
  | _ => .next ((s.setCh c).sendPoll .txchar)

/-- TXSTR's read of the byte at PTR (R140): the terminator completes the command in this step, any other
byte is latched and sent next; a refused address raises MemRefused. -/
def State.readStringByte (s : State) : State :=
  match s.memRead s.dp.ptr with
  | none => s.raise (.memRefused s.dp.ptr)
  | some (b, s') => if b = charNUL then s'.complete .txstr none else (s'.setCh b).goto .txstr .txPoll

/-- One step of TXSTR (R140). The next byte is read only after the previous one has been written to DR
(D17). -/
def execTxstr (a : Word) (s : State) : Host.Outcome State Fault Refusal :=
  match s.phaseIn .txstr with
  | .strRead => .next s.readStringByte
  | .txPoll => .next (s.sendPoll .txstr)
  | .txWrite =>
    let s' := s.sendWrite
    .next (({ s' with dp := { s'.dp with ptr := s'.dp.ptr + 1#32 } }).goto .txstr .strRead)
  | _ => .next ({ s with dp := { s.dp with ptr := a } }).readStringByte

end Sys2Proof.Machine
end

