-- ==== Sys2Proof/Machine/Hex.lean ====
section
/-! DEFINITION. The hexadecimal codec's commands DECHEX and ENCHEX (spec/43_hex_codec.md), each one
engine step of its command (R14). -/

namespace Sys2Proof.Machine

/-- One step of DECHEX (R181, R182): base 16, the digits of R180 in either case. -/
def execDechex (s : State) : Host.Outcome State Fault Refusal :=
  .next (s.decoderStep .dechex 16#32 digit16)

/-- One step of ENCHEX (R185): base 16, uppercase, most significant nibble first. -/
def execEnchex (n : Word) (s : State) : Host.Outcome State Fault Refusal :=
  .next (s.encoderStep .enchex 16#32 hexChar n)

end Sys2Proof.Machine
end

