-- ==== Sys2Proof/Machine/LineEditor.lean ====
section
/-! DEFINITION. The line editor's command RDLINE (spec/44_line_editor.md), one engine step of it
(R14). -/

namespace Sys2Proof.Machine

/-- `MemWrite(BUFA + LEN, 1, CH)`, then LEN is incremented and the character echoed next (R201). -/
def State.storeLineChar (s : State) : State :=
  match s.memWrite s.dp.lineAddr s.dp.ch with
  | none => s.raise (.memRefused s.dp.lineAddr)
  | some s' => ({ s' with dp := { s'.dp with len := s'.dp.len + 1#16 } }).goto .rdline .txPoll

/-- `MemWrite(BUFA + LEN, 1, 0x00)` and `complete(none)` in the same step (R201). -/
def State.terminateLine (s : State) : State :=
  match s.memWrite s.dp.lineAddr charNUL with
  | none => s.raise (.memRefused s.dp.lineAddr)
  | some s' => s'.complete .rdline none

/-- BUFA, MAXL and LEN at the start of RDLINE (R201). -/
def Datapath.openLine (a : Word) (max : Half) (r : Datapath) : Datapath :=
  { r with bufa := a, maxl := max, len := 0#16 }

/-- RDLINE acts on the character just received (R202). A backspace changes only LEN (D16). -/
def State.applyLine (a : LineAct) (s : State) : State :=
  match a with
  | .terminate => s.goto .rdline .lineTerm
  | .erase => ({ s with dp := { s.dp with len := s.dp.len - 1#16 } }).goto .rdline .txPoll
  | .store => s.goto .rdline .lineStore
  | .drop => s.goto .rdline .rxPoll

/-- One step of RDLINE (R201, R202). -/
def execRdline (a : Word) (max : Half) (s : State) : Host.Outcome State Fault Refusal :=
  match s.phaseIn .rdline with
  | .rxPoll => .next (s.recvPoll .rdline)
  | .rxRead =>
    let s' := s.recvRead
    .next (s'.applyLine (lineChar s'.dp.ch s'.dp.len s'.dp.maxl))
  | .lineStore => .next s.storeLineChar
  | .lineTerm => .next s.terminateLine
  | .txPoll => .next (s.sendPoll .rdline)
  | .txWrite => .next (s.sendWrite.goto .rdline .rxPoll)
  | _ => .next (({ s with dp := s.dp.openLine a max }).recvPoll .rdline)

end Sys2Proof.Machine
end

