-- ==== Sys2Proof/Machine/Dispatch.lean ====
section
/-! DEFINITION. One arm per command: the engine step of the command in hand. -/

namespace Sys2Proof.Machine

def exec (i : Instr) (s : State) : Host.Outcome State Fault Refusal :=
  match i with
  | .init => Sys2Proof.Machine.execInit s
  | .rxchar => Sys2Proof.Machine.execRxchar s
  | .txchar c => Sys2Proof.Machine.execTxchar c s
  | .txstr a => Sys2Proof.Machine.execTxstr a s
  | .decdec => Sys2Proof.Machine.execDecdec s
  | .encdec n => Sys2Proof.Machine.execEncdec n s
  | .dechex => Sys2Proof.Machine.execDechex s
  | .enchex n => Sys2Proof.Machine.execEnchex n s
  | .rdline a max => Sys2Proof.Machine.execRdline a max s

end Sys2Proof.Machine
end

