-- ==== Sys2Proof/Machine/Step.lean ====
section
/-! DEFINITION. One step of the machine: one atomic step of the agent whose turn it is (R14, R20). -/

namespace Sys2Proof.Machine

/-- One step. A configuration that the spec refuses is refused (`Params.ok`; R64, R132,
93_implementation_defined.md). The engine's turn
runs one step of the command in hand; with none in hand (idle, or halted by a fault) the engine does
nothing and only the turn passes. -/
def step (s : State) : Host.Outcome State Fault Refusal :=
  if s.cfg.ok then
    match s.turn with
    | .engine =>
      match s.takeTurn.current with
      | some i => exec i s.takeTurn
      | none => .next s.takeTurn
    | .line e => .next (s.takeTurn.lineStep e)
    | .host w => .next (s.takeTurn.issue w)
  else .refused .configuration

/-- The state with the command word whose low `nbits` bits are those of `w`, the rest zero, in the
engine's hand (`State.placeCommand`; notes/assumptions/9.md). -/
def State.withFetchWord (s : State) (nbits w : Nat) : State :=
  s.placeCommand (BitVec.ofNat 64 (w % 2 ^ nbits))

end Sys2Proof.Machine
end

