-- ==== Sys2Proof/Machine/Assembler.lean ====
section
/-! DEFINITION. The assembler of spec/30_encoding.md R88 and R89: one command a line, the mnemonic and
then its operands separated by commas, `;` starting a comment, and the pseudo-instruction NEWLINE. It is
no part of the hardware; it is how the spec writes programs (R88 examples, 95_test_vectors.md). A text is
a list of characters. What R88 leaves open of the text's form (blanks, the line end, literals) is
notes/assumptions/13.md. -/

namespace Sys2Proof.Assembler

/-- A character that separates words on a line. -/
def isBlank (c : Char) : Bool := c == ' ' || c == '\t'

/-- The text after its leading blanks. -/
def skipBlanks : List Char → List Char
  | [] => []
  | c :: cs => if isBlank c then skipBlanks cs else c :: cs

/-- Nothing but blanks and a comment is left (R88). -/
def atEnd (cs : List Char) : Bool :=
  match skipBlanks cs with
  | [] => true
  | c :: _ => c == ';'

/-- The longest leading run of characters that satisfy `p`, and the rest. -/
def spanChars (p : Char → Bool) : List Char → List Char × List Char
  | [] => ([], [])
  | c :: cs => if p c then ((c :: (spanChars p cs).1), (spanChars p cs).2) else ([], c :: cs)

/-- The digit value of a source character in a digit class of the engine (R161, R180): program text is
ASCII, as the engine's characters are (R9), so one definition serves both. -/
def asciiDigit (digit : Byte → Option Word) (c : Char) : Option Nat :=
  if c.toNat < 128 then (digit (BitVec.ofNat 8 c.toNat)).map BitVec.toNat else none

/-- The value of a decimal digit. -/
def decValue (c : Char) : Option Nat := asciiDigit Machine.digit10 c

/-- The value of a hexadecimal digit, of either case. -/
def hexValue (c : Char) : Option Nat := asciiDigit Machine.digit16 c

/-- The number a run of digits writes; underscores are passed over (R9). -/
def numberFrom (base : Nat) (value : Char → Option Nat) : Nat → List Char → Nat
  | acc, [] => acc
  | acc, c :: cs =>
    match value c with
    | some d => numberFrom base value (acc * base + d) cs
    | none => numberFrom base value acc cs

/-- A number in base `base`: a digit, then digits and underscores. -/
def digits (base : Nat) (value : Char → Option Nat) (cs : List Char) : Option (Nat × List Char) :=
  match cs with
  | [] => none
  | c :: _ =>
    if (value c).isSome then
      let (ds, rest) := spanChars (fun x => (value x).isSome || x == '_') cs
      some (numberFrom base value 0 ds, rest)
    else none

/-- A literal: `0x` hexadecimal or decimal (R88). -/
def literal (cs : List Char) : Option (Nat × List Char) :=
  match skipBlanks cs with
  | '0' :: 'x' :: rest => digits 16 hexValue rest
  | cs => digits 10 decValue cs

/-- A character operand: a literal or a quoted ASCII character (R88). -/
def charLiteral (cs : List Char) : Option (Nat × List Char) :=
  match skipBlanks cs with
  | '\'' :: c :: '\'' :: rest => if c.toNat < 128 then some (c.toNat, rest) else none
  | cs => literal cs

/-- A line whose mnemonic takes no operand. -/
def noOperand (l : SourceLine) (rest : List Char) : Option SourceLine :=
  if atEnd rest then some l else none

/-- A line whose mnemonic takes one operand. -/
def oneOperand (build : Nat → SourceLine) (parse : List Char → Option (Nat × List Char))
    (rest : List Char) : Option SourceLine :=
  match parse rest with
  | some (n, rest) => if atEnd rest then some (build n) else none
  | none => none

/-- A line whose mnemonic takes two operands, separated by a comma. -/
def twoOperands (build : Nat → Nat → SourceLine) (rest : List Char) : Option SourceLine :=
  match literal rest with
  | none => none
  | some (a, rest) =>
    match skipBlanks rest with
    | ',' :: rest => oneOperand (build a) literal rest
    | _ => none

/-- The line a mnemonic and the text after it stand for; none where the assembler refuses it. R88 lists the
forms of a literal (decimal, `0x`, a quoted character) only for TXCHAR's c; for addr, n and max this parser
takes the decimal and the `0x` form and refuses a quoted character: `ENCDEC 'A'` is no line. DESIGN CHOICE
(notes/assumptions/13.md). -/
def parseMnemonic (name rest : List Char) : Option SourceLine :=
  if name = ['I', 'N', 'I', 'T'] then noOperand .init rest
  else if name = ['R', 'X', 'C', 'H', 'A', 'R'] then noOperand .rxchar rest
  else if name = ['T', 'X', 'C', 'H', 'A', 'R'] then oneOperand .txchar charLiteral rest
  else if name = ['T', 'X', 'S', 'T', 'R'] then oneOperand .txstr literal rest
  else if name = ['D', 'E', 'C', 'D', 'E', 'C'] then noOperand .decdec rest
  else if name = ['E', 'N', 'C', 'D', 'E', 'C'] then oneOperand .encdec literal rest
  else if name = ['D', 'E', 'C', 'H', 'E', 'X'] then noOperand .dechex rest
  else if name = ['E', 'N', 'C', 'H', 'E', 'X'] then oneOperand .enchex literal rest
  else if name = ['R', 'D', 'L', 'I', 'N', 'E'] then twoOperands .rdline rest
  else if name = ['N', 'E', 'W', 'L', 'I', 'N', 'E'] then noOperand .newline rest
  else none

/-- One line of source: `some none` for a line without a command, none where it is refused. R88 does not
say that a blank must stand between a mnemonic and its first operand, and this parser asks for none:
`TXCHAR65` is `TXCHAR 65`. DESIGN CHOICE (notes/assumptions/13.md). -/
def parseLine (cs : List Char) : Option (Option SourceLine) :=
  if atEnd cs then some none
  else
    let (name, rest) := spanChars Char.isUpper (skipBlanks cs)
    (parseMnemonic name rest).map some

/-- The commands of a line whose operands fit their fields; none where one does not (R88). NEWLINE is
`TXCHAR 0x0D` and `TXCHAR 0x0A`, in that order (R89). -/
def expand (l : SourceLine) : Option (List Instr) :=
  if l.fits then
    some (match l with
      | .init => [.init]
      | .rxchar => [.rxchar]
      | .txchar c => [.txchar (BitVec.ofNat 8 c)]
      | .txstr a => [.txstr (BitVec.ofNat 32 a)]
      | .decdec => [.decdec]
      | .encdec n => [.encdec (BitVec.ofNat 32 n)]
      | .dechex => [.dechex]
      | .enchex n => [.enchex (BitVec.ofNat 32 n)]
      | .rdline a m => [.rdline (BitVec.ofNat 32 a) (BitVec.ofNat 16 m)]
      | .newline => [.txchar charCR, .txchar charLF])
  else none

/-- The commands of one line of text. -/
def assembleLine (cs : List Char) : Option (List Instr) :=
  match parseLine cs with
  | none => none
  | some none => some []
  | some (some l) => expand l

/-- The command words of a program, line by line; none where a line is refused. -/
def assemble : List (List Char) → Option (List Command)
  | [] => some []
  | l :: ls =>
    match assembleLine l, assemble ls with
    | some is, some ws => some (is.map encode ++ ws)
    | _, _ => none

end Sys2Proof.Assembler
end

