-- ==== Sys2Proof/Safety.lean ====
section
/-! DEFINITION. What claims speak of: the observation of a run (spec/40_register_interface.md R125), its
end (spec/70_reset_and_hazards.md R252), the invariants the spec states of the machine, the positions of
each operation's pseudocode, and the functions the source defines the codecs by (spec/42_decimal_codec.md
R160, R166). The machine itself does not use this file. -/

namespace Sys2Proof.Machine

/-! ### The observation of a run (R125) -/

/-- The events in the order they happened. -/
def State.events (s : State) : List Event := s.trace.reverse

/-- The character of an event that is a write of DR. -/
def Event.sentChar (cfg : Params) : Event → Option Byte
  | .busWr a v => if a = cfg.addr .dr then some (v.setWidth 8) else none
  | _ => none

/-- The character of an event that is a read of DR. -/
def Event.receivedChar (cfg : Params) : Event → Option Byte
  | .busRd a v => if a = cfg.addr .dr then some (v.setWidth 8) else none
  | _ => none

/-- The character of an event that the line environment sent to the engine. -/
def Event.arrivedChar : Event → Option Byte
  | .rxIn b => some b
  | _ => none

/-- The character of an event that reached the terminal. -/
def Event.terminalChar : Event → Option Byte
  | .txOut b => some b
  | _ => none

/-- The completion of an event (R91). -/
def Event.completion : Event → Option (Op × Option Word)
  | .done op res => some (op, res)
  | _ => none

/-- The event is an access of the engine or a completion it posts, and no event of another agent. -/
def Event.isEngine : Event → Bool
  | .busRd _ _ => true
  | .busWr _ _ => true
  | .memRd _ _ => true
  | .memWr _ _ => true
  | .done _ _ => true
  | _ => false

/-- The characters sent by the engine: the low bytes of the DR writes (R125). -/
def State.sent (s : State) : List Byte := s.events.filterMap (Event.sentChar s.cfg)

/-- The characters received by the engine: the low bytes of the values of the DR reads (R125). -/
def State.received (s : State) : List Byte := s.events.filterMap (Event.receivedChar s.cfg)

/-- The characters that arrived: the `RxIn` sequence (R120, R247). -/
def State.arrived (s : State) : List Byte := s.events.filterMap Event.arrivedChar

/-- The characters the terminal sees: the `TxOut` sequence (R121, R125). -/
def State.terminal (s : State) : List Byte := s.events.filterMap Event.terminalChar

/-- The completions the host reads, in the order they are posted (R91). -/
def State.completions (s : State) : List (Op × Option Word) := s.events.filterMap Event.completion

/-! ### The end of a run (R252) -/

/-- The turn is an issue by the host. -/
def Turn.isIssue : Turn → Bool
  | .host _ => true
  | _ => false

/-- A run ends well here: no fault, the engine idle, no further issue by the host (R252). -/
def State.endsWell (s : State) : Bool :=
  !s.halted && s.isIdle && s.agenda.all fun t => !t.isIssue

/-- A run that ends here ends badly (R252). -/
def State.endsBadly (s : State) : Bool := s.halted

/-! ### Runs of one command -/

/-- `k` steps from `s` lead to `t`. -/
def runs (k : Nat) (s t : State) : Prop := Host.Core.run Sys2Proof.core k s = .next t

/-- From here the engine moves alone: the configuration is admitted, no fault has halted the engine, and
no turn of another agent is scheduled. -/
def State.alone (s : State) : Prop := s.cfg.ok = true ∧ s.fault = none ∧ s.agenda = []

/-- From here the host issues nothing (R244): the configuration is admitted, no fault has halted the
engine, and the turns scheduled are the engine's and the line environment's, in any order (R124). -/
def State.unissued (s : State) : Prop :=
  s.cfg.ok = true ∧ s.fault = none ∧ ∀ x ∈ s.agenda, x.isIssue = false

/-- A TXSTR is running to which no address is refused and that finds no terminator (R140 (d), R249). -/
def State.endless (s : State) : Prop :=
  (∃ a, s.current = some (.txstr a)) ∧ (∀ x : Word, s.cfg.admits x = true) ∧ ∀ x : Word, s.byteAt x ≠ 0x00#8

/-- The command has been accepted and its first step comes next (R90). -/
def State.started (i : Instr) (s : State) : Prop := s.seq = .run i.op .start ∧ decode s.cmd = .ok i

end Sys2Proof.Machine

namespace Sys2Proof

/-! ### The positions of the operations (R22) -/

/-- The operation's pseudocode uses RECV (R108). -/
def Op.receives : Op → Bool
  | .rxchar => true
  | .decdec => true
  | .dechex => true
  | .rdline => true
  | _ => false

/-- The operation's pseudocode uses SEND (R109). -/
def Op.sends : Op → Bool
  | .init => false
  | .rxchar => false
  | _ => true

/-- The phase is a position of the operation's pseudocode. -/
def Op.hasPhase (op : Op) : Machine.Phase → Bool
  | .start => true
  | .rxPoll => op.receives
  | .rxRead => op.receives
  | .txPoll => op.sends
  | .txWrite => op.sends
  | .strRead => op == .txstr
  | .lineStore => op == .rdline
  | .lineTerm => op == .rdline
  | .init _ => op == .init

end Sys2Proof

namespace Sys2Proof.Machine

/-- The place of a position in INIT's sequence of accesses (R133), the first access being number 0. -/
def InitPos.index : InitPos → Nat
  | .wrRcgcUart => 1
  | .rdRcgcGpio => 2
  | .wrRcgcGpio => 3
  | .pollPr => 4
  | .rdCtlOff => 5
  | .wrCtlOff => 6
  | .wrIbrd => 7
  | .wrFbrd => 8
  | .wrLcrh => 9
  | .rdCtlOn => 10
  | .wrCtlOn => 11
  | .rdAfsel => 12
  | .wrAfsel => 13
  | .rdDen => 14
  | .wrDen => 15
  | .rdPctl => 16
  | .wrPctl => 17
  | .rdAmsel => 18
  | .wrAmsel => 19

/-- The register whose read-modify-write ends at the position (R75, R133). -/
def InitPos.modifies : InitPos → Option Reg
  | .wrRcgcUart => some .rcgcUart
  | .wrRcgcGpio => some .rcgcGpio
  | .wrCtlOff => some .ctl
  | .wrCtlOn => some .ctl
  | .wrAfsel => some .afsel
  | .wrDen => some .den
  | .wrPctl => some .pctl
  | .wrAmsel => some .amsel
  | _ => none

/-- INIT is running and its next access is later than the one at position `p`. -/
def State.initPast (s : State) (p : InitPos) : Prop :=
  ∃ q, s.seq = .run .init (.init q) ∧ p.index < q.index

/-- The next step is a write of INIT that may empty a FIFO (R115): the write of LCRH, or a write of CTL
that changes UARTEN. -/
def State.flushing (s : State) : Prop :=
  s.turn = .engine ∧ s.fault = none ∧ ∃ p, s.seq = .run .init (.init p) ∧
    (p = .wrLcrh ∨ (p = .wrCtlOff ∧ s.per.uarten = true) ∨ (p = .wrCtlOn ∧ s.per.uarten = false))

/-! ### Invariants -/

/-- What holds of every state of a run from a launch state in which it holds: the canonical form of
memory, the FIFOs within their depth (R42), the RX and TX invariants (R110, R111), PR_GPIO zero where
RCGC_GPIO is (R41), INIT's read-modify-writes as good as atomic (R75), SEQ a position of the command in
CMD (R22, R25), MODE = READY while another command than INIT runs (R130), LEN within MAXL (R28, R200)
with the line registers holding RDLINE's operands (R201), and the digit buffer within its ten entries
(R8, R29). -/
structure State.Inv (s : State) : Prop where
  memory : Memory.wf s.mem = true
  rxFits : s.per.rxq.length ≤ s.depth
  txFits : s.per.txq.length ≤ s.depth
  rxReady : ∀ op, s.seq = .run op .rxRead → s.per.rxq ≠ []
  txReady : ∀ op, s.seq = .run op .txWrite → s.per.txq.length < s.depth
  gated : s.per.prGpio &&& ~~~s.per.rcgcGpio = 0#32
  held : ∀ p r, s.seq = .run .init (.init p) → p.modifies = some r → s.dp.v = s.per.stored r
  command : ∀ op ph, s.seq = .run op ph → ∃ i, decode s.cmd = .ok i ∧ i.op = op
  legal : ∀ op ph, s.seq = .run op ph → op.hasPhase ph = true
  ready : ∀ op ph, s.seq = .run op ph → op ≠ .init → s.mode = .ready
  line : ∀ ph, s.seq = .run .rdline ph → ph ≠ .start →
    s.dp.bufa = fieldA s.cmd ∧ s.dp.maxl = fieldMAX s.cmd ∧ s.dp.len ≤ s.dp.maxl
  lineRoom : s.seq = .run .rdline .lineStore → s.dp.len < s.dp.maxl
  digits : ∀ op ph, s.seq = .run op ph → (op = .encdec ∨ op = .enchex) → ph ≠ .start → s.dp.dcnt < 10#4

/-- What INIT has configured stays configured (R133, R134, R241): once INIT has made an access, or has
completed, the register holds what that access leaves; the UART is disabled exactly between INIT's
steps 3 and 5 (R123, R133). -/
structure State.Configured (s : State) : Prop where
  uartClock : s.mode = .ready ∨ s.initPast .wrRcgcUart → s.per.rcgcUart &&& s.cfg.uartClkMask = s.cfg.uartClkMask
  gpioClock : s.mode = .ready ∨ s.initPast .wrRcgcGpio → s.per.rcgcGpio &&& s.cfg.gpioClkMask = s.cfg.gpioClkMask
  gpioReady : s.mode = .ready ∨ s.initPast .pollPr → s.per.prGpio.getLsbD s.cfg.gpioClkBit.val = true
  integer : s.mode = .ready ∨ s.initPast .wrIbrd → s.per.ibrd = BitVec.ofNat 16 s.cfg.ibrdVal
  fraction : s.mode = .ready ∨ s.initPast .wrFbrd → s.per.fbrd = BitVec.ofNat 6 s.cfg.fbrdVal
  frame : s.mode = .ready ∨ s.initPast .wrLcrh → s.per.lcrh = 0x70#8
  disabled : s.initPast .wrCtlOff → ¬ s.initPast .wrCtlOn → s.per.uarten = false
  enabled : (s.mode = .ready ∧ ¬ s.initPast .wrCtlOff) ∨ s.initPast .wrCtlOn → s.per.uarten = true
  alternate : s.mode = .ready ∨ s.initPast .wrAfsel → s.per.afsel &&& s.cfg.pins = s.cfg.pins
  digital : s.mode = .ready ∨ s.initPast .wrDen → s.per.den &&& s.cfg.pins = s.cfg.pins
  function : s.mode = .ready ∨ s.initPast .wrPctl → s.per.pctl &&& s.cfg.pctlMask = s.cfg.pctlFunc &&& s.cfg.pctlMask
  analog : s.mode = .ready → s.per.amsel &&& s.cfg.pins = 0#32

/-- The characters the engine has sent are those the terminal has seen, then those still in TXQ
(R104, R111, R121): none is lost, doubled or reordered. -/
def State.TxConserved (s : State) : Prop := s.terminal ++ s.per.txq = s.sent

/-- The characters that arrived are those the engine has received, then those still in RXQ (R103, R110,
R120). -/
def State.RxConserved (s : State) : Prop := s.received ++ s.per.rxq = s.arrived

/-! ### The codecs as the source defines them -/

/-- The accumulator `{ value, digitCount }` and the echo so far, after one more character (R160, R162,
R181), written over plain words. -/
def codecChar (base : Word) (digit : Byte → Option Word) (st : Word × Word × List Byte) (c : Byte) :
    Word × Word × List Byte :=
  match digit c with
  | some d => (st.1 * base + d, st.2.1 + 1#32, st.2.2 ++ [c])
  | none => if c = charBS ∧ st.2.1 ≠ 0#32 then (st.1 / base, st.2.1 - 1#32, st.2.2 ++ [c]) else st

/-- What a decoder makes of the characters before CR: value, digit count and echo. -/
def codecLine (base : Word) (digit : Byte → Option Word) (cs : List Byte) : Word × Word × List Byte :=
  cs.foldl (codecChar base digit) (0#32, 0#32, [])

/-- The source's recursive digit emitter (R166, R185), with a bound on its depth. -/
def emitDigits (base : Nat) (char : Nat → Byte) : Nat → Nat → List Byte
  | 0, _ => []
  | k + 1, n => if n < base then [char n] else emitDigits base char k (n / base) ++ [char (n % base)]

/-- The characters ENCDEC sends for `n`, most significant digit first (R165, R166). -/
def decimalChars (n : Word) : List Byte := emitDigits 10 (fun d => BitVec.ofNat 8 (0x30 + d)) 10 n.toNat

/-- The characters ENCHEX sends for `n` (R184, R185). -/
def hexChars (n : Word) : List Byte :=
  emitDigits 16 (fun d => if d ≤ 9 then BitVec.ofNat 8 (0x30 + d) else BitVec.ofNat 8 (0x37 + d)) 8 n.toNat

/-- The line an RDLINE keeps after one more character: the characters stored, and the echo (R201). -/
def lineStep (maxl : Nat) (st : List Byte × List Byte) (c : Byte) : List Byte × List Byte :=
  if c = charBS then (if st.1 = [] then st else (st.1.dropLast, st.2 ++ [c]))
  else if st.1.length < maxl then (st.1 ++ [c], st.2 ++ [c])
  else st

/-- The line RDLINE makes of the characters before CR, and its echo (R201). -/
def editLine (maxl : Nat) (cs : List Byte) : List Byte × List Byte :=
  cs.foldl (lineStep maxl) ([], [])

end Sys2Proof.Machine
end

