-- ==== Sys2Proof/Certificates/Slice0/Obligations.lean ====
section
/-! DEFINITION. The statements for the provers, grouped as spec/ groups its rules. "The model's choice"
in a docstring marks a clause that rests on a log entry and not on a rule of the spec. -/

open Sys2Proof Sys2Proof.Machine

/-! ### Encoding (30_encoding.md) -/

/-- Every command is what its own word decodes to, with every operand at every value (R81 to R84, R93). -/
def Obligations.DecodeOfEncodeIsTheCommand : Prop :=
  ∀ i : Instr, decode (encode i) = .ok i

/-- A word that decodes to a command is that command's encoding: no two words mean the same command
(R83 to R87). -/
def Obligations.EncodeOfDecodeIsTheWord : Prop :=
  ∀ (w : Command) (i : Instr), decode w = .ok i → encode i = w

/-- The decoder answers the one row of R83's table that the word selects, and refuses a word that selects
none (R83, R85, R93). -/
def Obligations.DecoderFollowsTheOpcodeMap : Prop :=
  ∀ w : Command,
    (∀ i, decode w = .ok i → i.op.selects w = true) ∧
    (∀ op, op.selects w = true → ∃ i, decode w = .ok i ∧ i.op = op) ∧
    (∀ op op' : Op, op.selects w = true → op'.selects w = true → op = op') ∧
    ((∃ e, decode w = .error e) ↔ ∀ op : Op, op.selects w = false)

/-- A word is illegal exactly when its OP is 0x00 or 0x0A to 0xFF, or a bit outside OP and the used
fields is not zero, and then an idle engine's issue raises IllegalCommand and performs no access (R85). -/
def Obligations.IllegalWordsRaiseIllegalCommand : Prop :=
  ∀ (w : Command) (s : State),
    ((∃ e, decode w = .error e) ↔
      (fieldOP w = 0x00#8 ∨ 0x0A#8 ≤ fieldOP w ∨ ∃ op : Op, fieldOP w = op.code ∧ reservedZero op w = false)) ∧
    ((∃ e, decode w = .error e) → s.fault = none → s.seq = .idle →
      s.issue w = { s with
        fault := some (.illegalCommand w)
        trace := .fault (.illegalCommand w) :: .issue w :: s.trace })

/-- The example words of R88 and all sixteen of 95_test_vectors.md section 2 decode to the commands they
stand for, or are refused. -/
def Obligations.ExampleWordsDecode : Prop :=
  decode 0x0000000000000001#64 = .ok .init ∧
  decode 0x0000000000000002#64 = .ok .rxchar ∧
  decode 0x0000000000004103#64 = .ok (.txchar 0x41#8) ∧
  decode 0x0000200000000004#64 = .ok (.txstr 0x2000#32) ∧
  decode 0x0000000000000005#64 = .ok .decdec ∧
  decode 0x000004D200000006#64 = .ok (.encdec 1234#32) ∧
  decode 0x0000000000000007#64 = .ok .dechex ∧
  decode 0x00000ABC00000008#64 = .ok (.enchex 0xABC#32) ∧
  decode 0x0000200000030009#64 = .ok (.rdline 0x2000#32 3#16) ∧
  decode 0xFFFFFFFFFFFF0009#64 = .ok (.rdline 0xFFFFFFFF#32 0xFFFF#16) ∧
  decode 0x0000000000000000#64 = .error (.opcode 0x00#8) ∧
  decode 0x000000000000000A#64 = .error (.opcode 0x0A#8) ∧
  decode 0x0000000000010003#64 = .error (.reservedBits .txchar) ∧
  decode 0x0000000100000001#64 = .error (.reservedBits .init) ∧
  decode 0x0000000000000106#64 = .error (.reservedBits .encdec) ∧
  decode 0x0000000000000D03#64 = .ok (.txchar 0x0D#8) ∧
  decode 0x0000000000000A03#64 = .ok (.txchar 0x0A#8)

/-- An operand that does not fit its field of C64 is refused by the assembler, one that fits is taken
whole, a line without operands is its command, and NEWLINE is TXCHAR CR and TXCHAR LF (R81, R88, R89). -/
def Obligations.AssemblerRefusesOversizedOperands : Prop :=
  (∀ c, 2 ^ 8 ≤ c → Assembler.expand (.txchar c) = none) ∧
  (∀ a, 2 ^ 32 ≤ a → Assembler.expand (.txstr a) = none) ∧
  (∀ n, 2 ^ 32 ≤ n → Assembler.expand (.encdec n) = none) ∧
  (∀ n, 2 ^ 32 ≤ n → Assembler.expand (.enchex n) = none) ∧
  (∀ a m, 2 ^ 32 ≤ a ∨ 2 ^ 16 ≤ m → Assembler.expand (.rdline a m) = none) ∧
  (∀ c, c < 2 ^ 8 → ∃ x : Byte, Assembler.expand (.txchar c) = some [.txchar x] ∧ x.toNat = c) ∧
  (∀ a, a < 2 ^ 32 → ∃ x : Word, Assembler.expand (.txstr a) = some [.txstr x] ∧ x.toNat = a) ∧
  (∀ n, n < 2 ^ 32 → ∃ x : Word, Assembler.expand (.encdec n) = some [.encdec x] ∧ x.toNat = n) ∧
  (∀ n, n < 2 ^ 32 → ∃ x : Word, Assembler.expand (.enchex n) = some [.enchex x] ∧ x.toNat = n) ∧
  (∀ a m, a < 2 ^ 32 → m < 2 ^ 16 →
    ∃ (x : Word) (y : Half), Assembler.expand (.rdline a m) = some [.rdline x y] ∧ x.toNat = a ∧ y.toNat = m) ∧
  (∀ i ∈ [(SourceLine.init, Instr.init), (.rxchar, .rxchar), (.decdec, .decdec), (.dechex, .dechex)],
    Assembler.expand i.1 = some [i.2]) ∧
  Assembler.expand .newline = some [.txchar 0x0D#8, .txchar 0x0A#8]

/-! ### The command port and the step (R14, R23, R90, R222) -/

/-- The issue protocol, in its order (R90): a halted engine ignores the issue; a busy one faults; an
illegal word faults; a command other than INIT while MODE = UNINIT faults; any other command is latched
and started. Nothing else changes. -/
def Obligations.IssueFollowsThePortProtocol : Prop :=
  ∀ (w : Command) (s : State),
    (s.fault ≠ none → s.issue w = { s with trace := .issue w :: s.trace }) ∧
    (s.fault = none → s.seq ≠ .idle → s.issue w = { s with
      fault := some (.commandWhileBusy w)
      trace := .fault (.commandWhileBusy w) :: .issue w :: s.trace }) ∧
    (s.fault = none → s.seq = .idle → (∀ op : Op, op.selects w = false) → s.issue w = { s with
      fault := some (.illegalCommand w)
      trace := .fault (.illegalCommand w) :: .issue w :: s.trace }) ∧
    (∀ op : Op, s.fault = none → s.seq = .idle → op.selects w = true → op ≠ .init → s.mode = .uninit →
      s.issue w = { s with
        fault := some (.notReady w)
        trace := .fault (.notReady w) :: .issue w :: s.trace }) ∧
    (∀ op : Op, s.fault = none → s.seq = .idle → op.selects w = true → (op = .init ∨ s.mode = .ready) →
      s.issue w = { s with
        cmd := w
        seq := .run op .start
        trace := .issue w :: s.trace })

/-- On the engine's turn, with no fault and SEQ at a phase, the step is the step of the command CMD
decodes to (R14, R23, R25). Two clauses are the model's choice: that the turn is taken off a schedule
(notes/assumptions/4.md), and that CMD says which command runs where SEQ names another operation, in states
that no run reaches (notes/assumptions/8.md). -/
def Obligations.StepRunsTheDecodedCommand : Prop :=
  ∀ (s : State) (i : Instr) (op : Op) (ph : Phase),
    s.cfg.ok = true → s.turn = .engine → s.fault = none → s.seq = .run op ph → decode s.cmd = .ok i →
    step s = exec i { s with agenda := s.agenda.tail }

/-- On the host's turn the step is the issue; on the line environment's turn it is that agent's step; on
the engine's turn with the engine idle or halted, only the turn passes (R14, R20, R222). That a schedule
says whose turn it is, and the engine moves where it is empty, is the model's choice
(notes/assumptions/4.md). -/
def Obligations.StepTakesTheScheduledTurn : Prop :=
  ∀ (s : State) (rest : List Turn), s.cfg.ok = true →
    (∀ w, s.agenda = .host w :: rest → step s = .next ({ s with agenda := rest }.issue w)) ∧
    (∀ e, s.agenda = .line e :: rest → step s = .next ({ s with agenda := rest }.lineStep e)) ∧
    (s.agenda = .engine :: rest → (s.seq = .idle ∨ s.fault ≠ none) → step s = .next { s with agenda := rest }) ∧
    (s.agenda = [] → (s.seq = .idle ∨ s.fault ≠ none) → step s = .next s)

/-- In an admitted configuration every state has a next state (R112, R220), and in another every step is
refused: one with a misaligned binding (R64), with colliding addresses (R71, 93_implementation_defined.md)
or with a divisor out of range (R132), and no other (`Params.ok`). Two clauses are the model's choice: that
no step answers a fault, because a model fault is a next state (notes/assumptions/11.md), and that the
refusal stands at every step (notes/assumptions/15.md). -/
def Obligations.EveryStepAnswersNext : Prop :=
  ∀ s : State,
    (s.cfg.ok = true → ∃ t, step s = .next t) ∧
    (s.cfg.ok = false → step s = .refused .configuration)

/-- Once FAULT is set it stays set and the engine takes no further step: its turn passes with nothing
changed but the schedule, no step adds an access or a completion, and the other agents change only the
FIFOs and PR_GPIO (R24, R222, R226). -/
def Obligations.AHaltedEngineTakesNoStep : Prop :=
  ∀ (s t : State) (r : Fault), s.fault = some r → step s = .next t →
    (s.turn = .engine → t = { s with agenda := s.agenda.tail }) ∧
    t.fault = some r ∧ t.seq = s.seq ∧ t.mode = s.mode ∧ t.cmd = s.cmd ∧ t.dp = s.dp ∧ t.mem = s.mem ∧
    t.cfg = s.cfg ∧ t.draws = s.draws ∧
    (∃ rx tx pr, t.per = { s.per with rxq := rx, txq := tx, prGpio := pr }) ∧
    t.events.filter Event.isEngine = s.events.filter Event.isEngine

/-- A step sets FAULT only in these ways: the host's issue raises the first of CommandWhileBusy,
IllegalCommand and NotReady that applies, with the word issued; or a step of TXSTR or RDLINE raises
MemRefused with an address MEM_OK does not admit. The fault is the event observed, SEQ stays, and memory
and the peripheral do not change (R90, R221, R222, R223, R225). -/
def Obligations.FaultsComeFromIssuesAndRefusedAccesses : Prop :=
  ∀ (s t : State) (r : Fault), step s = .next t → s.fault = none → t.fault = some r →
    (t.trace.head? = some (.fault r) ∧ t.seq = s.seq ∧ t.mem = s.mem ∧ t.per = s.per) ∧
    ((∃ w, s.turn = .host w ∧
        ((r = .commandWhileBusy w ∧ s.seq ≠ .idle) ∨
          (r = .illegalCommand w ∧ s.seq = .idle ∧ ∀ op : Op, op.selects w = false) ∨
          (r = .notReady w ∧ s.seq = .idle ∧ s.mode = .uninit ∧ ∃ op : Op, op ≠ .init ∧ op.selects w = true))) ∨
      (∃ a, r = .memRefused a ∧ s.turn = .engine ∧ s.cfg.admits a = false ∧
        ((∃ x, s.current = some (.txstr x)) ∨ ∃ x max, s.current = some (.rdline x max))))

/-- A step posts a completion exactly when it takes SEQ from RUN to IDLE, and then one: of the operation
that ran, with the result R92 gives it (R91, R92). -/
def Obligations.CompletionsArePostedWhenSeqReturnsToIdle : Prop :=
  ∀ s t : State, s.Inv → step s = .next t →
    (∀ op ph, s.seq = .run op ph → t.seq = .idle →
      s.turn = .engine ∧ s.fault = none ∧
      t.completions = s.completions ++ [(op,
        match op with
        | .rxchar => some (t.dp.ch.setWidth 32)
        | .decdec => some t.dp.acc
        | .dechex => some t.dp.acc
        | _ => none)]) ∧
    ((s.seq = .idle ∨ t.seq ≠ .idle) → t.completions = s.completions)

/-- Only INIT's last step changes MODE, to READY, and it completes INIT (R21, R130). -/
def Obligations.OnlyInitMakesTheEngineReady : Prop :=
  ∀ s t : State, step s = .next t → t.mode ≠ s.mode →
    s.mode = .uninit ∧ t.mode = .ready ∧ s.fault = none ∧ s.current = some .init ∧
    s.seq = .run .init (.init .wrAmsel) ∧ t.seq = .idle ∧ t.completions = s.completions ++ [(.init, none)]

/-- Data memory changes only in a step of RDLINE (R44, R62, R141); the launch parameters never change
(R131). -/
def Obligations.OnlyRdlineWritesDataMemory : Prop :=
  ∀ s t : State, step s = .next t →
    t.cfg = s.cfg ∧ (t.mem ≠ s.mem → s.fault = none ∧ ∃ a max, s.current = some (.rdline a max))

/-! ### Reset (R45, R240) -/

/-- Reset leaves MODE = UNINIT, SEQ = IDLE and FAULT = none (R45). -/
def Obligations.ResetLeavesTheEngineIdle : Prop :=
  State.reset.mode = .uninit ∧ State.reset.seq = .idle ∧ State.reset.fault = none

/-! ### Invariants -/

/-- Every step keeps the invariant `State.Inv`. -/
def Obligations.EveryStepKeepsTheInvariant : Prop :=
  ∀ s t : State, s.Inv → step s = .next t → t.Inv

/-- Every step keeps what INIT has configured (`State.Configured`; R133, R134, R241), in states that meet
the invariant. -/
def Obligations.EveryStepKeepsTheConfiguration : Prop :=
  ∀ s t : State, s.Inv → s.Configured → step s = .next t → t.Configured

/-- The launch state the model chose (notes/assumptions/1.md, 2.md, 5.md, 6.md and 7.md) is admitted, meets
every constraint on a configuration (R7, R40, R64, R71, R132; R71's on data memory as
notes/assumptions/17.md reads it) and every invariant: PR_GPIO zero wherever RCGC_GPIO is (R45), both FIFOs
within the depth (R42), nothing configured yet. -/
def Obligations.ResetMeetsTheInvariants : Prop :=
  State.reset.cfg.constrained = true ∧ State.reset.Inv ∧ State.reset.Configured ∧
  State.reset.TxConserved ∧ State.reset.RxConserved

/-- No character sent is lost, doubled or reordered on its way through TXQ, by any step but a write of INIT
that may flush a TXQ in which characters are waiting (R104, R111, R115, R121, R125). -/
def Obligations.SentCharactersReachTheTerminalInOrder : Prop :=
  ∀ s t : State, s.Inv → (s.flushing → s.per.txq = []) → step s = .next t → s.TxConserved → t.TxConserved

/-- No character that arrived is lost, doubled or reordered on its way through RXQ, by any step but a write
of INIT that may flush an RXQ in which characters are waiting (R103, R110, R113, R115, R120). -/
def Obligations.ArrivedCharactersAreReceivedInOrder : Prop :=
  ∀ s t : State, s.Inv → (s.flushing → s.per.rxq = []) → step s = .next t → s.RxConserved → t.RxConserved

/-- When RECV performs its DR read, RXQ is not empty: wherever a run that did not begin at a DR read comes
to one, whatever the other agents do, the read takes the head of RXQ (R110). -/
def Obligations.RecvAlwaysReadsACharacter : Prop :=
  ∀ (s t : State) (k : Nat) (op : Op),
    (∀ o, s.seq ≠ .run o .rxRead) → runs k s t → t.seq = .run op .rxRead →
    ∃ b rest, t.per.rxq = b :: rest ∧ t.recvRead.dp.ch = b ∧ t.recvRead.per.rxq = rest

/-- When SEND performs its DR write, TXQ is not full: wherever a run that did not begin at a DR write, with
TXQ within its depth (R42), comes to one, whatever the other agents do, the write appends the character
(R111). -/
def Obligations.SendNeverLosesACharacter : Prop :=
  ∀ (s t : State) (k : Nat) (op : Op),
    (∀ o, s.seq ≠ .run o .txWrite) → s.per.txq.length ≤ s.depth → runs k s t → t.seq = .run op .txWrite →
    t.txff = false ∧ t.sendWrite.per.txq = t.per.txq ++ [t.dp.ch]

/-- A step of a running RDLINE writes only addresses BUFA + i with i at most MAXL (R203). -/
def Obligations.RdlineWritesOnlyItsBuffer : Prop :=
  ∀ (s t : State) (a : Word) (max : Half), s.Inv → s.current = some (.rdline a max) → step s = .next t →
    ∀ x : Word, t.byteAt x ≠ s.byteAt x → ∃ k : Nat, k ≤ max.toNat ∧ x = a + BitVec.ofNat 32 k

/-! ### Memory (20_memory.md) -/

/-- `MemRead(addr, 1)`: at an admitted address it returns the byte stored there and changes nothing but
the observation; elsewhere it is refused (R66). -/
def Obligations.MemReadReturnsTheStoredByte : Prop :=
  ∀ (s : State) (a : Word),
    (s.cfg.admits a = true → s.memRead a = some (s.byteAt a, { s with trace := .memRd a (s.byteAt a) :: s.trace })) ∧
    (s.cfg.admits a = false → s.memRead a = none)

/-- `MemWrite(addr, 1, v)`: at an admitted address it stores v there and nowhere else, and keeps the
canonical form; elsewhere it is refused (R67). -/
def Obligations.MemWriteStoresOneByte : Prop :=
  ∀ (s : State) (a : Word) (v : Byte), Memory.wf s.mem = true →
    (s.cfg.admits a = true → ∃ t, s.memWrite a v = some t ∧ t.byteAt a = v ∧
      (∀ x : Word, x ≠ a → t.byteAt x = s.byteAt x) ∧ Memory.wf t.mem = true ∧
      t = { s with mem := t.mem, trace := .memWr a v :: s.trace }) ∧
    (s.cfg.admits a = false → s.memWrite a v = none)

/-! ### The register interface (40_register_interface.md) -/

/-- A read of DR with RXQ = b :: rest removes b and returns a word whose low byte is b; with RXQ empty it
changes no FIFO (R103). -/
def Obligations.ReadOfDrTakesTheHead : Prop :=
  ∀ s : State,
    (∀ b rest, s.per.rxq = b :: rest →
      ((s.busRead .dr).1).setWidth 8 = b ∧ (s.busRead .dr).2.per = { s.per with rxq := rest }) ∧
    (s.per.rxq = [] → (s.busRead .dr).2.per = s.per)

/-- A write of DR appends bits [7:0] to TXQ when TXQ is not full and is lost otherwise; nothing else
changes but the observation (R104). -/
def Obligations.WriteOfDrAppendsUnlessFull : Prop :=
  ∀ (s : State) (v : Word),
    (s.per.txq.length < s.depth → s.busWrite .dr v = { s with
      per := { s.per with txq := s.per.txq ++ [v.setWidth 8] }
      trace := .busWr (s.cfg.addr .dr) v :: s.trace }) ∧
    (¬ s.per.txq.length < s.depth → s.busWrite .dr v = { s with
      trace := .busWr (s.cfg.addr .dr) v :: s.trace })

/-- A read of FR returns a word whose bit 4 is 1 exactly when RXQ is empty and whose bit 5 is 1 exactly
when TXQ holds DEPTH characters; every other bit is that of a draw, a fresh one at each read; nothing else
changes but the observation (R105). That a draw is an opaque constant at a counter is the model's choice
(notes/assumptions/3.md). -/
def Obligations.ReadOfFrShowsTheFlags : Prop :=
  ∀ s : State,
    (((s.busRead .fr).1).getLsbD 4 = true ↔ s.per.rxq = []) ∧
    (((s.busRead .fr).1).getLsbD 5 = true ↔ s.per.txq.length = s.depth) ∧
    (∀ k, k ≠ 4 → k ≠ 5 → ((s.busRead .fr).1).getLsbD k = (Config.frDraw s.draws).getLsbD k) ∧
    (s.busRead .fr).2 = { s with
      draws := s.draws + 1
      trace := .busRd (s.cfg.addr .fr) (s.busRead .fr).1 :: s.trace }

/-- A storage register reads back what was written, masked to its implemented bits; a write of FR or
PR_GPIO has no effect; a write keeps or empties each FIFO if it is to LCRH or changes UARTEN, and leaves
them alone otherwise; no other register changes (R102, R106, R115). -/
def Obligations.StorageRegistersHoldTheirImplementedBits : Prop :=
  ∀ (s : State) (v : Word),
    let mask : Reg → Word := fun r =>
      match r with
      | .ibrd => 0x0000FFFF#32
      | .fbrd => 0x0000003F#32
      | .lcrh => 0x000000FF#32
      | _ => 0xFFFFFFFF#32
    (∀ r, r ≠ .dr → r ≠ .fr → r ≠ .prGpio → ((s.busWrite r v).busRead r).1 = v &&& mask r) ∧
    (∀ r r', r ≠ .dr → r' ≠ r → ¬ (r = .rcgcGpio ∧ r' = .prGpio) →
      (s.busWrite r v).per.stored r' = s.per.stored r') ∧
    (∀ r, r = .fr ∨ r = .prGpio → (s.busWrite r v).per = s.per) ∧
    (∀ r, r ≠ .dr →
      ((s.busWrite r v).per.rxq = s.per.rxq ∨ (s.busWrite r v).per.rxq = []) ∧
      ((s.busWrite r v).per.txq = s.per.txq ∨ (s.busWrite r v).per.txq = []) ∧
      (r ≠ .lcrh → (r = .ctl → v.getLsbD 0 = s.per.ctl.getLsbD 0) →
        (s.busWrite r v).per.rxq = s.per.rxq ∧ (s.busWrite r v).per.txq = s.per.txq))

/-- DEPTH is FIFO_DEPTH when LCRH[4] = FEN = 1 and 1 when FEN = 0, and no step makes it shrink (R116). -/
def Obligations.DepthFollowsFenAndNeverShrinks : Prop :=
  (∀ s : State,
    (s.per.lcrh.getLsbD 4 = true → s.depth = s.cfg.fifoDepth) ∧ (s.per.lcrh.getLsbD 4 = false → s.depth = 1)) ∧
  ∀ s t : State, step s = .next t → s.depth ≤ t.depth

/-- The thirteen register addresses of an admitted configuration are distinct and word-aligned (R61, R64,
R71), and where it meets every constraint, MEM_OK admits none of them: so R71's "none of them is a
data-memory address" is read (DEDUCED, notes/assumptions/17.md). -/
def Obligations.RegisterAddressesAreDistinct : Prop :=
  ∀ p : Params,
    (p.ok = true →
      (∀ r r' : Reg, p.addr r = p.addr r' → r = r') ∧ ∀ r : Reg, (p.addr r).toNat % 4 = 0) ∧
    (p.constrained = true → p.ok = true ∧ ∀ r : Reg, p.admits (p.addr r) = false)

/-- In an admitted configuration the divisor is 64 * BUS_CLK_HZ / (16 * BAUD) rounded to nearest, halves
up, its parts recombine to it, and the registers INIT writes hold them unmasked (R132). -/
def Obligations.DivisorsAreRoundedToNearest : Prop :=
  ∀ p : Params, p.ok = true →
    (p.rounding = .nearest →
      2 * p.baud * p.div64 ≤ 8 * p.busClkHz + p.baud ∧ 8 * p.busClkHz + p.baud < 2 * p.baud * (p.div64 + 1)) ∧
    (p.rounding = .truncate →
      p.baud * p.div64 ≤ 4 * p.busClkHz ∧ 4 * p.busClkHz < p.baud * (p.div64 + 1)) ∧
    p.ibrdVal * 64 + p.fbrdVal = p.div64 ∧ p.fbrdVal ≤ 63 ∧
    ((BitVec.ofNat 32 p.ibrdVal).setWidth 16).toNat = p.ibrdVal ∧
    ((BitVec.ofNat 32 p.fbrdVal).setWidth 6).toNat = p.fbrdVal

/-- The line environment's steps: what each does when it is enabled, and that it does nothing otherwise
(R120 to R123). That a scheduled step which is not enabled passes is the model's choice
(notes/assumptions/4.md). -/
def Obligations.LineEnvironmentStepsWhenEnabled : Prop :=
  ∀ s : State,
    (∀ b, s.per.ctl.getLsbD 0 = true → s.per.rxq.length < s.depth → s.lineStep (.rxArrive b) = { s with
      per := { s.per with rxq := s.per.rxq ++ [b] }
      trace := .rxIn b :: s.trace }) ∧
    (∀ b, ¬ (s.per.ctl.getLsbD 0 = true ∧ s.per.rxq.length < s.depth) → s.lineStep (.rxArrive b) = s) ∧
    (∀ b rest, s.per.ctl.getLsbD 0 = true → s.per.txq = b :: rest → s.lineStep .txDrain = { s with
      per := { s.per with txq := rest }
      trace := .txOut b :: s.trace }) ∧
    (¬ (s.per.ctl.getLsbD 0 = true ∧ s.per.txq ≠ []) → s.lineStep .txDrain = s) ∧
    (s.per.rcgcGpio.getLsbD s.cfg.gpioClkBit.val = true → s.per.prGpio.getLsbD s.cfg.gpioClkBit.val = false →
      ∃ pr : Word, s.lineStep .clkReady = { s with per := { s.per with prGpio := pr } } ∧
        ∀ k, k < 32 → pr.getLsbD k = (s.per.prGpio.getLsbD k || k == s.cfg.gpioClkBit.val)) ∧
    (¬ (s.per.rcgcGpio.getLsbD s.cfg.gpioClkBit.val = true ∧ s.per.prGpio.getLsbD s.cfg.gpioClkBit.val = false) →
      s.lineStep .clkReady = s)

/-! ### One step of each command, with its frame -/

/-- The polls: RECV's, in RXCHAR, DECDEC, DECHEX and RDLINE, and SEND's, in TXCHAR, TXSTR, the codecs and
RDLINE. Each is one read of FR; the engine goes on to the DR read exactly when RXQ is not empty, to the DR
write exactly when TXQ is not full, and polls again otherwise; nothing else changes (R107, R108, R109). -/
def Obligations.PollsReadFrUntilTheFlagClears : Prop :=
  ∀ (s : State) (i : Instr),
    let polled : Phase → State := fun ph => { s with
      seq := .run i.op ph
      draws := s.draws + 1
      trace := .busRd (s.cfg.addr .fr) s.frWord :: s.trace }
    ((i = .rxchar ∨ i = .decdec ∨ i = .dechex ∨ ∃ a max, i = .rdline a max) → s.seq = .run i.op .rxPoll →
      exec i s = .next (polled (if s.per.rxq = [] then .rxPoll else .rxRead))) ∧
    (((∃ c, i = .txchar c) ∨ (∃ a, i = .txstr a) ∨ i = .decdec ∨ (∃ n, i = .encdec n) ∨ i = .dechex ∨
        (∃ n, i = .enchex n) ∨ ∃ a max, i = .rdline a max) → s.seq = .run i.op .txPoll →
      exec i s = .next (polled (if s.per.txq.length = s.depth then .txPoll else .txWrite)))

/-- The first step of the receiving commands: DECDEC and DECHEX clear the accumulator, RDLINE takes its
operands and clears LEN, RXCHAR computes nothing; then each makes its first poll of FR (R136, R162, R181,
R201). -/
def Obligations.ReceivingCommandsStartWithAPoll : Prop :=
  ∀ s : State,
    let polled : Datapath → Op → State := fun r op => { s with
      dp := r
      seq := .run op (if s.per.rxq = [] then .rxPoll else .rxRead)
      draws := s.draws + 1
      trace := .busRd (s.cfg.addr .fr) s.frWord :: s.trace }
    (s.seq = .run .rxchar .start → exec .rxchar s = .next (polled s.dp .rxchar)) ∧
    (s.seq = .run .decdec .start → exec .decdec s = .next (polled { s.dp with acc := 0#32, cnt := 0#32 } .decdec)) ∧
    (s.seq = .run .dechex .start → exec .dechex s = .next (polled { s.dp with acc := 0#32, cnt := 0#32 } .dechex)) ∧
    (∀ a max, s.seq = .run .rdline .start →
      exec (.rdline a max) s = .next (polled { s.dp with bufa := a, maxl := max, len := 0#16 } .rdline))

/-- The last step of RXCHAR: one DR read takes the head b of RXQ, and `Done(RXCHAR, some b)` is posted
with bits [31:8] of the result zero, whatever the read's bits [31:8] were (R136, R137). -/
def Obligations.RxcharReturnsTheReceivedCharacter : Prop :=
  ∀ (s : State) (b : Byte) (rest : List Byte),
    s.seq = .run .rxchar .rxRead → s.per.rxq = b :: rest →
    ∃ v : Word, v.setWidth 8 = b ∧ exec .rxchar s = .next { s with
      seq := .idle
      dp := { s.dp with ch := b }
      per := { s.per with rxq := rest }
      draws := s.draws + 1
      trace := .done .rxchar (some (b.setWidth 32)) :: .busRd (s.cfg.addr .dr) v :: s.trace }

/-- TXCHAR's first step latches its operand and polls FR; its last writes `zext_32(CH)` to DR, appends CH
to TXQ and posts `Done(TXCHAR, none)` (R109, R138). -/
def Obligations.TxcharSendsItsOperand : Prop :=
  ∀ (s : State) (c : Byte),
    (s.seq = .run .txchar .start → exec (.txchar c) s = .next { s with
      seq := .run .txchar (if s.per.txq.length = s.depth then .txPoll else .txWrite)
      dp := { s.dp with ch := c }
      draws := s.draws + 1
      trace := .busRd (s.cfg.addr .fr) s.frWord :: s.trace }) ∧
    (s.seq = .run .txchar .txWrite → s.per.txq.length < s.depth → exec (.txchar c) s = .next { s with
      seq := .idle
      per := { s.per with txq := s.per.txq ++ [s.dp.ch] }
      trace := .done .txchar none :: .busWr (s.cfg.addr .dr) (s.dp.ch.setWidth 32) :: s.trace })

/-- TXSTR reads the byte at PTR (at its start, at its operand): the terminator completes it unsent,
another byte is latched to be sent, a refused address raises MemRefused and changes nothing else; after
the byte is written to DR, PTR moves on by one modulo 2^32 (R66, R68, R140). -/
def Obligations.TxstrReadsThenSends : Prop :=
  (∀ (s : State) (a p : Word) (ph : Phase),
    s.seq = .run .txstr ph → ((ph = .start ∧ p = a) ∨ (ph = .strRead ∧ p = s.dp.ptr)) →
    (s.cfg.admits p = true → s.byteAt p = 0x00#8 → exec (.txstr a) s = .next { s with
      seq := .idle
      dp := { s.dp with ptr := p }
      trace := .done .txstr none :: .memRd p 0x00#8 :: s.trace }) ∧
    (s.cfg.admits p = true → s.byteAt p ≠ 0x00#8 → exec (.txstr a) s = .next { s with
      seq := .run .txstr .txPoll
      dp := { s.dp with ptr := p, ch := s.byteAt p }
      trace := .memRd p (s.byteAt p) :: s.trace }) ∧
    (s.cfg.admits p = false → exec (.txstr a) s = .next { s with
      fault := some (.memRefused p)
      dp := { s.dp with ptr := p }
      trace := .fault (.memRefused p) :: s.trace })) ∧
  ∀ (s : State) (a : Word), s.seq = .run .txstr .txWrite → s.per.txq.length < s.depth →
    exec (.txstr a) s = .next { s with
      seq := .run .txstr .strRead
      dp := { s.dp with ptr := s.dp.ptr + 1#32 }
      per := { s.per with txq := s.per.txq ++ [s.dp.ch] }
      trace := .busWr (s.cfg.addr .dr) (s.dp.ch.setWidth 32) :: s.trace }

/-- DECDEC and DECHEX act on the head c of RXQ as the table of R163 says: CR completes with ACC; a digit
updates the accumulator by `ACC * B + d` and `CNT + 1` and is echoed as it came; a backspace with CNT not
0 divides by B, decrements CNT and is echoed; anything else does nothing (R160 to R163, R180 to R182) That the
read's upper bits are a draw of an opaque constant is notes/assumptions/3.md. -/
def Obligations.DecodersFollowTheirTable : Prop :=
  ∀ (s : State) (c : Byte) (rest : List Byte) (i : Instr) (base : Word) (digit : Byte → Option Word),
    (i = .decdec ∧ base = 10#32 ∧ digit = digit10) ∨ (i = .dechex ∧ base = 16#32 ∧ digit = digit16) →
    s.seq = .run i.op .rxRead → s.per.rxq = c :: rest →
    let read : Seq → Datapath → List Event → State := fun q r es => { s with
      seq := q
      dp := { r with ch := c }
      per := { s.per with rxq := rest }
      draws := s.draws + 1
      trace := es ++ .busRd (s.cfg.addr .dr) (Config.drUpperDraw s.draws ++ c) :: s.trace }
    (c = 0x0D#8 → exec i s = .next (read .idle s.dp [.done i.op (some s.dp.acc)])) ∧
    (∀ d, digit c = some d →
      exec i s = .next (read (.run i.op .txPoll) { s.dp with acc := s.dp.acc * base + d, cnt := s.dp.cnt + 1#32 } [])) ∧
    (c = 0x08#8 → s.dp.cnt ≠ 0#32 →
      exec i s = .next (read (.run i.op .txPoll) { s.dp with acc := s.dp.acc / base, cnt := s.dp.cnt - 1#32 } [])) ∧
    (c ≠ 0x0D#8 → digit c = none → (c ≠ 0x08#8 ∨ s.dp.cnt = 0#32) →
      exec i s = .next (read (.run i.op .rxPoll) s.dp []))

/-- The digit classes and their values are exactly those of R161 and R180, and neither class holds CR or
BS. -/
def Obligations.DigitClassesAreThoseOfTheSpec : Prop :=
  ∀ (c : Byte) (d : Word),
    (digit10 c = some d ↔ ∃ k : Nat, k ≤ 9 ∧ c = BitVec.ofNat 8 (0x30 + k) ∧ d = BitVec.ofNat 32 k) ∧
    (digit16 c = some d ↔
      (∃ k : Nat, k ≤ 9 ∧ c = BitVec.ofNat 8 (0x30 + k) ∧ d = BitVec.ofNat 32 k) ∨
      (∃ k : Nat, 10 ≤ k ∧ k ≤ 15 ∧ d = BitVec.ofNat 32 k ∧
        (c = BitVec.ofNat 8 (0x37 + k) ∨ c = BitVec.ofNat 8 (0x57 + k)))) ∧
    ((c = 0x0D#8 ∨ c = 0x08#8) → digit10 c = none ∧ digit16 c = none)

/-- The echo of DECDEC, DECHEX and RDLINE: the character is appended to TXQ and the command goes on
receiving (R109, R163, R182, R202). -/
def Obligations.EchoReturnsToReceiving : Prop :=
  ∀ (s : State) (i : Instr),
    (i = .decdec ∨ i = .dechex ∨ ∃ a max, i = .rdline a max) →
    s.seq = .run i.op .txWrite → s.per.txq.length < s.depth →
    exec i s = .next { s with
      seq := .run i.op .rxPoll
      per := { s.per with txq := s.per.txq ++ [s.dp.ch] }
      trace := .busWr (s.cfg.addr .dr) (s.dp.ch.setWidth 32) :: s.trace }

/-- The first step of ENCDEC and ENCHEX: the digit buffer receives the base-B digits of n, least
significant first and none of them a leading zero, the character of the most significant one is taken to
be sent, and FR is polled for the first time (R165, R184, R185). -/
def Obligations.EncodersStartWithTheirDigits : Prop :=
  ∀ (s : State) (n : Word) (i : Instr) (base : Nat) (char : Nibble → Byte),
    (i = .encdec n ∧ base = 10 ∧ char = decChar) ∨ (i = .enchex n ∧ base = 16 ∧ char = hexChar) →
    s.seq = .run i.op .start →
    ∃ (left : Nibble) (buf : Vector Nibble 10) (h : left.toNat < 10),
      exec i s = .next { s with
        seq := .run i.op (if s.per.txq.length = s.depth then .txPoll else .txWrite)
        dp := { s.dp with n := 0#32, dcnt := left, dbuf := buf, ch := char buf[left.toNat] }
        draws := s.draws + 1
        trace := .busRd (s.cfg.addr .fr) s.frWord :: s.trace } ∧
      n.toNat < base ^ (left.toNat + 1) ∧ (left = 0#4 ∨ base ^ left.toNat ≤ n.toNat) ∧
      ∀ k, (hk : k < 10) → k ≤ left.toNat → buf[k].toNat = n.toNat / base ^ k % base

/-- ENCDEC and ENCHEX after a character: with digits left the next one, `DBUF[DCNT - 1]`, is sent, and
with none left the command completes (R165, R184, R185). -/
def Obligations.EncodersSendDigitAfterDigit : Prop :=
  ∀ (s : State) (n : Word) (i : Instr) (char : Nibble → Byte),
    (i = .encdec n ∧ char = decChar) ∨ (i = .enchex n ∧ char = hexChar) →
    s.seq = .run i.op .txWrite → s.per.txq.length < s.depth →
    let wrote : Seq → Datapath → List Event → State := fun q r es => { s with
      seq := q
      dp := r
      per := { s.per with txq := s.per.txq ++ [s.dp.ch] }
      trace := es ++ .busWr (s.cfg.addr .dr) (s.dp.ch.setWidth 32) :: s.trace }
    (s.dp.dcnt = 0#4 → exec i s = .next (wrote .idle s.dp [.done i.op none])) ∧
    (∀ h : (s.dp.dcnt - 1#4).toNat < 10, s.dp.dcnt ≠ 0#4 →
      exec i s = .next (wrote (.run i.op .txPoll)
        { s.dp with dcnt := s.dp.dcnt - 1#4, ch := char s.dp.dbuf[(s.dp.dcnt - 1#4).toNat] } []))

/-- RDLINE acts on the head c of RXQ as the table of R202 says: CR leads to the terminator; a backspace
with LEN not 0 decrements LEN and is echoed, memory unchanged; any other byte with LEN below MAXL leads to
its store; a backspace at LEN = 0 and a byte at LEN = MAXL do nothing (R201, R202) That the read's upper
bits are a draw of an opaque constant is notes/assumptions/3.md. -/
def Obligations.RdlineFollowsItsTable : Prop :=
  ∀ (s : State) (a : Word) (max : Half) (c : Byte) (rest : List Byte),
    s.seq = .run .rdline .rxRead → s.per.rxq = c :: rest →
    let read : Phase → Half → State := fun ph len => { s with
      seq := .run .rdline ph
      dp := { s.dp with ch := c, len := len }
      per := { s.per with rxq := rest }
      draws := s.draws + 1
      trace := .busRd (s.cfg.addr .dr) (Config.drUpperDraw s.draws ++ c) :: s.trace }
    (c = 0x0D#8 → exec (.rdline a max) s = .next (read .lineTerm s.dp.len)) ∧
    (c = 0x08#8 → s.dp.len ≠ 0#16 → exec (.rdline a max) s = .next (read .txPoll (s.dp.len - 1#16))) ∧
    (c = 0x08#8 → s.dp.len = 0#16 → exec (.rdline a max) s = .next (read .rxPoll s.dp.len)) ∧
    (c ≠ 0x0D#8 → c ≠ 0x08#8 → s.dp.len < s.dp.maxl → exec (.rdline a max) s = .next (read .lineStore s.dp.len)) ∧
    (c ≠ 0x0D#8 → c ≠ 0x08#8 → ¬ s.dp.len < s.dp.maxl → exec (.rdline a max) s = .next (read .rxPoll s.dp.len))

/-- RDLINE stores CH at BUFA + LEN and increments LEN, and writes the terminator at BUFA + LEN and
completes; every other byte of memory reads as before. Where the address is refused, either raises
MemRefused and changes nothing else (R67, R68, R201). -/
def Obligations.RdlineStoresAtBufaPlusLen : Prop :=
  ∀ (s : State) (a x : Word) (max : Half),
    Memory.wf s.mem = true → x = s.dp.bufa + s.dp.len.setWidth 32 →
    (s.seq = .run .rdline .lineStore → s.cfg.admits x = true → ∃ m : List Host.Cell,
      exec (.rdline a max) s = .next { s with
        seq := .run .rdline .txPoll
        dp := { s.dp with len := s.dp.len + 1#16 }
        mem := m
        trace := .memWr x s.dp.ch :: s.trace } ∧
      Memory.read x.toNat m = s.dp.ch ∧ ∀ y, y ≠ x.toNat → Memory.read y m = Memory.read y s.mem) ∧
    (s.seq = .run .rdline .lineTerm → s.cfg.admits x = true → ∃ m : List Host.Cell,
      exec (.rdline a max) s = .next { s with
        seq := .idle
        mem := m
        trace := .done .rdline none :: .memWr x 0x00#8 :: s.trace } ∧
      Memory.read x.toNat m = 0x00#8 ∧ ∀ y, y ≠ x.toNat → Memory.read y m = Memory.read y s.mem) ∧
    ((s.seq = .run .rdline .lineStore ∨ s.seq = .run .rdline .lineTerm) → s.cfg.admits x = false →
      exec (.rdline a max) s = .next { s with
        fault := some (.memRefused x)
        trace := .fault (.memRefused x) :: s.trace })

/-- INIT makes the accesses of R133 one a step and in its order: each read leaves the register's value for
the write after it, each write stores what R133 says, and the writes of CTL and LCRH keep or empty each
FIFO, CTL only where UARTEN changes; the readiness poll reads PR_GPIO once and goes on exactly when its bit
GPIO_CLK_BIT reads 1, else it polls again; the last write clears the bits of PINS in AMSEL, and in the same
step MODE becomes READY and `Done(INIT, none)` is posted. Nothing else changes (R106, R115, R133, R246).
That the word the poll reads is the stored one masked by RCGC_GPIO is an inference from R41 and R106
(DEDUCED, notes/assumptions/12.md); that `v` is a register of the datapath is
notes/assumptions/10.md. -/
def Obligations.InitMakesItsAccessesInOrder : Prop :=
  ∀ s : State,
    let reads : Reg → InitPos → State := fun r q => { s with
      seq := .run .init (.init q)
      dp := { s.dp with v := s.per.stored r }
      trace := .busRd (s.cfg.addr r) (s.per.stored r) :: s.trace }
    let writes : Reg → Word → Periph → InitPos → State := fun r x per q => { s with
      seq := .run .init (.init q)
      per := per
      trace := .busWr (s.cfg.addr r) x :: s.trace }
    let v := s.dp.v
    (s.seq = .run .init .start → exec .init s = .next (reads .rcgcUart .wrRcgcUart)) ∧
    (∀ p r q,
      (p, r, q) ∈ [(InitPos.rdRcgcGpio, Reg.rcgcGpio, InitPos.wrRcgcGpio), (.rdCtlOff, .ctl, .wrCtlOff),
        (.rdCtlOn, .ctl, .wrCtlOn), (.rdAfsel, .afsel, .wrAfsel), (.rdDen, .den, .wrDen), (.rdPctl, .pctl, .wrPctl),
        (.rdAmsel, .amsel, .wrAmsel)] →
      s.seq = .run .init (.init p) → exec .init s = .next (reads r q)) ∧
    (∀ p r x per q,
      (p, r, x, per, q) ∈ [
        (InitPos.wrRcgcUart, Reg.rcgcUart, v ||| 1#32 <<< s.cfg.uartClkBit.val,
          { s.per with rcgcUart := v ||| 1#32 <<< s.cfg.uartClkBit.val }, InitPos.rdRcgcGpio),
        (.wrRcgcGpio, .rcgcGpio, v ||| 1#32 <<< s.cfg.gpioClkBit.val,
          { s.per with rcgcGpio := v ||| 1#32 <<< s.cfg.gpioClkBit.val }, .pollPr),
        (.wrIbrd, .ibrd, BitVec.ofNat 32 s.cfg.ibrdVal,
          { s.per with ibrd := BitVec.ofNat 16 s.cfg.ibrdVal }, .wrFbrd),
        (.wrFbrd, .fbrd, BitVec.ofNat 32 s.cfg.fbrdVal,
          { s.per with fbrd := BitVec.ofNat 6 s.cfg.fbrdVal }, .wrLcrh),
        (.wrAfsel, .afsel, v ||| s.cfg.pins, { s.per with afsel := v ||| s.cfg.pins }, .rdDen),
        (.wrDen, .den, v ||| s.cfg.pins, { s.per with den := v ||| s.cfg.pins }, .rdPctl),
        (.wrPctl, .pctl, (v &&& ~~~s.cfg.pctlMask) ||| s.cfg.pctlFunc,
          { s.per with pctl := (v &&& ~~~s.cfg.pctlMask) ||| s.cfg.pctlFunc }, .rdAmsel)] →
      s.seq = .run .init (.init p) → exec .init s = .next (writes r x per q)) ∧
    (∀ p r x per q,
      (p, r, x, per, q) ∈ [
        (InitPos.wrCtlOff, Reg.ctl, v &&& 0xFFFFFFFE#32, { s.per with ctl := v &&& 0xFFFFFFFE#32 }, InitPos.wrIbrd),
        (.wrLcrh, .lcrh, 0x00000070#32, { s.per with lcrh := 0x70#8 }, .rdCtlOn),
        (.wrCtlOn, .ctl, v ||| 0x00000001#32, { s.per with ctl := v ||| 0x00000001#32 }, .rdAfsel)] →
      s.seq = .run .init (.init p) →
      ∃ (rx tx : List Byte) (d : Nat),
        (rx = s.per.rxq ∨ rx = []) ∧ (tx = s.per.txq ∨ tx = []) ∧
        (r = .ctl → x.getLsbD 0 = s.per.ctl.getLsbD 0 → rx = s.per.rxq ∧ tx = s.per.txq) ∧
        exec .init s = .next { writes r x { per with rxq := rx, txq := tx } q with draws := d }) ∧
    (s.seq = .run .init (.init .pollPr) →
      ∃ x : Word, (∀ k, x.getLsbD k = (s.per.prGpio.getLsbD k && s.per.rcgcGpio.getLsbD k)) ∧
        exec .init s = .next { s with
          seq := .run .init (.init (if x.getLsbD s.cfg.gpioClkBit.val then .rdCtlOff else .pollPr))
          dp := { s.dp with v := x }
          trace := .busRd (s.cfg.addr .prGpio) x :: s.trace }) ∧
    (s.seq = .run .init (.init .wrAmsel) →
      exec .init s = .next { s with
        mode := .ready
        seq := .idle
        per := { s.per with amsel := v &&& ~~~s.cfg.pins }
        trace := .done .init none :: .busWr (s.cfg.addr .amsel) (v &&& ~~~s.cfg.pins) :: s.trace })

/-! ### Whole commands

"Whatever the schedule" in a docstring stands for the premise `State.unissued` and a run of any length: the
host issues nothing, and the turns of the engine and of the line environment stand in the agenda in any
order (notes/assumptions/4.md). "With no other agent moving" stands for an empty agenda, where the engine
takes every turn, which is the model's choice (notes/assumptions/4.md); such a clause says that the command
completes. -/

/-- INIT. Whatever the schedule: nothing is posted and MODE stays until INIT ends, and when it has ended
MODE is READY, `Done(INIT, none)` is posted and the registers hold the values of R133 and R241 with every
other bit kept; memory is unchanged and nothing faults. With no other agent moving and the pin clock ready
it ends after its twenty accesses, each FIFO kept or emptied (R115); with the pin clock made ready after
INIT's write of the gate, as in vector V-INIT-1, it ends as well (R122, R133, R134). -/
def Obligations.InitConfiguresThePeripheral : Prop :=
  ∀ s : State, s.unissued → s.started .init →
    (∀ k t, runs k s t →
      t.fault = none ∧ t.mem = s.mem ∧
      (t.seq ≠ .idle → t.mode = s.mode ∧ t.completions = s.completions) ∧
      (t.seq = .idle →
        t.mode = .ready ∧ t.completions = s.completions ++ [(.init, none)] ∧
        t.per.ibrd.toNat = s.cfg.ibrdVal ∧ t.per.fbrd.toNat = s.cfg.fbrdVal ∧ t.per.lcrh = 0x70#8 ∧
        t.per.ctl = s.per.ctl ||| 1#32 ∧
        t.per.rcgcUart = s.per.rcgcUart ||| (1#32 <<< s.cfg.uartClkBit.val) ∧
        t.per.rcgcGpio = s.per.rcgcGpio ||| (1#32 <<< s.cfg.gpioClkBit.val) ∧
        t.per.prGpio = s.per.prGpio ||| (1#32 <<< s.cfg.gpioClkBit.val) ∧
        t.per.afsel = s.per.afsel ||| s.cfg.pins ∧ t.per.den = s.per.den ||| s.cfg.pins ∧
        t.per.pctl = (s.per.pctl &&& ~~~s.cfg.pctlMask) ||| s.cfg.pctlFunc ∧
        t.per.amsel = s.per.amsel &&& ~~~s.cfg.pins)) ∧
    (s.agenda = [] → s.per.prGpio.getLsbD s.cfg.gpioClkBit.val = true →
      ∃ t, runs 20 s t ∧ t.seq = .idle ∧
        (t.per.rxq = s.per.rxq ∨ t.per.rxq = []) ∧ (t.per.txq = s.per.txq ∨ t.per.txq = [])) ∧
    (s.agenda = [.engine, .engine, .engine, .engine, .line .clkReady] →
      s.per.prGpio.getLsbD s.cfg.gpioClkBit.val = false → ∃ t, runs 21 s t ∧ t.seq = .idle)

/-- RXCHAR. Whatever the schedule: nothing is received, sent or posted until it ends, and when it has ended
it has received one character b and posted `Done(RXCHAR, some b)`; nothing faults. With no other agent
moving and b waiting it ends after two accesses (R136, R137). -/
def Obligations.RxcharCompletesWithACharacterWaiting : Prop :=
  ∀ s : State, s.unissued → s.started .rxchar →
    (∀ k t, runs k s t →
      t.fault = none ∧ t.mode = s.mode ∧ t.mem = s.mem ∧ t.sent = s.sent ∧
      (t.seq ≠ .idle → t.received = s.received ∧ t.completions = s.completions) ∧
      (t.seq = .idle → ∃ b : Byte, t.received = s.received ++ [b] ∧
        t.completions = s.completions ++ [(.rxchar, some (b.setWidth 32))])) ∧
    (∀ b rest, s.agenda = [] → s.per.rxq = b :: rest →
      ∃ t, runs 2 s t ∧ t.seq = .idle ∧ t.per = { s.per with rxq := rest } ∧
        t.completions = s.completions ++ [(.rxchar, some (b.setWidth 32))])

/-- TXCHAR. Whatever the schedule: nothing is sent or posted until it ends, and when it has ended it has
sent its operand and posted `Done(TXCHAR, none)`; nothing faults. With no other agent moving and room in
TXQ it ends after two accesses (R138). -/
def Obligations.TxcharCompletesWithRoom : Prop :=
  ∀ (s : State) (c : Byte), s.unissued → s.started (.txchar c) →
    (∀ k t, runs k s t →
      t.fault = none ∧ t.mode = s.mode ∧ t.mem = s.mem ∧ t.received = s.received ∧
      (t.seq ≠ .idle → t.sent = s.sent ∧ t.completions = s.completions) ∧
      (t.seq = .idle → t.sent = s.sent ++ [c] ∧ t.completions = s.completions ++ [(.txchar, none)])) ∧
    (s.agenda = [] → s.per.txq.length < s.depth →
      ∃ t, runs 2 s t ∧ t.seq = .idle ∧ t.per = { s.per with txq := s.per.txq ++ [c] })

/-- TXSTR, over a string and its terminator at admitted addresses, wherever they lie modulo 2^32. Whatever
the schedule and however long the string: what it has sent is a prefix of the string, and when it has ended
it has sent exactly the characters before the first zero byte and posted `Done(TXSTR, none)`; it receives
nothing, writes no memory, and nothing faults. With no other agent moving and room in TXQ it ends (R68,
R140, R141). -/
def Obligations.TxstrSendsTheString : Prop :=
  ∀ (s : State) (a : Word) (str : List Byte),
    s.unissued → s.started (.txstr a) → (∀ c ∈ str, c ≠ 0x00#8) →
    (∀ k, k ≤ str.length → s.cfg.admits (a + BitVec.ofNat 32 k) = true) →
    (∀ k, (h : k < str.length) → s.byteAt (a + BitVec.ofNat 32 k) = str[k]) →
    s.byteAt (a + BitVec.ofNat 32 str.length) = 0x00#8 →
    (∀ k t, runs k s t →
      t.fault = none ∧ t.mode = s.mode ∧ t.mem = s.mem ∧ t.received = s.received ∧
      (t.seq ≠ .idle → (∃ m, t.sent = s.sent ++ str.take m) ∧ t.completions = s.completions) ∧
      (t.seq = .idle → t.sent = s.sent ++ str ∧ t.completions = s.completions ++ [(.txstr, none)])) ∧
    (s.agenda = [] → s.per.txq.length + str.length ≤ s.depth →
      ∃ k t, runs k s t ∧ t.seq = .idle ∧ t.per = { s.per with txq := s.per.txq ++ str })

/-- DECDEC and DECHEX. Whatever the schedule: of the characters received, none before the last is CR; what
they make of the accumulator and the echo is what the source's accumulator makes, and the last echo may
still be on its way; when CR has come the command has ended with the accumulator's value, and has echoed
exactly the accepted characters; nothing faults. With no other agent moving, a line ended by CR waiting and
room for its echo, it ends and leaves the characters after the CR in RXQ (R160, R162, R164, R181, R183). -/
def Obligations.DecodersRefineTheAccumulator : Prop :=
  ∀ (s : State) (i : Instr) (base : Word) (digit : Byte → Option Word),
    (i = .decdec ∧ base = 10#32 ∧ digit = digit10) ∨ (i = .dechex ∧ base = 16#32 ∧ digit = digit16) →
    s.unissued → s.started i →
    (∀ k t, runs k s t →
      t.fault = none ∧ t.mode = s.mode ∧ t.mem = s.mem ∧
      ∃ cs : List Byte, 0x0D#8 ∉ cs ∧
        let line := codecLine base digit cs
        (t.seq ≠ .idle → t.received = s.received ++ cs ∧ t.completions = s.completions ∧
          (t.sent = s.sent ++ line.2.2 ∨ t.sent = s.sent ++ line.2.2.dropLast)) ∧
        (t.seq = .idle → t.received = s.received ++ cs ++ [0x0D#8] ∧ t.sent = s.sent ++ line.2.2 ∧
          t.completions = s.completions ++ [(i.op, some line.1)])) ∧
    (∀ cs rest : List Byte, s.agenda = [] → 0x0D#8 ∉ cs → s.per.rxq = cs ++ 0x0D#8 :: rest →
      s.per.txq.length + cs.length ≤ s.depth →
      ∃ k t, runs k s t ∧ t.seq = .idle ∧
        t.per = { s.per with rxq := rest, txq := s.per.txq ++ (codecLine base digit cs).2.2 })

/-- ENCDEC and ENCHEX. Whatever the schedule: what has been sent is a prefix of what the source's recursive
emitter sends, and when the command has ended it is all of it: the iterative and the recursive form agree;
nothing is received and nothing faults. With no other agent moving and room in TXQ it ends (R165, R166,
R185). -/
def Obligations.EncodersAgreeWithTheRecursiveEmitter : Prop :=
  ∀ (s : State) (n : Word) (i : Instr) (chars : List Byte),
    (i = .encdec n ∧ chars = decimalChars n) ∨ (i = .enchex n ∧ chars = hexChars n) →
    s.unissued → s.started i →
    (∀ k t, runs k s t →
      t.fault = none ∧ t.mode = s.mode ∧ t.mem = s.mem ∧ t.received = s.received ∧
      (t.seq ≠ .idle → (∃ m, t.sent = s.sent ++ chars.take m) ∧ t.completions = s.completions) ∧
      (t.seq = .idle → t.sent = s.sent ++ chars ∧ t.completions = s.completions ++ [(i.op, none)])) ∧
    (s.agenda = [] → s.per.txq.length + chars.length ≤ s.depth →
      ∃ k t, runs k s t ∧ t.seq = .idle ∧ t.per = { s.per with txq := s.per.txq ++ chars })

/-- The round-trip laws (R167 (a), R186 (a)), over runs: whatever the schedules, let ENCDEC (ENCHEX) of n
have ended and sent some characters; a DECDEC (DECHEX) that has ended after receiving these characters and
CR has returned n and echoed them all. With no other agent moving, these characters and CR waiting and room
for the echo, it ends and returns n. -/
def Obligations.DecodingUndoesEncoding : Prop :=
  ∀ (s t : State) (k : Nat) (n : Word) (enc dec : Instr) (chars : List Byte),
    (enc = .encdec n ∧ dec = .decdec) ∨ (enc = .enchex n ∧ dec = .dechex) →
    s.unissued → s.started enc → runs k s t → t.seq = .idle → t.sent = s.sent ++ chars →
    ∀ u : State, u.unissued → u.started dec →
      (∀ j v, runs j u v → v.seq = .idle → v.received = u.received ++ chars ++ [0x0D#8] →
        v.sent = u.sent ++ chars ∧ v.completions = u.completions ++ [(dec.op, some n)]) ∧
      (∀ rest, u.agenda = [] → u.per.rxq = chars ++ 0x0D#8 :: rest → u.per.txq.length + chars.length ≤ u.depth →
        ∃ j v, runs j u v ∧ v.seq = .idle ∧ v.completions = u.completions ++ [(dec.op, some n)] ∧
          v.per = { u.per with rxq := rest, txq := u.per.txq ++ chars })

/-- The length and first-digit laws (R8, R167 (b), R186 (b)), over runs: whatever the schedule, when ENCDEC
or ENCHEX of n has ended, it has sent as many characters as n has digits in its base, at most 10 and 8, the
first of them not '0' unless n = 0, when it is "0", and all of them digits, hexadecimal ones uppercase. -/
def Obligations.EncodingsHaveNoLeadingZero : Prop :=
  ∀ (s t : State) (k : Nat) (n : Word) (i : Instr) (base limit : Nat),
    (i = .encdec n ∧ base = 10 ∧ limit = 10) ∨ (i = .enchex n ∧ base = 16 ∧ limit = 8) →
    s.unissued → s.started i → runs k s t → t.seq = .idle →
    ∃ chars : List Byte, t.sent = s.sent ++ chars ∧ chars.length ≤ limit ∧
      (n = 0#32 → chars = [0x30#8]) ∧
      (n ≠ 0#32 → chars.length = (Nat.digits base n.toNat).length ∧ chars.head? ≠ some 0x30#8) ∧
      ∀ c ∈ chars, (0x30#8 ≤ c ∧ c ≤ 0x39#8) ∨ (base = 16 ∧ 0x41#8 ≤ c ∧ c ≤ 0x46#8)

/-- RDLINE, with MAXL + 1 admitted bytes at its buffer. Whatever the schedule: of the characters received,
none before the last is CR; what they make of the line and the echo is what the line editor makes, and the
last echo may still be on its way; no byte outside the buffer changes; when the command has ended, the
edited line and a zero byte stand in the buffer and exactly the accepted characters have been echoed;
nothing faults. With no other agent moving, a line ended by CR waiting and room for its echo, it ends and
leaves the characters after the CR in RXQ (R200 to R205). -/
def Obligations.RdlineRefinesTheLineEditor : Prop :=
  ∀ (s : State) (a : Word) (max : Half),
    s.unissued → s.started (.rdline a max) → Memory.wf s.mem = true →
    (∀ k, k ≤ max.toNat → s.cfg.admits (a + BitVec.ofNat 32 k) = true) →
    (∀ k t, runs k s t →
      t.fault = none ∧ t.mode = s.mode ∧
      (∀ x : Word, (∀ k, k ≤ max.toNat → x ≠ a + BitVec.ofNat 32 k) → t.byteAt x = s.byteAt x) ∧
      ∃ cs : List Byte, 0x0D#8 ∉ cs ∧
        let line := editLine max.toNat cs
        line.1.length ≤ max.toNat ∧
        (t.seq ≠ .idle → t.completions = s.completions ∧
          (t.received = s.received ++ cs ∨ t.received = s.received ++ cs ++ [0x0D#8]) ∧
          (t.sent = s.sent ++ line.2 ∨ t.sent = s.sent ++ line.2.dropLast)) ∧
        (t.seq = .idle → t.completions = s.completions ++ [(.rdline, none)] ∧
          t.received = s.received ++ cs ++ [0x0D#8] ∧ t.sent = s.sent ++ line.2 ∧
          (∀ k, (h : k < line.1.length) → t.byteAt (a + BitVec.ofNat 32 k) = line.1[k]) ∧
          t.byteAt (a + BitVec.ofNat 32 line.1.length) = 0x00#8)) ∧
    (∀ cs rest : List Byte, s.agenda = [] → 0x0D#8 ∉ cs → s.per.rxq = cs ++ 0x0D#8 :: rest →
      s.per.txq.length + cs.length ≤ s.depth →
      ∃ k t, runs k s t ∧ t.seq = .idle ∧
        t.per = { s.per with rxq := rest, txq := s.per.txq ++ (editLine max.toNat cs).2 })

/-- Where the line environment never moves (`State.alone`: an empty agenda, notes/assumptions/4.md), a RECV
with RXQ empty and a SEND with TXQ full poll forever: after any number of steps the engine is at the same
poll, nothing has moved, no fault is raised and no completion posted (R108, R109, R114, R246). -/
def Obligations.PollsHangWithoutTheLineEnvironment : Prop :=
  ∀ (s : State) (i : Instr) (ph : Phase), s.alone → decode s.cmd = .ok i → s.seq = .run i.op ph →
    (i.op.receives = true ∧ ph = .rxPoll ∧ s.per.rxq = []) ∨
      (i.op.sends = true ∧ ph = .txPoll ∧ s.per.txq.length = s.depth) →
    ∀ k, ∃ t, runs k s t ∧ t.seq = s.seq ∧ t.fault = none ∧ t.dp = s.dp ∧ t.per = s.per ∧ t.mem = s.mem ∧
      t.completions = s.completions ∧ t.trace.length = s.trace.length + k

/-- A command hangs only for want of the line environment, or as an endless TXSTR (`State.endless`): wherever
any other command stands, in a state that meets the invariants, the line environment can take turns
(arrivals, drains, clock readiness) among the engine's under which the command completes, or meets an
address MEM_OK refuses (R124, R246, R249). That the turns are given as an agenda is
notes/assumptions/4.md. -/
def Obligations.EveryCommandButAnEndlessTxstrCanEnd : Prop :=
  ∀ (s : State) (op : Op) (ph : Phase),
    s.Inv → s.Configured → s.cfg.ok = true → s.fault = none → s.seq = .run op ph → ¬ s.endless →
    ∃ turns : List Turn, (∀ x ∈ turns, x.isIssue = false) ∧
      ∃ t, runs turns.length { s with agenda := turns } t ∧ (t.seq = .idle ∨ ∃ a, t.fault = some (.memRefused a))

/-- A TXSTR with every address admitted and no 0x00 byte in memory hangs (R140 (d), R246 (4), R249):
whatever the schedule it never completes and meets no refused address, and without an issue nothing faults;
it does not stand still either: with the UART enabled the line environment can take turns among the engine's
under which it sends as many characters as one likes. That the turns are given as an agenda is
notes/assumptions/4.md. -/
def Obligations.TxstrWithoutATerminatorHangs : Prop :=
  ∀ s : State, s.cfg.ok = true → s.endless →
    (∀ k t, runs k s t →
      t.seq ≠ .idle ∧ t.completions = s.completions ∧ (∀ a, t.fault ≠ some (.memRefused a)) ∧
      (s.unissued → t.fault = none)) ∧
    (s.per.uarten = true → ∀ m : Nat,
      ∃ turns : List Turn, (∀ x ∈ turns, x.isIssue = false) ∧
        ∃ t, runs turns.length { s with agenda := turns } t ∧ s.sent.length + m ≤ t.sent.length)

/-- A backspace undoes a digit exactly where the digit did not wrap the accumulator (R164 (d), R183
(d)). -/
def Obligations.UndoRestoresUnlessWrapped : Prop :=
  ∀ (r : Datapath) (base d : Word), (base = 10#32 ∨ base = 16#32) → d < base →
    ((((r.append base d).undo base).acc = r.acc) ↔ r.acc.toNat * base.toNat + d.toNat < 2 ^ 32) ∧
    ((r.append base d).undo base).cnt = r.cnt
end

