-- ==== Sys2Proof/Laws/State.lean ====
section
/-! SUPPORT. One lemma per field of State for each named update of it, so that no proof unfolds a record
update. -/

namespace Sys2Proof.Machine

variable (s : State)

/-! ### `State.record` -/

@[simp] theorem State.record_mode (e : Event) : (s.record e).mode = s.mode := rfl
@[simp] theorem State.record_seq (e : Event) : (s.record e).seq = s.seq := rfl
@[simp] theorem State.record_fault (e : Event) : (s.record e).fault = s.fault := rfl
@[simp] theorem State.record_cmd (e : Event) : (s.record e).cmd = s.cmd := rfl
@[simp] theorem State.record_dp (e : Event) : (s.record e).dp = s.dp := rfl
@[simp] theorem State.record_per (e : Event) : (s.record e).per = s.per := rfl
@[simp] theorem State.record_mem (e : Event) : (s.record e).mem = s.mem := rfl
@[simp] theorem State.record_cfg (e : Event) : (s.record e).cfg = s.cfg := rfl
@[simp] theorem State.record_agenda (e : Event) : (s.record e).agenda = s.agenda := rfl
@[simp] theorem State.record_draws (e : Event) : (s.record e).draws = s.draws := rfl
@[simp] theorem State.record_trace (e : Event) : (s.record e).trace = e :: s.trace := rfl

/-! ### `State.goto` -/

@[simp] theorem State.goto_mode (op : Op) (ph : Phase) : (s.goto op ph).mode = s.mode := rfl
@[simp] theorem State.goto_seq (op : Op) (ph : Phase) : (s.goto op ph).seq = .run op ph := rfl
@[simp] theorem State.goto_fault (op : Op) (ph : Phase) : (s.goto op ph).fault = s.fault := rfl
@[simp] theorem State.goto_cmd (op : Op) (ph : Phase) : (s.goto op ph).cmd = s.cmd := rfl
@[simp] theorem State.goto_dp (op : Op) (ph : Phase) : (s.goto op ph).dp = s.dp := rfl
@[simp] theorem State.goto_per (op : Op) (ph : Phase) : (s.goto op ph).per = s.per := rfl
@[simp] theorem State.goto_mem (op : Op) (ph : Phase) : (s.goto op ph).mem = s.mem := rfl
@[simp] theorem State.goto_cfg (op : Op) (ph : Phase) : (s.goto op ph).cfg = s.cfg := rfl
@[simp] theorem State.goto_agenda (op : Op) (ph : Phase) : (s.goto op ph).agenda = s.agenda := rfl
@[simp] theorem State.goto_draws (op : Op) (ph : Phase) : (s.goto op ph).draws = s.draws := rfl
@[simp] theorem State.goto_trace (op : Op) (ph : Phase) : (s.goto op ph).trace = s.trace := rfl

/-! ### `State.raise` -/

@[simp] theorem State.raise_mode (r : Fault) : (s.raise r).mode = s.mode := rfl
@[simp] theorem State.raise_seq (r : Fault) : (s.raise r).seq = s.seq := rfl
@[simp] theorem State.raise_fault (r : Fault) : (s.raise r).fault = some r := rfl
@[simp] theorem State.raise_cmd (r : Fault) : (s.raise r).cmd = s.cmd := rfl
@[simp] theorem State.raise_dp (r : Fault) : (s.raise r).dp = s.dp := rfl
@[simp] theorem State.raise_per (r : Fault) : (s.raise r).per = s.per := rfl
@[simp] theorem State.raise_mem (r : Fault) : (s.raise r).mem = s.mem := rfl
@[simp] theorem State.raise_cfg (r : Fault) : (s.raise r).cfg = s.cfg := rfl
@[simp] theorem State.raise_agenda (r : Fault) : (s.raise r).agenda = s.agenda := rfl
@[simp] theorem State.raise_draws (r : Fault) : (s.raise r).draws = s.draws := rfl
@[simp] theorem State.raise_trace (r : Fault) : (s.raise r).trace = .fault r :: s.trace := rfl

/-! ### `State.complete` -/

@[simp] theorem State.complete_mode (op : Op) (res : Option Word) : (s.complete op res).mode = s.mode := rfl
@[simp] theorem State.complete_seq (op : Op) (res : Option Word) : (s.complete op res).seq = .idle := rfl
@[simp] theorem State.complete_fault (op : Op) (res : Option Word) : (s.complete op res).fault = s.fault := rfl
@[simp] theorem State.complete_cmd (op : Op) (res : Option Word) : (s.complete op res).cmd = s.cmd := rfl
@[simp] theorem State.complete_dp (op : Op) (res : Option Word) : (s.complete op res).dp = s.dp := rfl
@[simp] theorem State.complete_per (op : Op) (res : Option Word) : (s.complete op res).per = s.per := rfl
@[simp] theorem State.complete_mem (op : Op) (res : Option Word) : (s.complete op res).mem = s.mem := rfl
@[simp] theorem State.complete_cfg (op : Op) (res : Option Word) : (s.complete op res).cfg = s.cfg := rfl
@[simp] theorem State.complete_agenda (op : Op) (res : Option Word) : (s.complete op res).agenda = s.agenda := rfl
@[simp] theorem State.complete_draws (op : Op) (res : Option Word) : (s.complete op res).draws = s.draws := rfl
@[simp] theorem State.complete_trace (op : Op) (res : Option Word) : (s.complete op res).trace = .done op res :: s.trace := rfl

/-! ### `State.tick` -/

@[simp] theorem State.tick_mode : (s.tick).mode = s.mode := rfl
@[simp] theorem State.tick_seq : (s.tick).seq = s.seq := rfl
@[simp] theorem State.tick_fault : (s.tick).fault = s.fault := rfl
@[simp] theorem State.tick_cmd : (s.tick).cmd = s.cmd := rfl
@[simp] theorem State.tick_dp : (s.tick).dp = s.dp := rfl
@[simp] theorem State.tick_per : (s.tick).per = s.per := rfl
@[simp] theorem State.tick_mem : (s.tick).mem = s.mem := rfl
@[simp] theorem State.tick_cfg : (s.tick).cfg = s.cfg := rfl
@[simp] theorem State.tick_agenda : (s.tick).agenda = s.agenda := rfl
@[simp] theorem State.tick_draws : (s.tick).draws = s.draws + 1 := rfl
@[simp] theorem State.tick_trace : (s.tick).trace = s.trace := rfl

/-! ### `State.setCh` -/

@[simp] theorem State.setCh_mode (c : Byte) : (s.setCh c).mode = s.mode := rfl
@[simp] theorem State.setCh_seq (c : Byte) : (s.setCh c).seq = s.seq := rfl
@[simp] theorem State.setCh_fault (c : Byte) : (s.setCh c).fault = s.fault := rfl
@[simp] theorem State.setCh_cmd (c : Byte) : (s.setCh c).cmd = s.cmd := rfl
@[simp] theorem State.setCh_dp (c : Byte) : (s.setCh c).dp = { s.dp with ch := c } := rfl
@[simp] theorem State.setCh_per (c : Byte) : (s.setCh c).per = s.per := rfl
@[simp] theorem State.setCh_mem (c : Byte) : (s.setCh c).mem = s.mem := rfl
@[simp] theorem State.setCh_cfg (c : Byte) : (s.setCh c).cfg = s.cfg := rfl
@[simp] theorem State.setCh_agenda (c : Byte) : (s.setCh c).agenda = s.agenda := rfl
@[simp] theorem State.setCh_draws (c : Byte) : (s.setCh c).draws = s.draws := rfl
@[simp] theorem State.setCh_trace (c : Byte) : (s.setCh c).trace = s.trace := rfl

/-! ### `State.takeTurn` -/

@[simp] theorem State.takeTurn_mode : (s.takeTurn).mode = s.mode := rfl
@[simp] theorem State.takeTurn_seq : (s.takeTurn).seq = s.seq := rfl
@[simp] theorem State.takeTurn_fault : (s.takeTurn).fault = s.fault := rfl
@[simp] theorem State.takeTurn_cmd : (s.takeTurn).cmd = s.cmd := rfl
@[simp] theorem State.takeTurn_dp : (s.takeTurn).dp = s.dp := rfl
@[simp] theorem State.takeTurn_per : (s.takeTurn).per = s.per := rfl
@[simp] theorem State.takeTurn_mem : (s.takeTurn).mem = s.mem := rfl
@[simp] theorem State.takeTurn_cfg : (s.takeTurn).cfg = s.cfg := rfl
@[simp] theorem State.takeTurn_agenda : (s.takeTurn).agenda = s.agenda.tail := rfl
@[simp] theorem State.takeTurn_draws : (s.takeTurn).draws = s.draws := rfl
@[simp] theorem State.takeTurn_trace : (s.takeTurn).trace = s.trace := rfl

/-! ### Derived readings that the updates leave alone -/

@[simp] theorem State.record_depth (e : Event) : (s.record e).depth = s.depth := rfl
@[simp] theorem State.record_rxfe (e : Event) : (s.record e).rxfe = s.rxfe := rfl
@[simp] theorem State.record_txff (e : Event) : (s.record e).txff = s.txff := rfl
@[simp] theorem State.record_frWord (e : Event) : (s.record e).frWord = s.frWord := rfl
@[simp] theorem State.goto_depth (op : Op) (ph : Phase) : (s.goto op ph).depth = s.depth := rfl
@[simp] theorem State.goto_rxfe (op : Op) (ph : Phase) : (s.goto op ph).rxfe = s.rxfe := rfl
@[simp] theorem State.goto_txff (op : Op) (ph : Phase) : (s.goto op ph).txff = s.txff := rfl
@[simp] theorem State.goto_frWord (op : Op) (ph : Phase) : (s.goto op ph).frWord = s.frWord := rfl
@[simp] theorem State.raise_depth (r : Fault) : (s.raise r).depth = s.depth := rfl
@[simp] theorem State.raise_rxfe (r : Fault) : (s.raise r).rxfe = s.rxfe := rfl
@[simp] theorem State.raise_txff (r : Fault) : (s.raise r).txff = s.txff := rfl
@[simp] theorem State.raise_frWord (r : Fault) : (s.raise r).frWord = s.frWord := rfl
@[simp] theorem State.complete_depth (op : Op) (res : Option Word) : (s.complete op res).depth = s.depth := rfl
@[simp] theorem State.complete_rxfe (op : Op) (res : Option Word) : (s.complete op res).rxfe = s.rxfe := rfl
@[simp] theorem State.complete_txff (op : Op) (res : Option Word) : (s.complete op res).txff = s.txff := rfl
@[simp] theorem State.complete_frWord (op : Op) (res : Option Word) : (s.complete op res).frWord = s.frWord := rfl
@[simp] theorem State.tick_depth : (s.tick).depth = s.depth := rfl
@[simp] theorem State.tick_rxfe : (s.tick).rxfe = s.rxfe := rfl
@[simp] theorem State.tick_txff : (s.tick).txff = s.txff := rfl
@[simp] theorem State.setCh_depth (c : Byte) : (s.setCh c).depth = s.depth := rfl
@[simp] theorem State.setCh_rxfe (c : Byte) : (s.setCh c).rxfe = s.rxfe := rfl
@[simp] theorem State.setCh_txff (c : Byte) : (s.setCh c).txff = s.txff := rfl
@[simp] theorem State.setCh_frWord (c : Byte) : (s.setCh c).frWord = s.frWord := rfl
@[simp] theorem State.takeTurn_depth : (s.takeTurn).depth = s.depth := rfl
@[simp] theorem State.takeTurn_rxfe : (s.takeTurn).rxfe = s.rxfe := rfl
@[simp] theorem State.takeTurn_txff : (s.takeTurn).txff = s.txff := rfl
@[simp] theorem State.takeTurn_frWord : (s.takeTurn).frWord = s.frWord := rfl

end Sys2Proof.Machine
end

