-- ==== Sys2Proof/Laws/Memory.lean ====
section
/-! SUPPORT. The laws of data memory (spec/20_memory.md R62, R66, R67): a read after a write, the
canonical form, and that equal contents are equal lists. -/

namespace Sys2Proof.Machine

/-- What the canonical form of a non-empty memory says. -/
theorem Memory.wfFrom_cons {lo k : Nat} {b : Byte} {rest : Memory} :
    wfFrom lo ((k, b) :: rest) = true ↔ lo ≤ k ∧ k < 2 ^ 32 ∧ b ≠ launchByte ∧ wfFrom (k + 1) rest = true := by
  simp [wfFrom, and_assoc]

theorem Memory.wfFrom_mono {lo lo' : Nat} (h : lo' ≤ lo) {m : Memory} (hm : wfFrom lo m = true) :
    wfFrom lo' m = true := by
  cases m with
  | nil => rfl
  | cons c rest =>
    obtain ⟨k, b⟩ := c
    rw [wfFrom_cons] at hm ⊢
    exact ⟨h.trans hm.1, hm.2⟩

/-- Below its first address a memory in canonical form holds what unlisted addresses hold. -/
theorem Memory.read_of_lt {lo a : Nat} {m : Memory} (hm : wfFrom lo m = true) (ha : a < lo) :
    read a m = launchByte := by
  induction m generalizing lo with
  | nil => rfl
  | cons c rest ih =>
    obtain ⟨k, b⟩ := c
    rw [wfFrom_cons] at hm
    have hne : a ≠ k := by omega
    rw [read, if_neg hne]
    exact ih hm.2.2.2 (by omega)

theorem Memory.read_erase_same {lo a : Nat} {m : Memory} (hm : wfFrom lo m = true) :
    read a (erase a m) = launchByte := by
  induction m generalizing lo with
  | nil => rfl
  | cons c rest ih =>
    obtain ⟨k, b⟩ := c
    rw [wfFrom_cons] at hm
    by_cases h : a = k
    · subst h
      rw [erase, if_pos rfl]
      exact read_of_lt hm.2.2.2 (by omega)
    · rw [erase, if_neg h, read, if_neg h]
      exact ih hm.2.2.2

theorem Memory.read_erase_other {a b : Nat} (h : b ≠ a) (m : Memory) : read b (erase a m) = read b m := by
  induction m with
  | nil => rfl
  | cons c rest ih =>
    obtain ⟨k, v⟩ := c
    by_cases hk : a = k
    · subst hk
      rw [erase, if_pos rfl, read, if_neg h]
    · rw [erase, if_neg hk, read, read, ih]

theorem Memory.read_insert_same (a : Nat) (v : Byte) (m : Memory) : read a (insert a v m) = v := by
  induction m with
  | nil => simp [insert, read]
  | cons c rest ih =>
    obtain ⟨k, w⟩ := c
    rw [insert]
    split
    · simp [read]
    · split
      · simp [read]
      · rename_i h
        rw [read, if_neg h, ih]

theorem Memory.read_insert_other {a b : Nat} (h : b ≠ a) (v : Byte) (m : Memory) :
    read b (insert a v m) = read b m := by
  induction m with
  | nil => simp [insert, read, h]
  | cons c rest ih =>
    obtain ⟨k, w⟩ := c
    rw [insert]
    split
    · rw [read, if_neg h]
    · split
      · rename_i hk
        subst hk
        rw [read, if_neg h, read, if_neg h]
      · rw [read, read, ih]

theorem Memory.wfFrom_erase {lo a : Nat} {m : Memory} (hm : wfFrom lo m = true) : wfFrom lo (erase a m) = true := by
  induction m generalizing lo with
  | nil => rfl
  | cons c rest ih =>
    obtain ⟨k, b⟩ := c
    rw [wfFrom_cons] at hm
    rw [erase]
    split
    · exact wfFrom_mono (by omega) hm.2.2.2
    · exact wfFrom_cons.2 ⟨hm.1, hm.2.1, hm.2.2.1, ih hm.2.2.2⟩

theorem Memory.wfFrom_insert {lo a : Nat} {v : Byte} {m : Memory} (hm : wfFrom lo m = true) (hlo : lo ≤ a)
    (ha : a < 2 ^ 32) (hv : v ≠ launchByte) : wfFrom lo (insert a v m) = true := by
  induction m generalizing lo with
  | nil => exact wfFrom_cons.2 ⟨hlo, ha, hv, rfl⟩
  | cons c rest ih =>
    obtain ⟨k, b⟩ := c
    have hc := wfFrom_cons.1 hm
    rw [insert]
    split
    · rename_i hk
      exact wfFrom_cons.2 ⟨hlo, ha, hv, wfFrom_cons.2 ⟨hk, hc.2⟩⟩
    · split
      · rename_i hk
        subst hk
        exact wfFrom_cons.2 ⟨hlo, ha, hv, hc.2.2.2⟩
      · exact wfFrom_cons.2 ⟨hc.1, hc.2.1, hc.2.2.1, ih hc.2.2.2 (by omega)⟩

/-- A byte read after it was written is the byte written. -/
theorem Memory.read_write_same {a : Nat} {v : Byte} {m : Memory} (hm : wf m = true) : read a (write a v m) = v := by
  rw [write]
  split
  · rename_i h
    rw [h, read_erase_same hm]
  · exact read_insert_same a v m

/-- A write leaves every other address alone. -/
theorem Memory.read_write_other {a b : Nat} (h : b ≠ a) (v : Byte) (m : Memory) : read b (write a v m) = read b m := by
  rw [write]
  split
  · exact read_erase_other h m
  · exact read_insert_other h v m

/-- A write keeps the canonical form. -/
theorem Memory.wf_write {a : Nat} (v : Byte) {m : Memory} (hm : wf m = true) (ha : a < 2 ^ 32) :
    wf (write a v m) = true := by
  rw [write]
  split
  · exact wfFrom_erase hm
  · rename_i h
    exact wfFrom_insert hm (Nat.zero_le a) ha h

/-- Two memories in canonical form that read the same are the same list. -/
theorem Memory.eq_of_read_eq {lo : Nat} {m m' : Memory} (hm : wfFrom lo m = true) (hm' : wfFrom lo m' = true)
    (h : ∀ a, read a m = read a m') : m = m' := by
  induction m generalizing lo m' with
  | nil =>
    cases m' with
    | nil => rfl
    | cons c rest =>
      obtain ⟨k, b⟩ := c
      have := h k
      rw [wfFrom_cons] at hm'
      simp only [read, if_true] at this
      exact absurd this.symm hm'.2.2.1
  | cons c rest ih =>
    obtain ⟨k, b⟩ := c
    cases m' with
    | nil =>
      have := h k
      rw [wfFrom_cons] at hm
      simp only [read, if_true] at this
      exact absurd this hm.2.2.1
    | cons c' rest' =>
      obtain ⟨k', b'⟩ := c'
      have hw := wfFrom_cons.1 hm
      have hw' := wfFrom_cons.1 hm'
      have hk : k = k' := by
        rcases Nat.lt_trichotomy k k' with hlt | heq | hgt
        · have h1 := h k
          rw [read, if_pos rfl, read, if_neg (by omega), read_of_lt hw'.2.2.2 (by omega)] at h1
          exact absurd h1 hw.2.2.1
        · exact heq
        · have h1 := h k'
          rw [read, if_neg (by omega), read_of_lt hw.2.2.2 (by omega), read, if_pos rfl] at h1
          exact absurd h1.symm hw'.2.2.1
      subst hk
      have hb : b = b' := by
        have h1 := h k
        simpa [read] using h1
      subst hb
      have hrest : rest = rest' := by
        refine ih hw.2.2.2 hw'.2.2.2 fun a => ?_
        by_cases ha : a = k
        · rw [ha, read_of_lt hw.2.2.2 (by omega), read_of_lt hw'.2.2.2 (by omega)]
        · have h1 := h a
          rwa [read, if_neg ha, read, if_neg ha] at h1
      rw [hrest]

/-- Nothing is listed at reset, so the canonical form holds there. -/
theorem Memory.wf_reset : wf State.reset.mem = true := rfl

end Sys2Proof.Machine
end

