-- ==== Sys2Proof/Laws/Ops.lean ====
section
/-! SUPPORT. What each shared operation of Machine/Ops.lean and Machine/Agents.lean can do, said once:
the bus, the polls, RECV and SEND, the data-memory port, the codec steps, an issue, a turn of the line
environment. Later proofs cite these and do not unfold the operations. -/

namespace Sys2Proof.Machine

/-! ### The flag word and the received byte -/

theorem flagWord_bit4 (x : Word) (a b : Bool) : (flagWord x a b).getLsbD 4 = a := by
  cases a <;> cases b <;> simp [flagWord]

theorem flagWord_bit5 (x : Word) (a b : Bool) : (flagWord x a b).getLsbD 5 = b := by
  cases a <;> cases b <;> simp [flagWord]

/-- Bit 4 of the word a read of FR returns is RXFE (R105, R107). -/
theorem frWord_rxfe (s : State) : s.frWord.getLsbD 4 = s.rxfe := flagWord_bit4 _ _ _

/-- Bit 5 of the word a read of FR returns is TXFF (R105, R107). -/
theorem frWord_txff (s : State) : s.frWord.getLsbD 5 = s.txff := flagWord_bit5 _ _ _

/-- The low byte of a word built from an upper part and a byte is that byte (R103). -/
theorem lowByte_append (x : BitVec 24) (b : Byte) : ((x ++ b : Word)).setWidth 8 = b := by
  have h : ((x ++ b : BitVec (24 + 8))).setWidth 8 = b := by
    rw [BitVec.setWidth_append]
    simp
  exact h

/-- The byte RECV latches is the low byte of the word the DR read returns (R108). -/
theorem drByte_eq (s : State) : ((s.busRead .dr).1).setWidth 8 = s.drByte := by
  unfold State.busRead State.readReg State.readDr State.drByte
  cases s.per.rxq with
  | nil => rfl
  | cons b rest => exact lowByte_append _ b

/-! ### The register bus -/

/-- A bus read changes nothing but RXQ, the draw counter and the observed events. -/
theorem busRead_frame (r : Reg) (s : State) :
    (s.busRead r).2.mode = s.mode ∧ (s.busRead r).2.seq = s.seq ∧ (s.busRead r).2.fault = s.fault ∧
    (s.busRead r).2.cmd = s.cmd ∧ (s.busRead r).2.dp = s.dp ∧ (s.busRead r).2.mem = s.mem ∧
    (s.busRead r).2.cfg = s.cfg ∧ (s.busRead r).2.agenda = s.agenda := by
  cases r <;>
    simp only [State.busRead, State.readReg, State.readDr, State.record_mode, State.record_seq,
      State.record_fault, State.record_cmd, State.record_dp, State.record_mem, State.record_cfg,
      State.record_agenda, State.tick_mode, State.tick_seq, State.tick_fault, State.tick_cmd, State.tick_dp,
      State.tick_mem, State.tick_cfg, State.tick_agenda, and_self]
  split <;> simp

@[simp] theorem busRead_mode (r : Reg) (s : State) : (s.busRead r).2.mode = s.mode := (busRead_frame r s).1
@[simp] theorem busRead_seq (r : Reg) (s : State) : (s.busRead r).2.seq = s.seq := (busRead_frame r s).2.1
@[simp] theorem busRead_fault (r : Reg) (s : State) : (s.busRead r).2.fault = s.fault := (busRead_frame r s).2.2.1
@[simp] theorem busRead_cmd (r : Reg) (s : State) : (s.busRead r).2.cmd = s.cmd := (busRead_frame r s).2.2.2.1
@[simp] theorem busRead_dp (r : Reg) (s : State) : (s.busRead r).2.dp = s.dp := (busRead_frame r s).2.2.2.2.1
@[simp] theorem busRead_mem (r : Reg) (s : State) : (s.busRead r).2.mem = s.mem := (busRead_frame r s).2.2.2.2.2.1
@[simp] theorem busRead_cfg (r : Reg) (s : State) : (s.busRead r).2.cfg = s.cfg := (busRead_frame r s).2.2.2.2.2.2.1
@[simp] theorem busRead_agenda (r : Reg) (s : State) : (s.busRead r).2.agenda = s.agenda :=
  (busRead_frame r s).2.2.2.2.2.2.2

/-- A read of DR removes the head of RXQ; no other read changes the peripheral (R70). -/
@[simp] theorem busRead_per (r : Reg) (s : State) :
    (s.busRead r).2.per = if r = .dr then { s.per with rxq := s.per.rxq.tail } else s.per := by
  cases r <;> simp [State.busRead, State.readReg, State.readDr]
  split <;> rename_i h <;> simp [h]
  cases hp : s.per
  simp_all

@[simp] theorem busRead_trace (r : Reg) (s : State) :
    (s.busRead r).2.trace = .busRd (s.cfg.addr r) (s.busRead r).1 :: s.trace := by
  cases r <;> simp [State.busRead, State.readReg, State.readDr]
  split <;> simp

/-- Every register but DR and FR reads as its stored value, taking no draw (R106). -/
theorem busRead_stored {r : Reg} (hdr : r ≠ .dr) (hfr : r ≠ .fr) (s : State) :
    s.busRead r = (s.per.stored r, s.record (.busRd (s.cfg.addr r) (s.per.stored r))) := by
  cases r <;> first | exact absurd rfl hdr | exact absurd rfl hfr | rfl

/-- A read of FR (R105). -/
theorem busRead_fr (s : State) :
    s.busRead .fr = (s.frWord, s.tick.record (.busRd (s.cfg.addr .fr) s.frWord)) := rfl

/-- A write of DR appends the low byte to TXQ while TXQ is not full (R104). -/
theorem busWrite_dr {s : State} (h : s.per.txq.length < s.depth) (v : Word) :
    s.busWrite .dr v =
      ({ s with per := { s.per with txq := s.per.txq ++ [v.setWidth 8] } }).record (.busWr (s.cfg.addr .dr) v) := by
  simp [State.busWrite, State.writeReg, State.writeDr, h]

/-- A character written to a full TXQ is lost (R104). -/
theorem busWrite_dr_full {s : State} (h : ¬ s.per.txq.length < s.depth) (v : Word) :
    s.busWrite .dr v = s.record (.busWr (s.cfg.addr .dr) v) := by
  simp [State.busWrite, State.writeReg, State.writeDr, h]

/-- A write of a register other than DR that does not reconfigure the UART stores the value (R106). -/
theorem busWrite_store {r : Reg} {v : Word} {s : State} (hdr : r ≠ .dr) (h : s.per.reconfigures r v = false) :
    s.busWrite r v = ({ s with per := s.per.store r v }).record (.busWr (s.cfg.addr r) v) := by
  cases r <;> first | exact absurd rfl hdr | simp [State.busWrite, State.writeReg, h]

/-- A write that reconfigures the UART stores the value, then keeps or empties each FIFO (R115). -/
theorem busWrite_reconfigure {r : Reg} {v : Word} {s : State} (hdr : r ≠ .dr)
    (h : s.per.reconfigures r v = true) :
    s.busWrite r v = ({ s with per := s.per.store r v } : State).reconfigure.record (.busWr (s.cfg.addr r) v) := by
  cases r <;> first | exact absurd rfl hdr | simp [State.busWrite, State.writeReg, h]

/-- A bus write changes nothing but the peripheral, the draw counter and the observed events. -/
theorem busWrite_frame (r : Reg) (v : Word) (s : State) :
    (s.busWrite r v).mode = s.mode ∧ (s.busWrite r v).seq = s.seq ∧ (s.busWrite r v).fault = s.fault ∧
    (s.busWrite r v).cmd = s.cmd ∧ (s.busWrite r v).dp = s.dp ∧ (s.busWrite r v).mem = s.mem ∧
    (s.busWrite r v).cfg = s.cfg ∧ (s.busWrite r v).agenda = s.agenda ∧
    (s.busWrite r v).trace = .busWr (s.cfg.addr r) v :: s.trace := by
  by_cases hdr : r = .dr
  · subst hdr
    by_cases h : s.per.txq.length < s.depth
    · simp [busWrite_dr h]
    · simp [busWrite_dr_full h]
  · cases h : s.per.reconfigures r v
    · simp [busWrite_store hdr h]
    · simp [busWrite_reconfigure hdr h, State.reconfigure]

@[simp] theorem busWrite_mode (r : Reg) (v : Word) (s : State) : (s.busWrite r v).mode = s.mode :=
  (busWrite_frame r v s).1
@[simp] theorem busWrite_seq (r : Reg) (v : Word) (s : State) : (s.busWrite r v).seq = s.seq :=
  (busWrite_frame r v s).2.1
@[simp] theorem busWrite_fault (r : Reg) (v : Word) (s : State) : (s.busWrite r v).fault = s.fault :=
  (busWrite_frame r v s).2.2.1
@[simp] theorem busWrite_cmd (r : Reg) (v : Word) (s : State) : (s.busWrite r v).cmd = s.cmd :=
  (busWrite_frame r v s).2.2.2.1
@[simp] theorem busWrite_dp (r : Reg) (v : Word) (s : State) : (s.busWrite r v).dp = s.dp :=
  (busWrite_frame r v s).2.2.2.2.1
@[simp] theorem busWrite_mem (r : Reg) (v : Word) (s : State) : (s.busWrite r v).mem = s.mem :=
  (busWrite_frame r v s).2.2.2.2.2.1
@[simp] theorem busWrite_cfg (r : Reg) (v : Word) (s : State) : (s.busWrite r v).cfg = s.cfg :=
  (busWrite_frame r v s).2.2.2.2.2.2.1
@[simp] theorem busWrite_agenda (r : Reg) (v : Word) (s : State) : (s.busWrite r v).agenda = s.agenda :=
  (busWrite_frame r v s).2.2.2.2.2.2.2.1
@[simp] theorem busWrite_trace (r : Reg) (v : Word) (s : State) :
    (s.busWrite r v).trace = .busWr (s.cfg.addr r) v :: s.trace :=
  (busWrite_frame r v s).2.2.2.2.2.2.2.2

/-- A FIFO that may be flushed is afterwards what it was, or empty (R115). -/
theorem keepOrFlush_cases (b : Bool) (q : List Byte) : keepOrFlush b q = q ∨ keepOrFlush b q = [] := by
  cases q <;> cases b <;> simp [keepOrFlush]

theorem keepOrFlush_length_le (b : Bool) (q : List Byte) : (keepOrFlush b q).length ≤ q.length := by
  cases q <;> cases b <;> simp [keepOrFlush]

/-- What a bus write of a register other than DR leaves of the peripheral: the stored value, and each
FIFO kept or empty; the FIFOs are kept where the write does not reconfigure the UART (R106, R115). -/
theorem busWrite_per {r : Reg} (hdr : r ≠ .dr) (v : Word) (s : State) :
    ∃ q q', (s.busWrite r v).per = { s.per.store r v with rxq := q, txq := q' } ∧
      (q = s.per.rxq ∨ q = []) ∧ (q' = s.per.txq ∨ q' = []) ∧
      (s.per.reconfigures r v = false → q = s.per.rxq ∧ q' = s.per.txq) := by
  have hq : (s.per.store r v).rxq = s.per.rxq ∧ (s.per.store r v).txq = s.per.txq := by cases r <;> exact ⟨rfl, rfl⟩
  cases h : s.per.reconfigures r v
  · refine ⟨s.per.rxq, s.per.txq, ?_, .inl rfl, .inl rfl, fun _ => ⟨rfl, rfl⟩⟩
    rw [busWrite_store hdr h]
    simp [← hq.1, ← hq.2]
  · refine ⟨_, _, ?_, keepOrFlush_cases (Config.flushRxDraw s.draws) s.per.rxq,
      keepOrFlush_cases (Config.flushTxDraw s.draws) s.per.txq, fun h' => by simp at h'⟩
    rw [busWrite_reconfigure hdr h]
    simp [State.reconfigure, hq.1, hq.2]

/-! ### The polls, RECV and SEND -/

/-- A receive poll reads FR once and moves to the DR read exactly when RXFE is clear (R108). -/
theorem recvPoll_eq (op : Op) (s : State) :
    s.recvPoll op = (s.tick.record (.busRd (s.cfg.addr .fr) s.frWord)).goto op (if s.rxfe then .rxPoll else .rxRead) :=
  rfl

/-- A send poll reads FR once and moves to the DR write exactly when TXFF is clear (R109). -/
theorem sendPoll_eq (op : Op) (s : State) :
    s.sendPoll op = (s.tick.record (.busRd (s.cfg.addr .fr) s.frWord)).goto op (if s.txff then .txPoll else .txWrite) :=
  rfl

/-- RECV's DR read with a character waiting: it leaves RXQ and is latched (R103, R108). -/
theorem recvRead_cons {s : State} {b : Byte} {rest : List Byte} (h : s.per.rxq = b :: rest) :
    s.recvRead =
      (({ s with per := { s.per with rxq := rest } }).tick.record
        (.busRd (s.cfg.addr .dr) (Config.drUpperDraw s.draws ++ b))).setCh b := by
  simp [State.recvRead, State.drByte, State.busRead, State.readReg, State.readDr, h]

/-- SEND's DR write with room in TXQ: CH is appended (R104, R109). -/
theorem sendWrite_room {s : State} (h : s.per.txq.length < s.depth) :
    s.sendWrite =
      ({ s with per := { s.per with txq := s.per.txq ++ [s.dp.ch] } }).record
        (.busWr (s.cfg.addr .dr) (s.dp.ch.setWidth 32)) := by
  rw [State.sendWrite, busWrite_dr h]
  have : (s.dp.ch.setWidth 32).setWidth 8 = s.dp.ch := by simp
  rw [this]

/-! RECV's DR read and SEND's DR write leave every other field alone. -/

@[simp] theorem recvRead_mode (s : State) : s.recvRead.mode = s.mode := by simp [State.recvRead]
@[simp] theorem recvRead_seq (s : State) : s.recvRead.seq = s.seq := by simp [State.recvRead]
@[simp] theorem recvRead_fault (s : State) : s.recvRead.fault = s.fault := by simp [State.recvRead]
@[simp] theorem recvRead_cmd (s : State) : s.recvRead.cmd = s.cmd := by simp [State.recvRead]
@[simp] theorem recvRead_cfg (s : State) : s.recvRead.cfg = s.cfg := by simp [State.recvRead]
@[simp] theorem recvRead_mem (s : State) : s.recvRead.mem = s.mem := by simp [State.recvRead]
@[simp] theorem recvRead_agenda (s : State) : s.recvRead.agenda = s.agenda := by simp [State.recvRead]
@[simp] theorem recvRead_dp (s : State) : s.recvRead.dp = { s.dp with ch := s.drByte } := by simp [State.recvRead]
@[simp] theorem recvRead_per (s : State) : s.recvRead.per = { s.per with rxq := s.per.rxq.tail } := by
  simp [State.recvRead]
@[simp] theorem sendWrite_mode (s : State) : s.sendWrite.mode = s.mode := by simp [State.sendWrite]
@[simp] theorem sendWrite_seq (s : State) : s.sendWrite.seq = s.seq := by simp [State.sendWrite]
@[simp] theorem sendWrite_fault (s : State) : s.sendWrite.fault = s.fault := by simp [State.sendWrite]
@[simp] theorem sendWrite_cmd (s : State) : s.sendWrite.cmd = s.cmd := by simp [State.sendWrite]
@[simp] theorem sendWrite_cfg (s : State) : s.sendWrite.cfg = s.cfg := by simp [State.sendWrite]
@[simp] theorem sendWrite_mem (s : State) : s.sendWrite.mem = s.mem := by simp [State.sendWrite]
@[simp] theorem sendWrite_agenda (s : State) : s.sendWrite.agenda = s.agenda := by simp [State.sendWrite]
@[simp] theorem sendWrite_dp (s : State) : s.sendWrite.dp = s.dp := by simp [State.sendWrite]

/-! ### The data-memory port -/

/-- A data-memory read answers exactly at admitted addresses, and changes nothing else (R66). -/
theorem memRead_eq_some {a : Word} {s s' : State} {b : Byte} :
    s.memRead a = some (b, s') ↔ s.cfg.admits a = true ∧ b = s.byteAt a ∧ s' = s.record (.memRd a b) := by
  unfold State.memRead
  split <;> simp_all
  constructor
  · rintro ⟨rfl, rfl⟩
    exact ⟨rfl, rfl⟩
  · rintro ⟨rfl, rfl⟩
    exact ⟨rfl, rfl⟩

theorem memRead_eq_none {a : Word} {s : State} : s.memRead a = none ↔ s.cfg.admits a = false := by
  unfold State.memRead
  split <;> simp_all

/-- A data-memory write answers exactly at admitted addresses, and stores one byte (R67). -/
theorem memWrite_eq_some {a : Word} {v : Byte} {s s' : State} :
    s.memWrite a v = some s' ↔
      s.cfg.admits a = true ∧ s' = ({ s with mem := Memory.write a.toNat v s.mem }).record (.memWr a v) := by
  unfold State.memWrite
  by_cases h : s.cfg.admits a = true
  · rw [if_pos h]
    exact ⟨fun e => ⟨h, (Option.some.inj e).symm⟩, fun e => by rw [e.2]⟩
  · rw [if_neg h]
    exact ⟨fun e => by simp at e, fun e => absurd e.1 h⟩

theorem memWrite_eq_none {a : Word} {v : Byte} {s : State} : s.memWrite a v = none ↔ s.cfg.admits a = false := by
  unfold State.memWrite
  split <;> simp_all

/-! ### Control -/

theorem phaseIn_run {s : State} {op : Op} {ph : Phase} (h : s.seq = .run op ph) : s.phaseIn op = ph := by
  simp [State.phaseIn, h]

/-- What an issue can do (R90): it is ignored by a halted engine, raises exactly one of its three
faults, or latches the word of a command and starts it. -/
theorem issue_cases (w : Command) (s : State) :
    (s.fault ≠ none ∧ s.issue w = s.record (.issue w)) ∨
    (s.fault = none ∧ s.seq ≠ .idle ∧ s.issue w = (s.record (.issue w)).raise (.commandWhileBusy w)) ∨
    (s.fault = none ∧ s.seq = .idle ∧ (∃ e, decode w = .error e) ∧
      s.issue w = (s.record (.issue w)).raise (.illegalCommand w)) ∨
    (s.fault = none ∧ s.seq = .idle ∧ ∃ i, decode w = .ok i ∧ i.op ≠ .init ∧ s.mode = .uninit ∧
      s.issue w = (s.record (.issue w)).raise (.notReady w)) ∨
    (s.fault = none ∧ s.seq = .idle ∧ ∃ i, decode w = .ok i ∧ (i.op = .init ∨ s.mode = .ready) ∧
      s.issue w = ({ s.record (.issue w) with cmd := w }).goto i.op .start) := by
  unfold State.issue
  by_cases hf : s.fault = none
  · have hh : s.halted = false := by simp [State.halted, hf]
    by_cases hs : s.seq = .idle
    · have hi : s.isIdle = true := by simp [State.isIdle, hs]
      cases hd : decode w with
      | error e => simp [hh, hi, hf, hs]
      | ok i =>
        by_cases hop : i.op = .init
        · simp [hh, hi, hf, hs, hop]
        · cases hm : s.mode <;> simp [hh, hi, hf, hs, hop]
    · have hi : s.isIdle = false := by simp [State.isIdle, hs]
      simp [hh, hi, hf, hs]
  · have hh : s.halted = true := by simp [State.halted, Option.isSome_iff_ne_none, hf]
    simp [hh, hf]

/-- What a turn of the line environment can do (R120 to R122). -/
theorem lineStep_cases (e : LineStep) (s : State) :
    s.lineStep e = s ∨
    (∃ b, e = .rxArrive b ∧ s.per.uarten = true ∧ s.per.rxq.length < s.depth ∧
      s.lineStep e = ({ s with per := { s.per with rxq := s.per.rxq ++ [b] } }).record (.rxIn b)) ∨
    (∃ b rest, e = .txDrain ∧ s.per.uarten = true ∧ s.per.txq = b :: rest ∧
      s.lineStep e = ({ s with per := { s.per with txq := rest } }).record (.txOut b)) ∨
    (e = .clkReady ∧ s.per.rcgcGpio.getLsbD s.cfg.gpioClkBit.val = true ∧
      s.lineStep e = { s with per := { s.per with prGpio := s.per.prGpio ||| s.cfg.gpioClkMask } }) := by
  unfold State.lineStep
  by_cases h : s.enabled e = true
  · rw [if_pos h]
    cases e with
    | rxArrive b =>
      simp [State.enabled] at h
      exact .inr (.inl ⟨b, rfl, h.1, h.2, rfl⟩)
    | txDrain =>
      simp [State.enabled] at h
      cases hq : s.per.txq with
      | nil => simp [hq] at h
      | cons b rest => exact .inr (.inr (.inl ⟨b, rest, rfl, h.1, rfl, by simp [State.lineEffect, hq]⟩))
    | clkReady =>
      simp [State.enabled] at h
      exact .inr (.inr (.inr ⟨rfl, h.1, rfl⟩))
  · rw [if_neg h]
    exact .inl rfl

end Sys2Proof.Machine
end

