-- ==== Sys2Proof/Laws/Commands.lean ====
section
/-! SUPPORT. What one step of each command is at each of its phases: the equations of the shared codec
steps, of TXSTR's byte read, of RDLINE's store and terminator, and of INIT's accesses. -/

namespace Sys2Proof.Machine

/-! ### The decoders (R162, R181) -/

section Decoder

variable {op : Op} {base : Word} {digit : Byte → Option Word} {s : State}

theorem decoderStep_start (h : s.seq = .run op .start) :
    s.decoderStep op base digit = ({ s with dp := s.dp.clearAcc } : State).recvPoll op := by
  simp [State.decoderStep, phaseIn_run h]

theorem decoderStep_rxPoll (h : s.seq = .run op .rxPoll) : s.decoderStep op base digit = s.recvPoll op := by
  simp [State.decoderStep, phaseIn_run h]

theorem decoderStep_txPoll (h : s.seq = .run op .txPoll) : s.decoderStep op base digit = s.sendPoll op := by
  simp [State.decoderStep, phaseIn_run h]

theorem decoderStep_txWrite (h : s.seq = .run op .txWrite) :
    s.decoderStep op base digit = s.sendWrite.goto op .rxPoll := by
  simp [State.decoderStep, phaseIn_run h]

theorem decoderStep_rxRead (h : s.seq = .run op .rxRead) :
    s.decoderStep op base digit =
      s.recvRead.applyDecode op (decodeChar base digit s.recvRead.dp.ch s.recvRead.dp) := by
  simp [State.decoderStep, phaseIn_run h]

end Decoder

@[simp] theorem applyDecode_finish (op : Op) (s : State) :
    s.applyDecode op .finish = s.complete op (some s.dp.acc) := rfl
@[simp] theorem applyDecode_echo (op : Op) (r : Datapath) (s : State) :
    s.applyDecode op (.echo r) = ({ s with dp := r } : State).goto op .txPoll := rfl
@[simp] theorem applyDecode_ignore (op : Op) (s : State) : s.applyDecode op .ignore = s.goto op .rxPoll := rfl

/-- What a decoder does with a character, said over the character's class (R163). -/
theorem decodeChar_cases (base : Word) (digit : Byte → Option Word) (c : Byte) (r : Datapath) :
    (c = charCR ∧ decodeChar base digit c r = .finish) ∨
    (c ≠ charCR ∧ ∃ d, digit c = some d ∧ decodeChar base digit c r = .echo (r.append base d)) ∨
    (c ≠ charCR ∧ digit c = none ∧ c = charBS ∧ r.cnt ≠ 0#32 ∧
      decodeChar base digit c r = .echo (r.undo base)) ∨
    (c ≠ charCR ∧ digit c = none ∧ (c ≠ charBS ∨ r.cnt = 0#32) ∧ decodeChar base digit c r = .ignore) := by
  unfold decodeChar
  by_cases hc : c = charCR
  · simp [hc]
  · cases hd : digit c with
    | some d => simp [hc]
    | none =>
      by_cases hb : c = charBS
      · subst hb
        by_cases hn : r.cnt = 0#32 <;> simp [hc, hn]
      · simp [hc, hb]

/-! ### The encoders (R165, R185) -/

section Encoder

variable {op : Op} {base : Word} {char : Nibble → Byte} {n : Word} {s : State}

theorem encoderStep_start (h : s.seq = .run op .start) :
    s.encoderStep op base char n =
      ({ s with dp := (s.dp.loadNumber base n).popDigit char } : State).sendPoll op := by
  simp [State.encoderStep, phaseIn_run h]

theorem encoderStep_txPoll (h : s.seq = .run op .txPoll) : s.encoderStep op base char n = s.sendPoll op := by
  simp [State.encoderStep, phaseIn_run h]

theorem encoderStep_txWrite (h : s.seq = .run op .txWrite) :
    s.encoderStep op base char n =
      if s.sendWrite.dp.dcnt = 0#4 then s.sendWrite.complete op none
      else ({ s.sendWrite with dp := s.sendWrite.dp.popDigit char } : State).goto op .txPoll := by
  simp [State.encoderStep, phaseIn_run h]

end Encoder

/-- Loading a number fills between one and ten digits (R8, R165). -/
theorem loadNumber_dcnt (base n : Word) (r : Datapath) :
    1 ≤ (r.loadNumber base n).dcnt.toNat ∧ (r.loadNumber base n).dcnt.toNat ≤ 10 := by
  have key : ∀ k (r : Datapath), r.dcnt.toNat + k ≤ 10 → 1 ≤ k →
      r.dcnt.toNat + 1 ≤ (r.pushDigits base k).dcnt.toNat ∧
      (r.pushDigits base k).dcnt.toNat ≤ r.dcnt.toNat + k := by
    intro k
    induction k with
    | zero => intro r _ h; omega
    | succ k ih =>
      intro r h _
      have hp : (r.pushDigit base).dcnt.toNat = r.dcnt.toNat + 1 := by
        simp [Datapath.pushDigit, BitVec.toNat_add]
        omega
      simp only [Datapath.pushDigits]
      split
      · omega
      · cases k with
        | zero => simp [Datapath.pushDigits]; omega
        | succ k => have := ih (r.pushDigit base) (by omega) (by omega); omega
  have := key 10 { r with n := n, dcnt := 0#4 } (by simp) (by simp)
  simp [Datapath.loadNumber] at this ⊢
  omega

/-- Taking a digit from a filled buffer leaves DCNT at one of the buffer's ten entries. -/
theorem popDigit_dcnt (char : Nibble → Byte) (r : Datapath) (h1 : 1 ≤ r.dcnt.toNat) (h2 : r.dcnt.toNat ≤ 10) :
    (r.popDigit char).dcnt < 10#4 := by
  simp only [Datapath.popDigit, BitVec.lt_def]
  rw [BitVec.toNat_sub_of_le] <;> simp [BitVec.le_def] <;> omega

/-! ### TXSTR's byte read (R140) -/

/-- TXSTR's byte read faults at a refused address, completes at the terminator, and latches any other
byte. -/
theorem readStringByte_cases (s : State) :
    (s.cfg.admits s.dp.ptr = false ∧ s.readStringByte = s.raise (.memRefused s.dp.ptr)) ∨
    (s.cfg.admits s.dp.ptr = true ∧ s.byteAt s.dp.ptr = charNUL ∧
      s.readStringByte = (s.record (.memRd s.dp.ptr charNUL)).complete .txstr none) ∨
    (s.cfg.admits s.dp.ptr = true ∧ s.byteAt s.dp.ptr ≠ charNUL ∧
      s.readStringByte =
        ((s.record (.memRd s.dp.ptr (s.byteAt s.dp.ptr))).setCh (s.byteAt s.dp.ptr)).goto .txstr .txPoll) := by
  unfold State.readStringByte
  cases hm : s.memRead s.dp.ptr with
  | none => exact .inl ⟨memRead_eq_none.1 hm, rfl⟩
  | some p =>
    obtain ⟨b, s'⟩ := p
    obtain ⟨ha, rfl, rfl⟩ := memRead_eq_some.1 hm
    by_cases hb : s.byteAt s.dp.ptr = charNUL
    · refine .inr (.inl ⟨ha, hb, ?_⟩)
      simp [hb]
    · refine .inr (.inr ⟨ha, hb, ?_⟩)
      simp [hb]

/-! ### RDLINE's store and terminator (R201) -/

theorem storeLineChar_cases (s : State) :
    (s.cfg.admits s.dp.lineAddr = false ∧ s.storeLineChar = s.raise (.memRefused s.dp.lineAddr)) ∨
    (s.cfg.admits s.dp.lineAddr = true ∧
      s.storeLineChar =
        ({ s with
            mem := Memory.write s.dp.lineAddr.toNat s.dp.ch s.mem
            dp := { s.dp with len := s.dp.len + 1#16 }
            trace := .memWr s.dp.lineAddr s.dp.ch :: s.trace } : State).goto .rdline .txPoll) := by
  unfold State.storeLineChar
  cases hm : s.memWrite s.dp.lineAddr s.dp.ch with
  | none => exact .inl ⟨memWrite_eq_none.1 hm, rfl⟩
  | some s' =>
    obtain ⟨ha, rfl⟩ := memWrite_eq_some.1 hm
    exact .inr ⟨ha, rfl⟩

theorem terminateLine_cases (s : State) :
    (s.cfg.admits s.dp.lineAddr = false ∧ s.terminateLine = s.raise (.memRefused s.dp.lineAddr)) ∨
    (s.cfg.admits s.dp.lineAddr = true ∧
      s.terminateLine =
        (({ s with mem := Memory.write s.dp.lineAddr.toNat charNUL s.mem } : State).record
          (.memWr s.dp.lineAddr charNUL)).complete .rdline none) := by
  unfold State.terminateLine
  cases hm : s.memWrite s.dp.lineAddr charNUL with
  | none => exact .inl ⟨memWrite_eq_none.1 hm, rfl⟩
  | some s' =>
    obtain ⟨ha, rfl⟩ := memWrite_eq_some.1 hm
    exact .inr ⟨ha, rfl⟩

@[simp] theorem applyLine_terminate (s : State) : s.applyLine .terminate = s.goto .rdline .lineTerm := rfl
@[simp] theorem applyLine_erase (s : State) :
    s.applyLine .erase = ({ s with dp := { s.dp with len := s.dp.len - 1#16 } } : State).goto .rdline .txPoll := rfl
@[simp] theorem applyLine_store (s : State) : s.applyLine .store = s.goto .rdline .lineStore := rfl
@[simp] theorem applyLine_drop (s : State) : s.applyLine .drop = s.goto .rdline .rxPoll := rfl

/-- What RDLINE does with a character, said over the character and the length (R202). -/
theorem lineChar_cases (c : Byte) (len maxl : Half) :
    (c = charCR ∧ lineChar c len maxl = .terminate) ∨
    (c = charBS ∧ len ≠ 0#16 ∧ lineChar c len maxl = .erase) ∨
    (c = charBS ∧ len = 0#16 ∧ lineChar c len maxl = .drop) ∨
    (c ≠ charCR ∧ c ≠ charBS ∧ len < maxl ∧ lineChar c len maxl = .store) ∨
    (c ≠ charCR ∧ c ≠ charBS ∧ ¬ len < maxl ∧ lineChar c len maxl = .drop) := by
  unfold lineChar
  by_cases hc : c = charCR
  · simp [hc]
  · by_cases hb : c = charBS
    · by_cases hl : len = 0#16 <;> simp [hb, hl, charBS, charCR]
    · by_cases hl : len < maxl <;> simp [hc, hb, hl]

/-! ### INIT's accesses (R133) -/

/-- A read in INIT leaves the register's value in `v` and moves on. -/
theorem initRead_eq {r : Reg} (hdr : r ≠ .dr) (hfr : r ≠ .fr) (next : InitPos) (s : State) :
    s.initRead r next =
      ({ s with
          dp := { s.dp with v := s.per.stored r }
          trace := .busRd (s.cfg.addr r) (s.per.stored r) :: s.trace } : State).goto .init (.init next) := by
  simp only [State.initRead, busRead_stored hdr hfr]
  rfl

/-- INIT's readiness poll reads PR_GPIO once and moves on exactly when the port's clock is ready. -/
theorem initPoll_eq (s : State) :
    s.initPoll =
      ({ s with
          dp := { s.dp with v := s.per.prWord }
          trace := .busRd (s.cfg.addr .prGpio) s.per.prWord :: s.trace } : State).goto .init
        (.init (if s.per.prWord.getLsbD s.cfg.gpioClkBit.val then .rdCtlOff else .pollPr)) := rfl

end Sys2Proof.Machine
end

