-- ==== Sys2Proof/Laws/Encoding.lean ====
section
/-! SUPPORT. The fields of a packed command word (spec/30_encoding.md R81). -/

namespace Sys2Proof

/-- The bits of a packed command word. -/
theorem packFields_getLsbD (a : Word) (m : Half) (c o : Byte) (k : Nat) :
    (packFields a m c o).getLsbD k =
      if k < 8 then o.getLsbD k
      else if k - 8 < 8 then c.getLsbD (k - 8)
      else if k - 8 - 8 < 16 then m.getLsbD (k - 8 - 8)
      else a.getLsbD (k - 8 - 8 - 16) := by
  have h : ((((a ++ m : BitVec (32 + 16)) ++ c : BitVec (32 + 16 + 8)) ++ o : BitVec (32 + 16 + 8 + 8))).getLsbD k = _ :=
    BitVec.getLsbD_append
  refine h.trans ?_
  rw [BitVec.getLsbD_append, BitVec.getLsbD_append]

variable (a : Word) (m : Half) (c o : Byte)

@[simp] theorem fieldOP_packFields : fieldOP (packFields a m c o) = o := by
  apply BitVec.eq_of_getLsbD_eq
  intro k hk
  rw [fieldOP, BitVec.getLsbD_extractLsb', packFields_getLsbD, if_pos (by omega)]
  simp [hk]

@[simp] theorem fieldCH_packFields : fieldCH (packFields a m c o) = c := by
  apply BitVec.eq_of_getLsbD_eq
  intro k hk
  rw [fieldCH, BitVec.getLsbD_extractLsb', packFields_getLsbD, if_neg (by omega), if_pos (by omega)]
  simp [hk]

@[simp] theorem fieldMAX_packFields : fieldMAX (packFields a m c o) = m := by
  apply BitVec.eq_of_getLsbD_eq
  intro k hk
  rw [fieldMAX, BitVec.getLsbD_extractLsb', packFields_getLsbD, if_neg (by omega), if_neg (by omega),
    if_pos (by omega), show 16 + k - 8 - 8 = k by omega]
  simp [hk]

@[simp] theorem fieldA_packFields : fieldA (packFields a m c o) = a := by
  apply BitVec.eq_of_getLsbD_eq
  intro k hk
  rw [fieldA, BitVec.getLsbD_extractLsb', packFields_getLsbD, if_neg (by omega), if_neg (by omega),
    if_neg (by omega), show 32 + k - 8 - 8 - 16 = k by omega]
  simp [hk]

/-- A word is the packing of its four fields. -/
theorem packFields_fields (w : Command) : packFields (fieldA w) (fieldMAX w) (fieldCH w) (fieldOP w) = w := by
  apply BitVec.eq_of_getLsbD_eq
  intro k hk
  rw [packFields_getLsbD]
  simp only [fieldA, fieldMAX, fieldCH, fieldOP, BitVec.getLsbD_extractLsb']
  split
  · simp_all
  · split
    · rw [show 8 + (k - 8) = k by omega]
      simp_all
    · split
      · rw [show 16 + (k - 8 - 8) = k by omega]
        simp_all
      · rw [show 32 + (k - 8 - 8 - 16) = k by omega]
        simp only [Bool.and_eq_right_iff_imp, decide_eq_true_eq]
        omega

/-- Every operation is the one its OP value names (R83). -/
@[simp] theorem ofCode_code (op : Op) : Op.ofCode op.code = some op := by cases op <;> rfl

/-- An OP value names at most one operation (R83). -/
theorem ofCode_eq_some {b : Byte} {op : Op} (h : Op.ofCode b = some op) : b = op.code := by
  unfold Op.ofCode at h
  repeat' split at h
  all_goals first | (cases h; assumption) | cases h

/-! ### The rows of the opcode map (R83) -/

omit a m c o in
theorem packFields_and (a a' : Word) (m m' : Half) (c c' o o' : Byte) :
    packFields a m c o &&& packFields a' m' c' o' = packFields (a &&& a') (m &&& m') (c &&& c') (o &&& o') := by
  apply BitVec.eq_of_getLsbD_eq
  intro k _
  rw [BitVec.getLsbD_and, packFields_getLsbD, packFields_getLsbD, packFields_getLsbD]
  split
  · simp
  · split
    · simp
    · split <;> simp

omit a m c o in
theorem packFields_inj {a a' : Word} {m m' : Half} {c c' o o' : Byte} :
    packFields a m c o = packFields a' m' c' o' ↔ a = a' ∧ m = m' ∧ c = c' ∧ o = o' := by
  constructor
  · intro h
    exact ⟨by simpa using congrArg fieldA h, by simpa using congrArg fieldMAX h,
      by simpa using congrArg fieldCH h, by simpa using congrArg fieldOP h⟩
  · rintro ⟨rfl, rfl, rfl, rfl⟩
    rfl

/-- A row's mask covers OP and every field its operation does not use. -/
theorem row_mask (op : Op) :
    op.row.mask = packFields (if op.usesA then 0 else 0xFFFFFFFF#32) (if op.usesMAX then 0 else 0xFFFF#16)
      (if op.usesCH then 0 else 0xFF#8) 0xFF#8 := by
  cases op <;> rfl

/-- A row's pattern is its OP value, zero elsewhere. -/
theorem row_pattern (op : Op) : op.row.pattern = packFields 0 0 0 op.code := by
  cases op <;> rfl

/-- A word selects a row exactly when OP is the row's and every reserved field is zero (R83, R84). -/
theorem selects_iff (op : Op) (w : Command) :
    op.selects w = true ↔ fieldOP w = op.code ∧ reservedZero op w = true := by
  have e1 : ∀ a : Word, a &&& 0xFFFFFFFF#32 = a := fun a => by
    rw [show 0xFFFFFFFF#32 = BitVec.allOnes 32 by decide, BitVec.and_allOnes]
  have e2 : ∀ a : Half, a &&& 0xFFFF#16 = a := fun a => by
    rw [show 0xFFFF#16 = BitVec.allOnes 16 by decide, BitVec.and_allOnes]
  have e3 : ∀ a : Byte, a &&& 0xFF#8 = a := fun a => by
    rw [show 0xFF#8 = BitVec.allOnes 8 by decide, BitVec.and_allOnes]
  rw [Op.selects, beq_iff_eq, row_mask, row_pattern]
  conv_lhs => rw [← packFields_fields w]
  rw [packFields_and, packFields_inj, reservedZero]
  cases op.usesA <;> cases op.usesMAX <;> cases op.usesCH <;> simp [e1, e2, e3] <;>
    generalize fieldA w = a <;> generalize fieldMAX w = m <;> generalize fieldCH w = c <;>
    generalize fieldOP w = o <;> clear e1 e2 e3 <;> constructor <;> intro h <;> simp_all

theorem assembleOperands_op (op : Op) (w : Command) : (assembleOperands op w).op = op := by cases op <;> rfl

/-- A word decodes to a command exactly when it selects the row of the command's operation, and then the
operands are its fields (R82, R93). -/
theorem decode_eq_ok {w : Command} {i : Instr} :
    decode w = .ok i ↔ i.op.selects w = true ∧ i = assembleOperands i.op w := by
  constructor
  · intro h
    unfold decode at h
    split at h
    · cases h
    · rename_i op hop
      split at h
      · rename_i hz
        cases h
        rw [assembleOperands_op]
        exact ⟨(selects_iff _ _).2 ⟨ofCode_eq_some hop, hz⟩, rfl⟩
      · cases h
  · rintro ⟨h, hi⟩
    obtain ⟨h1, h2⟩ := (selects_iff _ _).1 h
    rw [decode, h1, ofCode_code]
    simp only [h2, if_true]
    rw [← hi]

end Sys2Proof
end

