-- ==== Sys2Proof/Laws/PerInstr.lean ====
section
/-! SUPPORT. One family over the constructors of Instr: the word a command is encoded as holds the
command's OP value and zeros in every field the command does not use (spec/30_encoding.md R81 to R84). -/

namespace Sys2Proof.Laws.Fields

/-- The encoding has the command's OP value and zero reserved fields. -/
def Statement (i : Instr) : Prop := fieldOP (encode i) = i.op.code ∧ reservedZero i.op (encode i) = true

theorem init : Statement .init := by simp [Statement, encode, reservedZero, Instr.op]
theorem rxchar : Statement .rxchar := by simp [Statement, encode, reservedZero, Instr.op]
theorem txchar (c : Byte) : Statement (.txchar c) := by simp [Statement, encode, reservedZero, Instr.op, Op.usesCH]
theorem txstr (a : Word) : Statement (.txstr a) := by simp [Statement, encode, reservedZero, Instr.op, Op.usesA]
theorem decdec : Statement .decdec := by simp [Statement, encode, reservedZero, Instr.op]
theorem encdec (n : Word) : Statement (.encdec n) := by simp [Statement, encode, reservedZero, Instr.op, Op.usesA]
theorem dechex : Statement .dechex := by simp [Statement, encode, reservedZero, Instr.op]
theorem enchex (n : Word) : Statement (.enchex n) := by simp [Statement, encode, reservedZero, Instr.op, Op.usesA]
theorem rdline (a : Word) (max : Half) : Statement (.rdline a max) := by
  simp [Statement, encode, reservedZero, Instr.op, Op.usesA, Op.usesMAX]

end Sys2Proof.Laws.Fields
end

