-- ==== Sys2Proof/Laws/Step.lean ====
section
/-! SUPPORT. What one step of the machine can do, said once over the three agents (spec/10_state.md
R20), and when the engine has a command in hand. -/

namespace Sys2Proof.Machine

/-- The engine has a command in hand exactly when no fault has halted it, SEQ is at a phase and CMD holds
the command's word (R22, R25, R222). -/
theorem current_eq_some {s : State} {i : Instr} :
    s.current = some i ↔ s.fault = none ∧ (∃ op ph, s.seq = .run op ph) ∧ decode s.cmd = .ok i := by
  unfold State.current
  cases s.fault <;> cases s.seq <;> cases decode s.cmd <;> simp [Except.toOption]

theorem current_takeTurn (s : State) : s.takeTurn.current = s.current := rfl

/-- What a step that answers a next state has done: one step of the command in hand, nothing but the
passing of the engine's turn, one turn of the line environment, or one issue. -/
theorem step_next_cases {s t : State} (h : step s = .next t) :
    s.cfg.ok = true ∧
    ((s.turn = .engine ∧ ∃ i, s.current = some i ∧ exec i s.takeTurn = .next t) ∨
     (s.turn = .engine ∧ s.current = none ∧ t = s.takeTurn) ∨
     (∃ e, s.turn = .line e ∧ t = s.takeTurn.lineStep e) ∨
     (∃ w, s.turn = .host w ∧ t = s.takeTurn.issue w)) := by
  unfold step at h
  split at h
  · rename_i hok
    refine ⟨hok, ?_⟩
    split at h
    · rename_i ht
      split at h
      · rename_i i hi
        exact .inl ⟨ht, i, (current_takeTurn s).symm.trans hi, h⟩
      · rename_i hi
        exact .inr (.inl ⟨ht, (current_takeTurn s).symm.trans hi, (Host.Outcome.next.inj h).symm⟩)
    · rename_i e ht
      exact .inr (.inr (.inl ⟨e, ht, (Host.Outcome.next.inj h).symm⟩))
    · rename_i w ht
      exact .inr (.inr (.inr ⟨w, ht, (Host.Outcome.next.inj h).symm⟩))
  · cases h

end Sys2Proof.Machine
end

