-- ==== Sys2Proof/Tests/Slice0.lean ====
section
/-! SUPPORT. Small tests: the words of spec/95_test_vectors.md section 2 and spec/30_encoding.md R88
decoded, the checks of WellFormed refusing an ill-formed term each, one engine step or two of each
command with the result the spec gives, and, for every statement of the obligations that has premises, a
concrete case that meets them. Every expected value is the spec's. -/

namespace Sys2Proof.Tests

open Sys2Proof Sys2Proof.Machine

/-! ### Helpers -/

/-- The machine after INIT of vector V-INIT-1: idle, READY, FIFOs empty. -/
def ready : State :=
  { State.reset with
    mode := .ready
    per := { Periph.reset with
      ibrd := 43, fbrd := 26, lcrh := 0x70, ctl := 0x301, afsel := 3, den := 3, pctl := 0x11
      rcgcUart := 1, rcgcGpio := 1, prGpio := 1 } }

/-- `ready` with the command running at the phase. -/
def running (i : Instr) (ph : Phase) : State := { ready with cmd := encode i, seq := .run i.op ph }

/-- The FIFOs replaced. -/
def queues (rx tx : List Byte) (s : State) : State := { s with per := { s.per with rxq := rx, txq := tx } }

/-- The accumulator replaced. -/
def accum (acc cnt : Word) (s : State) : State := { s with dp := { s.dp with acc := acc, cnt := cnt } }

/-- The line registers replaced. -/
def editing (a : Word) (maxl len : Half) (ch : Byte) (s : State) : State :=
  { s with dp := { s.dp with bufa := a, maxl := maxl, len := len, ch := ch } }

/-- The state a step leads to; the state itself where there is none. -/
def after (o : Host.Outcome State Fault Refusal) (s : State) : State :=
  match o with
  | .next t => t
  | _ => s

/-- One step of the command in the state. -/
def oneStep (i : Instr) (s : State) : State := after (exec i s) s

/-! ### Decoding: one word per command, written out from R81 to R83, and the illegal words of section 2 -/

theorem test_decode_init : decode 0x0000000000000001#64 = .ok .init := by decide
theorem test_decode_rxchar : decode 0x0000000000000002#64 = .ok .rxchar := by decide
theorem test_decode_txchar : decode 0x0000000000004103#64 = .ok (.txchar 0x41#8) := by decide
theorem test_decode_txstr : decode 0xFFFFFFFF00000004#64 = .ok (.txstr 0xFFFFFFFF#32) := by decide
theorem test_decode_decdec : decode 0x0000000000000005#64 = .ok .decdec := by decide
theorem test_decode_encdec : decode 0x000004D200000006#64 = .ok (.encdec 1234#32) := by decide
theorem test_decode_dechex : decode 0x0000000000000007#64 = .ok .dechex := by decide
theorem test_decode_enchex : decode 0xDEADBEEF00000008#64 = .ok (.enchex 0xDEADBEEF#32) := by decide
theorem test_decode_rdline : decode 0x0000200000030009#64 = .ok (.rdline 0x2000#32 3#16) := by decide
theorem test_decode_refuses_opcodes :
    decode 0x0000000000000000#64 = .error (.opcode 0x00#8) ∧ decode 0x000000000000000A#64 = .error (.opcode 0x0A#8) ∧
    decode 0x00000000000000FF#64 = .error (.opcode 0xFF#8) := by decide
theorem test_decode_refuses_reserved_bits :
    decode 0x0000000000010003#64 = .error (.reservedBits .txchar) ∧
    decode 0x0000000100000001#64 = .error (.reservedBits .init) ∧
    decode 0x0000000000000106#64 = .error (.reservedBits .encdec) ∧
    decode 0x0000000000000101#64 = .error (.reservedBits .init) ∧
    decode 0x0000200000030109#64 = .error (.reservedBits .rdline) := by decide
theorem test_encode_operands :
    encode (.txchar 0x41#8) = 0x0000000000004103#64 ∧ encode (.rdline 0x2000#32 3#16) = 0x0000200000030009#64 ∧
    encode (.encdec 1234#32) = 0x000004D200000006#64 := by decide
theorem test_table_word : decodeTableWord 64 0x0000200000030009 = some (.rdline 0x2000#32 3#16) := by decide

/-! ### WellFormed: an ill-formed term for each check -/

theorem test_reference_ok : Params.reference.ok = true := by decide
theorem test_reference_constrained : Params.reference.constrained = true := by decide
/-- R140 (d), R249: a configuration that admits every address is not refused. -/
theorem test_all_addresses_admitted_runs :
    ({ Params.reference with memOk := [⟨0#32, 0xFFFFFFFF#32⟩] } : Params).ok = true := by decide
theorem test_refuses_misaligned : ({ Params.reference with prGpioAddr := 0x400FEA0A#32 } : Params).aligned = false := by
  decide
theorem test_refuses_collision : ({ Params.reference with rcgcGpioAddr := 0x4000C018#32 } : Params).apart = false := by
  decide
theorem test_constraint_register_in_memory :
    ({ Params.reference with memOk := [⟨0x40004000#32, 0x40004FFF#32⟩] } : Params).outsideMemory = false := by decide
theorem test_refuses_zero_baud : ({ Params.reference with baud := 0 } : Params).divisorOk = false := by decide
theorem test_refuses_zero_clock : ({ Params.reference with busClkHz := 0 } : Params).divisorOk = false := by decide
/-- V-DIV-5. -/
theorem test_refuses_divisor_below_one :
    ({ Params.reference with busClkHz := 1000000, baud := 115200 } : Params).divisorOk = false := by decide
theorem test_refuses_divisor_above_16_bits :
    ({ Params.reference with busClkHz := 80000000, baud := 1 } : Params).divisorOk = false := by decide
theorem test_constraint_one_pin : ({ Params.reference with pins := 0x4#32 } : Params).pinsOk = false := by decide
theorem test_constraint_function_outside_mask : ({ Params.reference with pctlFunc := 0x111#32 } : Params).pctlOk = false := by
  decide
theorem test_refuses_oversized_operands :
    (SourceLine.txchar 256).fits = false ∧ (SourceLine.txstr (2 ^ 32)).fits = false ∧
    (SourceLine.encdec (2 ^ 32)).fits = false ∧ (SourceLine.enchex (2 ^ 32)).fits = false ∧
    (SourceLine.rdline (2 ^ 32) 0).fits = false ∧ (SourceLine.rdline 0 65536).fits = false := by decide

/-- The example of R132: 80 MHz and 115200 baud, rounded to nearest and truncated. -/
theorem test_divisors :
    Params.reference.div64 = 2778 ∧ Params.reference.ibrdVal = 43 ∧ Params.reference.fbrdVal = 26 ∧
    ({ Params.reference with rounding := .truncate } : Params).div64 = 2777 := by decide

/-! ### The assembler (R88, R89) -/

theorem test_assemble_txchar :
    Assembler.assemble [['T', 'X', 'C', 'H', 'A', 'R', ' ', '\'', 'A', '\'']] = some [0x0000000000004103#64] := by decide
theorem test_assemble_rdline :
    Assembler.assemble [['R', 'D', 'L', 'I', 'N', 'E', ' ', '0', 'x', '2', '0', '0', '0', ',', ' ', '3']] =
      some [0x0000200000030009#64] := by decide
theorem test_assemble_encdec :
    Assembler.assemble [['E', 'N', 'C', 'D', 'E', 'C', ' ', '1', '2', '3', '4', ' ', ';', 'n']] =
      some [0x000004D200000006#64] := by decide
theorem test_assemble_newline :
    Assembler.assemble [['N', 'E', 'W', 'L', 'I', 'N', 'E']] =
      some [0x0000000000000D03#64, 0x0000000000000A03#64] := by decide
/-- A line needs no blank after its mnemonic (notes/assumptions/13.md); digits of either case and
underscores are read. -/
theorem test_assemble_text :
    Assembler.assemble [['T', 'X', 'C', 'H', 'A', 'R', '6', '5']] = some [0x0000000000004103#64] ∧
    Assembler.assemble [['E', 'N', 'C', 'H', 'E', 'X', ' ', '0', 'x', 'd', 'E', '_', '0', 'f']] =
      some [0x0000DE0F00000008#64] := by decide
theorem test_assemble_refuses :
    Assembler.assemble [['T', 'X', 'C', 'H', 'A', 'R', ' ', '2', '5', '6']] = none := by decide

/-! ### The command port and the fetch -/

/-- V-ISS-1, V-ISS-3 and V-ISS-5. -/
theorem test_issue_faults :
    (State.reset.issue 0x4103#64).fault = some (.notReady 0x4103#64) ∧
    ((running .decdec .start).issue 0x1#64).fault = some (.commandWhileBusy 0x1#64) ∧
    (State.reset.issue 0xFF#64).fault = some (.illegalCommand 0xFF#64) := by decide

/-- V-ISS-2. -/
theorem test_issue_accepted : (State.reset.issue 0x1#64).seq = .run .init .start := by decide

/-- The word placed in the engine's hand is what the very next step runs. -/
theorem test_fetch_word :
    step (State.reset.withFetchWord 64 0x0000200000030009) =
      exec (.rdline 0x2000#32 3#16) (State.reset.withFetchWord 64 0x0000200000030009) := rfl

/-! ### One step of each command -/

/-- V-INIT-1, event 1. -/
theorem test_init_first_access :
    (oneStep .init { State.reset with seq := .run .init .start }).trace = [.busRd 0x400FE618#32 0x00000000#32] := by
  decide

/-- V-INIT-3, the last access: AMSEL 0xFF becomes 0xFC, and MODE becomes READY. -/
theorem test_init_last_access :
    let s := oneStep .init { State.reset with
      seq := .run .init (.init .wrAmsel), dp := { Datapath.reset with v := 0xFF#32 } }
    s.per.amsel = 0xFC#32 ∧ s.mode = .ready ∧ s.completions = [(.init, none)] := by decide

/-- V-RX-1. -/
theorem test_rxchar_returns_cr :
    let s := oneStep .rxchar (queues [0x0D#8] [] (running .rxchar .rxRead))
    s.per.rxq = [] ∧ s.seq = .idle ∧ s.completions = [(.rxchar, some 0x0000000D#32)] := by decide

/-- V-RX-4: a poll that finds RXQ empty polls again. -/
theorem test_rxchar_polls_again :
    (oneStep .rxchar (running .rxchar .start)).seq = .run .rxchar .rxPoll := by decide

/-- V-TX-1. -/
theorem test_txchar_sends :
    let s := oneStep (.txchar 0x41#8) (oneStep (.txchar 0x41#8) (running (.txchar 0x41#8) .start))
    s.per.txq = [0x41#8] ∧ s.seq = .idle ∧ s.completions = [(.txchar, none)] := by decide

/-- V-TX-3: with FIFO_DEPTH = 1 and TXQ = [0x31] the poll repeats. -/
theorem test_txchar_polls_again :
    (oneStep (.txchar 0x32#8) (queues [] [0x31#8]
      { running (.txchar 0x32#8) .start with cfg := { Params.reference with fifoDepth := 1 } })).seq =
      .run .txchar .txPoll := by decide

/-- V-STR-3: PTR wraps from 0xFFFF_FFFF to 0. -/
theorem test_txstr_pointer_wraps :
    let s := running (.txstr 0xFFFFFFFF#32) .txWrite
    (oneStep (.txstr 0xFFFFFFFF#32) { s with dp := { s.dp with ptr := 0xFFFFFFFF#32 } }).dp.ptr = 0#32 := by decide

/-- V-STR-4: a refused address halts the engine, SEQ stays, no completion. -/
theorem test_txstr_refused :
    let s := oneStep (.txstr 0x40004000#32) (running (.txstr 0x40004000#32) .start)
    s.fault = some (.memRefused 0x40004000#32) ∧ s.completions = [] ∧ s.seq = .run .txstr .start := by decide

/-- V-DD-3: after "12" BS the digit 3 makes 13. -/
theorem test_decdec_appends :
    (oneStep .decdec (accum 1#32 1#32 (queues [0x33#8] [] (running .decdec .rxRead)))).dp.acc = 13#32 := by decide

/-- V-DD-7 and V-DD-10: 4294967296 wraps to 0, and a backspace then gives 0. -/
theorem test_decdec_wraps :
    (oneStep .decdec (accum 429496729#32 9#32 (queues [0x36#8] [] (running .decdec .rxRead)))).dp.acc = 0#32 ∧
    (oneStep .decdec (accum 0#32 10#32 (queues [0x08#8] [] (running .decdec .rxRead)))).dp.acc = 0#32 := by decide

/-- V-ED-5: ten digits, the first one '1'. -/
theorem test_encdec_first_digit :
    let s := oneStep (.encdec 1000000000#32) (running (.encdec 1000000000#32) .start)
    s.dp.ch = 0x31#8 ∧ s.dp.dcnt = 9#4 := by decide

/-- V-ED-1: zero has one digit, after which the command completes. -/
theorem test_encdec_zero :
    let s := oneStep (.encdec 0#32) (oneStep (.encdec 0#32) (running (.encdec 0#32) .start))
    s.per.txq = [0x30#8] ∧ s.completions = [(.encdec, none)] := by decide

/-- V-DH-2: 'f' then 'F' makes 0xFF. -/
theorem test_dechex_case :
    (oneStep .dechex (accum 0xF#32 1#32 (queues [0x46#8] [] (running .dechex .rxRead)))).dp.acc = 0xFF#32 ∧
    (oneStep .dechex (queues [0x66#8] [] (running .dechex .rxRead))).dp.acc = 0xF#32 := by decide

/-- V-DH-7: 'x' is ignored. -/
theorem test_dechex_ignores_x :
    let s := oneStep .dechex (accum 0#32 1#32 (queues [0x78#8] [] (running .dechex .rxRead)))
    s.seq = .run .dechex .rxPoll ∧ s.dp.cnt = 1#32 := by decide

/-- V-EH-4: the first character of 0xABC is 'A', and two more follow. -/
theorem test_enchex_first_digit :
    let s := oneStep (.enchex 0xABC#32) (running (.enchex 0xABC#32) .start)
    s.dp.ch = 0x41#8 ∧ s.dp.dcnt = 2#4 := by decide

/-- V-RL-6: a backspace changes LEN and no memory. -/
theorem test_rdline_backspace :
    let s := editing 0x2000#32 8#16 3#16 0x63#8 (queues [0x08#8] [] (running (.rdline 0x2000#32 8#16) .rxRead))
    let t := oneStep (.rdline 0x2000#32 8#16) { s with mem := [(0x2002, 0x63#8)] }
    t.dp.len = 2#16 ∧ t.seq = .run .rdline .txPoll ∧ t.mem = [(0x2002, 0x63#8)] := by decide

/-- V-RL-12: the terminator of a buffer that ends at 0xFFFF_FFFF goes to address 0. -/
theorem test_rdline_terminator_wraps :
    let s := editing 0xFFFFFFFF#32 1#16 1#16 0x0D#8 (running (.rdline 0xFFFFFFFF#32 1#16) .lineTerm)
    let t := oneStep (.rdline 0xFFFFFFFF#32 1#16) { s with mem := [(0, 0xEE#8), (0xFFFFFFFF, 0x7A#8)] }
    t.mem = [(0xFFFFFFFF, 0x7A#8)] ∧ t.completions = [(.rdline, none)] := by decide

/-! ### Witnesses: for each statement with premises, cases that meet them -/

/-- RXCHAR at its DR read, with a character waiting and one in TXQ, observed as it came about. -/
def receiving : State :=
  { queues [0x41#8] [0x31#8] (running .rxchar .rxRead) with
    trace := [.rxIn 0x41#8, .busWr 0x4000C000#32 0x31#32] }

/-- TXCHAR at its DR write, with room for exactly one character. -/
def sending : State :=
  { queues [] [0x31#8] (running (.txchar 0x32#8) .txWrite) with
    cfg := { Params.reference with fifoDepth := 2 }, trace := [.busWr 0x4000C000#32 0x31#32] }

/-- RDLINE with MAXL = 3 at the store of its third character. -/
def storing : State :=
  { editing 0x2000#32 3#16 2#16 0x63#8 (running (.rdline 0x2000#32 3#16) .lineStore) with
    mem := [(0x2000, 0x61#8), (0x2001, 0x62#8)] }

/-- RDLINE with MAXL = 3 at the terminator of a full line, whose place holds another byte. -/
def terminating : State :=
  { editing 0x2000#32 3#16 3#16 0x0D#8 (running (.rdline 0x2000#32 3#16) .lineTerm) with
    mem := [(0x2003, 0xEE#8)] }

/-- A run of INIT from reset at its last access. -/
def finishing : State :=
  { ready with mode := .uninit, cmd := encode .init, seq := .run .init (.init .wrAmsel) }

theorem witness_receiving_inv : receiving.Inv where
  memory := by decide
  rxFits := by decide
  txFits := by decide
  rxReady := fun _ _ => by decide
  txReady := fun _ _ => by decide
  gated := by decide
  held := nofun
  command := fun op ph h => ⟨.rxchar, by decide, by cases h; rfl⟩
  legal := fun op ph h => by cases h; decide
  ready := fun _ _ _ _ => by decide
  line := nofun
  lineRoom := nofun
  digits := fun op ph h => by cases h; decide

theorem witness_sending_inv : sending.Inv where
  memory := by decide
  rxFits := by decide
  txFits := by decide
  rxReady := nofun
  txReady := fun _ _ => by decide
  gated := by decide
  held := nofun
  command := fun op ph h => ⟨.txchar 0x32#8, by decide, by cases h; rfl⟩
  legal := fun op ph h => by cases h; decide
  ready := fun _ _ _ _ => by decide
  line := nofun
  lineRoom := nofun
  digits := fun op ph h => by cases h; decide

theorem witness_storing_inv : storing.Inv where
  memory := by decide
  rxFits := by decide
  txFits := by decide
  rxReady := nofun
  txReady := nofun
  gated := by decide
  held := nofun
  command := fun op ph h => ⟨.rdline 0x2000#32 3#16, by decide, by cases h; rfl⟩
  legal := fun op ph h => by cases h; decide
  ready := fun _ _ _ _ => by decide
  line := fun _ _ _ => by decide
  lineRoom := fun _ => by decide
  digits := fun op ph h => by cases h; decide

theorem witness_terminating_inv : terminating.Inv where
  memory := by decide
  rxFits := by decide
  txFits := by decide
  rxReady := nofun
  txReady := nofun
  gated := by decide
  held := nofun
  command := fun op ph h => ⟨.rdline 0x2000#32 3#16, by decide, by cases h; rfl⟩
  legal := fun op ph h => by cases h; decide
  ready := fun _ _ _ _ => by decide
  line := fun _ _ _ => by decide
  lineRoom := nofun
  digits := fun op ph h => by cases h; decide

theorem witness_receiving_configured : receiving.Configured where
  uartClock := fun _ => by decide
  gpioClock := fun _ => by decide
  gpioReady := fun _ => by decide
  integer := fun _ => by decide
  fraction := fun _ => by decide
  frame := fun _ => by decide
  disabled := fun ⟨_, h, _⟩ => nomatch h
  enabled := fun _ => by decide
  alternate := fun _ => by decide
  digital := fun _ => by decide
  function := fun _ => by decide
  analog := fun _ => by decide

/-- EncodeOfDecodeIsTheWord, DecoderFollowsTheOpcodeMap: a word of each kind. -/
theorem witness_decoded_words :
    decode 0xFFFFFFFFFFFF0009#64 = .ok (.rdline 0xFFFFFFFF#32 0xFFFF#16) ∧
    Op.selects .rdline 0xFFFFFFFFFFFF0009#64 = true ∧ decode 0x0000000100000001#64 = .error (.reservedBits .init) := by
  decide

/-- IllegalWordsRaiseIllegalCommand, IssueFollowsThePortProtocol: a state and a word for each clause. -/
theorem witness_issue :
    ({ State.reset with fault := some (.memRefused 0) } : State).fault ≠ none ∧
    (receiving.fault = none ∧ receiving.seq ≠ .idle) ∧
    (State.reset.fault = none ∧ State.reset.seq = .idle ∧ decode 0xFF#64 = .error (.opcode 0xFF#8)) ∧
    (Op.selects .txchar 0x4103#64 = true ∧ State.reset.mode = .uninit) ∧
    (Op.selects .init 0x1#64 = true ∧ Op.selects .txchar 0xFF03#64 = true ∧ ready.mode = .ready ∧
      ready.fault = none ∧ ready.seq = .idle) := by decide

theorem witness_no_row : ∀ op : Op, op.selects 0xFF#64 = false := by intro op; cases op <;> decide

/-- AssemblerRefusesOversizedOperands: the largest operand of each field fits, the next one does not. -/
theorem witness_operands :
    255 < 2 ^ 8 ∧ 0xFFFFFFFF < 2 ^ 32 ∧ 0xFFFF < 2 ^ 16 ∧ (SourceLine.rdline 0xFFFFFFFF 0xFFFF).fits = true ∧
    2 ^ 8 ≤ 256 ∧ 2 ^ 32 ≤ 0x100000000 ∧ 2 ^ 16 ≤ 0x10000 := by decide

/-- StepRunsTheDecodedCommand. -/
theorem witness_step_runs :
    receiving.cfg.ok = true ∧ receiving.turn = .engine ∧ receiving.fault = none ∧
    receiving.seq = .run .rxchar .rxRead ∧ decode receiving.cmd = .ok .rxchar := by decide

/-- StepTakesTheScheduledTurn: a schedule for each clause. -/
theorem witness_step_turns :
    State.reset.cfg.ok = true ∧
    ({ State.reset with agenda := [.host 1#64] } : State).agenda = .host 1#64 :: [] ∧
    ({ State.reset with agenda := [.line .txDrain, .engine] } : State).agenda = .line .txDrain :: [.engine] ∧
    (({ State.reset with agenda := [.engine] } : State).agenda = .engine :: [] ∧ State.reset.seq = .idle) ∧
    State.reset.agenda = [] := by decide

/-- EveryStepAnswersNext: an admitted configuration, and one refused for each reason. -/
theorem witness_configurations :
    State.reset.cfg.ok = true ∧
    ({ State.reset with cfg := { Params.reference with prGpioAddr := 0x400FEA0A#32 } } : State).cfg.ok = false ∧
    ({ State.reset with cfg := { Params.reference with rcgcGpioAddr := 0x4000C018#32 } } : State).cfg.ok = false ∧
    ({ State.reset with cfg := { Params.reference with baud := 0 } } : State).cfg.ok = false := by decide

/-- AHaltedEngineTakesNoStep: TXQ drains while the engine is halted, and the engine's own turn passes. -/
theorem witness_halted :
    (∃ t, step { sending with fault := some (.memRefused 0x3002#32), agenda := [.line .txDrain] } = .next t ∧
      t.per.txq = []) ∧
    (({ sending with fault := some (.memRefused 0x3002#32) } : State).turn = .engine ∧
      ∃ t, step { sending with fault := some (.memRefused 0x3002#32) } = .next t) := ⟨⟨_, rfl, rfl⟩, rfl, _, rfl⟩

/-- FaultsComeFromIssuesAndRefusedAccesses: each fault is raised in one step from a state without one. -/
theorem witness_faults :
    (∃ t, step { State.reset with agenda := [.host 0x4103#64] } = .next t ∧ t.fault = some (.notReady 0x4103#64)) ∧
    (∃ t, step { State.reset with agenda := [.host 0xFF#64] } = .next t ∧ t.fault = some (.illegalCommand 0xFF#64)) ∧
    (∃ t, step { receiving with agenda := [.host 1#64] } = .next t ∧ t.fault = some (.commandWhileBusy 1#64)) ∧
    (∃ t, step (running (.txstr 0x40000000#32) .start) = .next t ∧ t.fault = some (.memRefused 0x40000000#32)) :=
  ⟨⟨_, rfl, rfl⟩, ⟨_, rfl, rfl⟩, ⟨_, rfl, rfl⟩, _, rfl, rfl⟩

/-- CompletionsArePostedWhenSeqReturnsToIdle, with `witness_receiving_inv` and `witness_sending_inv`, whose
step is a command's last; a step that is not, and one of an idle engine. -/
theorem witness_last_steps :
    (∃ t, step receiving = .next t ∧ t.seq = .idle) ∧ (∃ t, step sending = .next t ∧ t.seq = .idle) ∧
    (∃ t, step storing = .next t ∧ t.seq ≠ .idle) ∧ ready.seq = .idle :=
  ⟨⟨_, rfl, rfl⟩, ⟨_, rfl, rfl⟩, ⟨_, rfl, by decide⟩, rfl⟩

/-- OnlyInitMakesTheEngineReady. -/
theorem witness_becomes_ready : ∃ t, step finishing = .next t ∧ t.mode ≠ finishing.mode :=
  ⟨_, rfl, by decide⟩

/-- OnlyRdlineWritesDataMemory, RdlineWritesOnlyItsBuffer: the last byte of the buffer, at k = MAXL. -/
theorem witness_memory_changes :
    terminating.current = some (.rdline 0x2000#32 3#16) ∧
    ∃ t, step terminating = .next t ∧ t.mem ≠ terminating.mem ∧
      t.byteAt 0x2003#32 ≠ terminating.byteAt 0x2003#32 := ⟨by decide, _, rfl, by decide, by decide⟩

/-- EveryStepKeepsTheInvariant, EveryStepKeepsTheConfiguration, SentCharactersReachTheTerminalInOrder,
ArrivedCharactersAreReceivedInOrder, EveryCommandButAnEndlessTxstrCanEnd: with `witness_receiving_inv`
and `witness_receiving_configured`. -/
theorem witness_invariants :
    ¬ receiving.flushing ∧ receiving.cfg.ok = true ∧ receiving.fault = none ∧
    receiving.seq = .run .rxchar .rxRead ∧ (∃ t, step receiving = .next t) ∧
    ¬ receiving.endless ∧ receiving.TxConserved ∧ receiving.RxConserved :=
  ⟨fun ⟨_, _, _, h, _⟩ => (nomatch h), by decide, rfl, rfl, ⟨_, rfl⟩,
    fun h => absurd (h.2.1 0x40000000#32) (by decide), by unfold State.TxConserved; decide, by unfold State.RxConserved; decide⟩

/-- SentCharactersReachTheTerminalInOrder, ArrivedCharactersAreReceivedInOrder: a write that may flush, with
nothing to flush, as in a first INIT. -/
theorem witness_flushing :
    (running .init (.init .wrLcrh)).flushing ∧ (running .init (.init .wrLcrh)).per.txq = [] ∧
    (running .init (.init .wrLcrh)).per.rxq = [] := ⟨⟨rfl, rfl, _, rfl, .inl rfl⟩, rfl, rfl⟩

/-- RecvAlwaysReadsACharacter, SendNeverLosesACharacter: a poll that succeeds, then the DR access. -/
theorem witness_polled :
    ((∀ o, (queues [0x41#8] [] (running .rxchar .rxPoll)).seq ≠ .run o .rxRead) ∧
      ∃ t, runs 1 (queues [0x41#8] [] (running .rxchar .rxPoll)) t ∧ t.seq = .run .rxchar .rxRead) ∧
    ((∀ o, { sending with seq := .run .txchar .txPoll }.seq ≠ .run o .txWrite) ∧
      sending.per.txq.length ≤ sending.depth ∧
      ∃ t, runs 1 { sending with seq := .run .txchar .txPoll } t ∧ t.seq = .run .txchar .txWrite) :=
  ⟨⟨fun _ h => (nomatch h), _, rfl, rfl⟩, ⟨fun _ h => (nomatch h), by decide, _, rfl, rfl⟩⟩

/-- MemReadReturnsTheStoredByte, MemWriteStoresOneByte: the ends of the ranges, and a refused address. -/
theorem witness_addresses :
    State.reset.cfg.admits 0#32 = true ∧ State.reset.cfg.admits 0x3FFFFFFF#32 = true ∧
    State.reset.cfg.admits 0x40000000#32 = false ∧ State.reset.cfg.admits 0xFFFFFFFF#32 = true ∧
    Memory.wf State.reset.mem = true := by decide

/-- ReadOfDrTakesTheHead, WriteOfDrAppendsUnlessFull, ReadOfFrShowsTheFlags: a case for each branch. -/
theorem witness_dr :
    receiving.per.rxq = 0x41#8 :: [] ∧ sending.per.rxq = [] ∧ sending.per.txq.length < sending.depth ∧
    ¬ (queues [] [0x31#8, 0x32#8] sending).per.txq.length < (queues [] [0x31#8, 0x32#8] sending).depth := by decide

/-- StorageRegistersHoldTheirImplementedBits: a write of CTL that keeps UARTEN. -/
theorem witness_ctl_keeps_uarten : (0x00000001#32).getLsbD 0 = ready.per.ctl.getLsbD 0 := by decide

/-- DepthFollowsFenAndNeverShrinks: both values of FEN, and a step that sets it. -/
theorem witness_fen :
    ready.per.lcrh.getLsbD 4 = true ∧ State.reset.per.lcrh.getLsbD 4 = false ∧
    ∃ t, step { State.reset with cmd := encode .init, seq := .run .init (.init .wrLcrh) } = .next t ∧
      t.depth = 16 := ⟨by decide, by decide, _, rfl, by decide⟩

/-- DivisorsAreRoundedToNearest, RegisterAddressesAreDistinct: both roundings are admitted, and meet every
constraint. -/
theorem witness_roundings :
    Params.reference.ok = true ∧ Params.reference.rounding = .nearest ∧
    ({ Params.reference with rounding := .truncate } : Params).ok = true ∧
    Params.reference.constrained = true := by decide

/-- LineEnvironmentStepsWhenEnabled: each step enabled, and not. -/
theorem witness_line_steps :
    ready.enabled (.rxArrive 0x35#8) = true ∧ State.reset.enabled (.rxArrive 0x35#8) = false ∧
    sending.enabled .txDrain = true ∧ ready.enabled .txDrain = false ∧
    ({ State.reset with per := { Periph.reset with rcgcGpio := 1 } } : State).enabled .clkReady = true ∧
    ready.enabled .clkReady = false := by decide

/-- PollsReadFrUntilTheFlagClears, ReceivingCommandsStartWithAPoll,
RxcharReturnsTheReceivedCharacter, TxcharSendsItsOperand: RXQ empty and not, TXQ full and not. -/
theorem witness_polls :
    (running .rxchar .rxPoll).seq = .run (Instr.op .rxchar) .rxPoll ∧ (running .rxchar .rxPoll).per.rxq = [] ∧
    receiving.per.rxq ≠ [] ∧ (running (.txchar 0#8) .txPoll).seq = .run (Instr.op (.txchar 0#8)) .txPoll ∧
    (queues [] [0x31#8, 0x32#8] sending).per.txq.length = (queues [] [0x31#8, 0x32#8] sending).depth ∧
    (running (.rdline 0#32 0#16) .start).seq = .run .rdline .start ∧ (running .decdec .start).seq = .run .decdec .start ∧
    (running .dechex .start).seq = .run .dechex .start ∧ (running .rxchar .start).seq = .run .rxchar .start ∧
    (running (.txchar 0#8) .start).seq = .run .txchar .start := by decide

/-- TxstrReadsThenSends, its reads: an admitted terminator at address 0, an admitted character, a refused address. -/
theorem witness_txstr :
    (running (.txstr 0#32) .start).seq = .run .txstr .start ∧ ready.cfg.admits 0#32 = true ∧
    ready.byteAt 0#32 = 0#8 ∧ storing.cfg.admits 0x2001#32 = true ∧ storing.byteAt 0x2001#32 ≠ 0#8 ∧
    ready.cfg.admits 0x400FFFFF#32 = false ∧ (running (.txstr 0#32) .strRead).dp.ptr = 0#32 := by decide

/-- TxstrReadsThenSends, EchoReturnsToReceiving, EncodersSendDigitAfterDigit: a DR write with room, with no digit left and with ten. -/
theorem witness_writes :
    (running (.txstr 0#32) .txWrite).seq = .run .txstr .txWrite ∧
    (running .decdec .txWrite).seq = .run (Instr.op .decdec) .txWrite ∧
    (running (.encdec 5#32) .txWrite).seq = .run (Instr.op (.encdec 5#32)) .txWrite ∧
    (running .decdec .txWrite).per.txq.length < (running .decdec .txWrite).depth ∧
    (running (.encdec 5#32) .txWrite).dp.dcnt = 0#4 ∧ (10#4 - 1#4).toNat < 10 ∧ (1#4 - 1#4).toNat < 10 ∧
    (running (.enchex 5#32) .start).seq = .run (Instr.op (.enchex 5#32)) .start := by decide

/-- DecodersFollowTheirTable: CR, a digit, a backspace with and without a digit to erase, another byte. -/
theorem witness_decoders :
    (queues [0x0D#8] [] (running .decdec .rxRead)).seq = .run (Instr.op .decdec) .rxRead ∧
    (queues [0x0D#8] [] (running .decdec .rxRead)).per.rxq = 0x0D#8 :: [] ∧
    digit10 0x39#8 = some 9#32 ∧ digit16 0x66#8 = some 15#32 ∧
    (accum 0#32 1#32 (running .decdec .rxRead)).dp.cnt ≠ 0#32 ∧ (running .decdec .rxRead).dp.cnt = 0#32 ∧
    digit10 0x08#8 = none ∧ digit10 0x3A#8 = none ∧ digit16 0x67#8 = none := by decide

/-- RdlineFollowsItsTable, RdlineStoresAtBufaPlusLen: room for one more, a full line, an empty one, an
admitted and a refused address. -/
theorem witness_rdline :
    storing.seq = .run .rdline .lineStore ∧ terminating.seq = .run .rdline .lineTerm ∧
    (queues [0x0D#8] [] (running (.rdline 0#32 0#16) .rxRead)).seq = .run .rdline .rxRead ∧
    storing.dp.len < storing.dp.maxl ∧ ¬ terminating.dp.len < terminating.dp.maxl ∧ storing.dp.len ≠ 0#16 ∧
    (running (.rdline 0#32 0#16) .rxRead).dp.len = 0#16 ∧ Memory.wf storing.mem = true ∧
    storing.cfg.admits (storing.dp.bufa + storing.dp.len.setWidth 32) = true ∧
    storing.cfg.admits (0x3FFFFFFE#32 + storing.dp.len.setWidth 32) = false := by decide

/-- InitMakesItsAccessesInOrder: at the first position, at the poll, at a write that may flush, at the last access. -/
theorem witness_init_positions :
    (running .init .start).seq = .run .init .start ∧
    (running .init (.init .pollPr)).seq = .run .init (.init .pollPr) ∧
    (running .init (.init .wrCtlOff)).seq = .run .init (.init .wrCtlOff) ∧
    finishing.seq = .run .init (.init .wrAmsel) := by decide

/-- The premises of the statements about whole commands: the host issues nothing in these states, no other
agent moves, and the commands have been accepted. -/
theorem witness_unissued (i : Instr) (ph : Phase) : (running i ph).unissued ∧ (running i ph).alone :=
  ⟨⟨test_reference_ok, rfl, nofun⟩, test_reference_ok, rfl, rfl⟩

theorem witness_started :
    (running .init .start).started .init ∧ (running .rxchar .start).started .rxchar ∧
    (running (.txchar 0#8) .start).started (.txchar 0#8) ∧
    (running (.txstr 0xFFFFFFFF#32) .start).started (.txstr 0xFFFFFFFF#32) ∧
    (running .decdec .start).started .decdec ∧ (running .dechex .start).started .dechex ∧
    (running (.encdec 7#32) .start).started (.encdec 7#32) ∧ (running (.enchex 7#32) .start).started (.enchex 7#32) ∧
    (running (.rdline 0xFFFFFFFF#32 1#16) .start).started (.rdline 0xFFFFFFFF#32 1#16) := by
  unfold State.started; decide

/-- V-INIT-1's launch with INIT accepted, the pin clock made ready after the write of its gate. -/
def launching : State :=
  { State.reset with
    cmd := encode .init, seq := .run .init .start
    agenda := [.engine, .engine, .engine, .engine, .line .clkReady] }

/-- InitConfiguresThePeripheral: the pin clock ready, and not yet ready; and both of these runs end. -/
theorem witness_init :
    ((running .init .start).agenda = [] ∧ (running .init .start).per.prGpio.getLsbD 0 = true) ∧
    (launching.unissued ∧ launching.started .init ∧ launching.per.prGpio.getLsbD 0 = false) ∧
    (∃ t, runs 20 (running .init .start) t ∧ t.seq = .idle) ∧ (∃ t, runs 21 launching t ∧ t.seq = .idle) :=
  ⟨⟨rfl, by decide⟩, ⟨⟨test_reference_ok, rfl, by decide⟩, by unfold State.started; decide, by decide⟩,
    ⟨_, rfl, rfl⟩, _, rfl, rfl⟩

/-- RxcharCompletesWithACharacterWaiting, TxcharCompletesWithRoom: room and a character waiting, and runs
that end. -/
theorem witness_characters :
    (queues [0x0D#8] [] (running .rxchar .start)).per.rxq = 0x0D#8 :: [] ∧
    (running (.txchar 0#8) .start).per.txq.length < (running (.txchar 0#8) .start).depth ∧
    (∃ t, runs 2 (queues [0x0D#8] [] (running .rxchar .start)) t ∧ t.seq = .idle) ∧
    (∃ t, runs 2 (running (.txchar 0#8) .start) t ∧ t.seq = .idle) :=
  ⟨rfl, by decide, ⟨_, rfl, rfl⟩, _, rfl, rfl⟩

/-- TXSTR at V-STR-3's string, the character 0x5A at 0xFFFF_FFFF and its terminator at address 0. -/
def spelling : State := { running (.txstr 0xFFFFFFFF#32) .start with mem := [(0xFFFFFFFF, 0x5A#8)] }

/-- TxstrSendsTheString, with str = [0x5A]. -/
theorem witness_string :
    (spelling.unissued ∧ spelling.started (.txstr 0xFFFFFFFF#32) ∧ spelling.agenda = []) ∧
    (∀ c ∈ ([0x5A#8] : List Byte), c ≠ 0x00#8) ∧
    (∀ k, k ≤ 1 → spelling.cfg.admits (0xFFFFFFFF#32 + BitVec.ofNat 32 k) = true) ∧
    (∀ k, (h : k < [0x5A#8].length) → spelling.byteAt (0xFFFFFFFF#32 + BitVec.ofNat 32 k) = [0x5A#8][k]) ∧
    spelling.byteAt (0xFFFFFFFF#32 + BitVec.ofNat 32 1) = 0x00#8 ∧
    spelling.per.txq.length + [0x5A#8].length ≤ spelling.depth ∧ (∃ t, runs 4 spelling t ∧ t.seq = .idle) :=
  ⟨⟨⟨test_reference_ok, rfl, nofun⟩, by unfold State.started; decide, rfl⟩, by decide, by decide, by decide,
    by decide, by decide, _, rfl, rfl⟩

/-- DecodersRefineTheAccumulator, RdlineRefinesTheLineEditor: V-DD-3 with a character after the CR,
V-RL-12's buffer, and runs that end. -/
theorem witness_lines :
    0x0D#8 ∉ ([0x31#8, 0x32#8, 0x08#8, 0x33#8] : List Byte) ∧
    (queues ([0x31#8, 0x32#8, 0x08#8, 0x33#8] ++ 0x0D#8 :: [0x38#8]) [] (running .decdec .start)).per.rxq =
      [0x31#8, 0x32#8, 0x08#8, 0x33#8] ++ 0x0D#8 :: [0x38#8] ∧
    ready.per.txq.length + 4 ≤ ready.depth ∧ Memory.wf ready.mem = true ∧
    (∀ k, k ≤ 1 → ready.cfg.admits (0xFFFFFFFF#32 + BitVec.ofNat 32 k) = true) ∧
    (∃ t, runs 2 (queues [0x0D#8] [] (running .decdec .start)) t ∧ t.seq = .idle) ∧
    (∃ t, runs 3 (queues [0x0D#8] [] (running (.rdline 0xFFFFFFFF#32 1#16) .start)) t ∧ t.seq = .idle) :=
  ⟨by decide, rfl, by decide, by decide, by decide, ⟨_, rfl, rfl⟩, _, rfl, rfl⟩

/-- EncodersAgreeWithTheRecursiveEmitter, EncodingsHaveNoLeadingZero: room for the longest output, and runs
that end, of zero and of another number. -/
theorem witness_encoders :
    ready.per.txq.length + (decimalChars 0xFFFFFFFF#32).length ≤ ready.depth ∧ (7#32 ≠ 0#32) ∧
    (∃ t, runs 2 (running (.encdec 0#32) .start) t ∧ t.seq = .idle) ∧
    (∃ t, runs 2 (running (.enchex 7#32) .start) t ∧ t.seq = .idle) :=
  ⟨by decide, by decide, ⟨_, rfl, rfl⟩, _, rfl, rfl⟩

/-- DecodingUndoesEncoding: ENCDEC 7 has ended and sent '7', and DECDEC with '7' and CR waiting has
received them and ended. -/
theorem witness_round_trip :
    (∃ t, runs 2 (running (.encdec 7#32) .start) t ∧ t.seq = .idle ∧
      t.sent = (running (.encdec 7#32) .start).sent ++ [0x37#8]) ∧
    (∃ v, runs 6 (queues [0x37#8, 0x0D#8] [] (running .decdec .start)) v ∧ v.seq = .idle ∧
      v.received = (queues [0x37#8, 0x0D#8] [] (running .decdec .start)).received ++ [0x37#8] ++ [0x0D#8]) := by
  exact ⟨⟨_, rfl, rfl, by decide⟩, _, rfl, rfl,
    congrArg₂ (fun x y => [x, y])
      (Sys2Proof.Machine.lowByte_append (Config.drUpperDraw 1) 0x37#8)
      (Sys2Proof.Machine.lowByte_append (Config.drUpperDraw 4) 0x0D#8)⟩

/-- PollsHangWithoutTheLineEnvironment: a receive poll and a send poll. -/
theorem witness_hangs :
    (decode (running .rxchar .rxPoll).cmd = .ok .rxchar ∧ Op.receives .rxchar = true ∧
      (running .rxchar .rxPoll).per.rxq = []) ∧
    (Op.sends .txchar = true ∧
      (queues [] [0x31#8, 0x32#8] { sending with seq := .run .txchar .txPoll }).per.txq.length =
        (queues [] [0x31#8, 0x32#8] { sending with seq := .run .txchar .txPoll }).depth) := by decide

/-- `n` bytes 'A' from the address `lo` on. -/
def filled (lo : Nat) : Nat → List Host.Cell
  | 0 => []
  | n + 1 => (lo, 0x41#8) :: filled (lo + 1) n

theorem read_filled (n lo a : Nat) (h : lo ≤ a ∧ a < lo + n) : Memory.read a (filled lo n) = 0x41#8 := by
  induction n generalizing lo with
  | zero => omega
  | succ n ih =>
    rw [filled, Memory.read]
    split
    · rfl
    · exact ih (lo + 1) (by omega)

/-- TXSTR started with every address admitted and every byte of memory 'A'. -/
def unterminated : State :=
  { running (.txstr 0x2000#32) .start with
    cfg := { Params.reference with memOk := [⟨0#32, 0xFFFFFFFF#32⟩] }
    mem := filled 0 (2 ^ 32) }

/-- R60, R72: with every address admitted, TXSTR at the address of DR reads the byte of data memory there (a
terminator) and takes nothing from RXQ. -/
theorem test_data_memory_is_its_own_space :
    ∃ t, step { receiving with
        cmd := encode (.txstr 0x4000C000#32)
        seq := .run .txstr .start
        cfg := { Params.reference with memOk := [⟨0#32, 0xFFFFFFFF#32⟩] } } = .next t ∧
      t.seq = .idle ∧ t.per.rxq = receiving.per.rxq := ⟨_, rfl, rfl, rfl⟩

/-- TxstrWithoutATerminatorHangs. -/
theorem witness_endless :
    unterminated.cfg.ok = true ∧ unterminated.endless ∧ unterminated.unissued ∧ unterminated.per.uarten = true := by
  refine ⟨by decide, ⟨⟨0x2000#32, rfl⟩, fun x => ?_, fun x => ?_⟩, ⟨by decide, rfl, nofun⟩, rfl⟩
  · simp [Params.admits, unterminated, BitVec.le_def]
    omega
  · rw [State.byteAt, show unterminated.mem = filled 0 (2 ^ 32) from rfl, read_filled _ _ _ (by omega)]
    decide

/-- UndoRestoresUnlessWrapped: a digit below each base, with and without a wrap. -/
theorem witness_numbers :
    (9#32 < 10#32) ∧ (15#32 < 16#32) ∧ (429496729 * 10 + 5 < 2 ^ 32) ∧ ¬ (429496729 * 10 + 6 < 2 ^ 32) := by
  decide

end Sys2Proof.Tests
end

section
/-! PROOF. The digits of a number in the buffer DBUF (spec/00_scope.md R8, spec/42_decimal_codec.md R165,
spec/43_hex_codec.md R184, R185): what the digit loop leaves there and what taking a digit leaves. -/

namespace Sys2Proof.Machine

/-! ### The digits of a number, least significant first -/

/-- The digits of `n` in a base, least significant first; those of 0 are the one digit 0, as the digit loop
of R165 leaves them. -/
def digitList (base n : Nat) : List Nat := if n = 0 then [0] else Nat.digits base n

theorem digitList_zero (base : Nat) : digitList base 0 = [0] := rfl

theorem digitList_of_ne_zero {n : Nat} (base : Nat) (hn : n ≠ 0) : digitList base n = Nat.digits base n := if_neg hn

/-- One round of the digit loop, seen from the number: a digit below the base is the last. -/
theorem digitList_of_div_eq_zero {base n : Nat} (hb : 2 ≤ base) (h : n / base = 0) : digitList base n = [n % base] := by
  have hlt : n < base := (Nat.div_eq_zero_iff_lt (by omega)).1 h
  by_cases hn : n = 0
  · simp [hn, digitList_zero]
  · rw [digitList_of_ne_zero base hn, Nat.digits_of_lt base n hn hlt, Nat.mod_eq_of_lt hlt]

/-- One round of the digit loop, seen from the number: the digits of the quotient follow. -/
theorem digitList_of_div_ne_zero {base n : Nat} (hb : 2 ≤ base) (h : n / base ≠ 0) :
    digitList base n = n % base :: digitList base (n / base) := by
  have hn : n ≠ 0 := fun h0 => h (by simp [h0])
  rw [digitList_of_ne_zero base hn, digitList_of_ne_zero base h, Nat.digits_def' (by omega) (by omega)]

theorem digitList_ne_nil (base n : Nat) : digitList base n ≠ [] := by
  by_cases hn : n = 0
  · simp [hn, digitList_zero]
  · rw [digitList_of_ne_zero base hn]
    exact Nat.digits_ne_nil_iff_ne_zero.2 hn

theorem digitList_lt_base {base n d : Nat} (hb : 2 ≤ base) (hd : d ∈ digitList base n) : d < base := by
  by_cases hn : n = 0
  · simp [hn, digitList_zero] at hd
    omega
  · rw [digitList_of_ne_zero base hn] at hd
    exact Nat.digits_lt_base (by omega) hd

/-- The number of digits is the least power of the base above the number (R8). -/
theorem digitList_length_le_iff {base n k : Nat} (hb : 2 ≤ base) (hk : 1 ≤ k) :
    (digitList base n).length ≤ k ↔ n < base ^ k := by
  by_cases hn : n = 0
  · have : 0 < base ^ k := Nat.pow_pos (by omega)
    simp [hn, digitList_zero, hk, this]
  · rw [digitList_of_ne_zero base hn]
    exact Nat.digits_length_le_iff (by omega) n

theorem digitList_getElem {base n k : Nat} (hb : 2 ≤ base) (hk : k < (digitList base n).length) :
    (digitList base n)[k] = n / base ^ k % base := by
  by_cases hn : n = 0
  · subst hn
    simp [digitList_zero] at hk ⊢
  · simp only [digitList_of_ne_zero base hn] at hk ⊢
    rw [← Nat.getD_digits n k hb, List.getD_eq_getElem _ _ hk]

/-- The most significant digit of a number other than 0 is not 0. -/
theorem digitList_getLast_ne_zero {n : Nat} (base : Nat) (hn : n ≠ 0) :
    (digitList base n).getLast (digitList_ne_nil base n) ≠ 0 := by
  simp only [digitList_of_ne_zero base hn]
  exact Nat.getLast_digit_ne_zero base hn

/-! ### The digit buffer -/

/-- The digits in the buffer: the first DCNT entries of DBUF (R29). -/
def Datapath.held (r : Datapath) : List Nibble := r.dbuf.toList.take r.dcnt.toNat

theorem Datapath.held_length {r : Datapath} (h : r.dcnt.toNat ≤ 10) : r.held.length = r.dcnt.toNat := by
  simp [held, h]

theorem Datapath.held_getElem {r : Datapath} {k : Nat} (hk : k < r.held.length) (h10 : k < 10) :
    r.held[k] = r.dbuf[k] := by
  simp [held]

theorem Datapath.pushDigit_dcnt (base : Word) {r : Datapath} (h : r.dcnt.toNat < 10) :
    (r.pushDigit base).dcnt.toNat = r.dcnt.toNat + 1 := by
  rw [pushDigit, BitVec.toNat_add_of_lt] <;> simp; omega

/-- A round of the digit loop puts one digit behind those in the buffer (R165). -/
theorem Datapath.held_pushDigit (base : Word) {r : Datapath} (h : r.dcnt.toNat < 10) :
    (r.pushDigit base).held = r.held ++ [(r.n % base).setWidth 4] := by
  have hset : (r.pushDigit base).dbuf.toList = r.dbuf.toList.set r.dcnt.toNat ((r.n % base).setWidth 4) :=
    Vector.toList_setIfInBounds
  rw [held, held, pushDigit_dcnt base h, hset, ← List.take_append_getElem (by simpa using h),
    List.take_set_of_le le_rfl, List.getElem_set_self]

/-- The digit loop empties N and puts the digits of N behind those in the buffer, if it may run for as many
rounds as N has digits and the buffer has room (R8, R165). -/
theorem Datapath.pushDigits_spec {base : Nat} (hb : 2 ≤ base ∧ base ≤ 16) (k : Nat) (r : Datapath)
    (hn : r.n.toNat < base ^ k) (hk : 1 ≤ k) (hroom : r.dcnt.toNat + k ≤ 10) :
    (r.pushDigits (BitVec.ofNat 32 base) k).n = 0#32 ∧
    (r.pushDigits (BitVec.ofNat 32 base) k).dcnt.toNat ≤ 10 ∧
    (r.pushDigits (BitVec.ofNat 32 base) k).held =
      r.held ++ (digitList base r.n.toNat).map (BitVec.ofNat 4) := by
  induction k generalizing r with
  | zero => omega
  | succ k ih =>
    have hbase : (BitVec.ofNat 32 base).toNat = base := by simp; omega
    have hheld := held_pushDigit (BitVec.ofNat 32 base) (r := r) (by omega)
    have hdcnt := pushDigit_dcnt (BitVec.ofNat 32 base) (r := r) (by omega)
    have hquot : (r.pushDigit (BitVec.ofNat 32 base)).n.toNat = r.n.toNat / base := by
      rw [pushDigit, BitVec.toNat_udiv, hbase]
    have hdigit : (r.n % BitVec.ofNat 32 base).setWidth 4 = BitVec.ofNat 4 (r.n.toNat % base) := by
      apply BitVec.eq_of_toNat_eq
      rw [BitVec.toNat_setWidth, BitVec.toNat_umod, hbase, BitVec.toNat_ofNat]
    rw [hdigit] at hheld
    simp only [pushDigits]
    split
    next hzero =>
      rw [hzero] at hquot
      exact ⟨hzero, by omega, by rw [hheld, digitList_of_div_eq_zero hb.1 hquot.symm]; rfl⟩
    next hne =>
      have hquot_ne : r.n.toNat / base ≠ 0 := fun h0 => hne (BitVec.eq_of_toNat_eq (hquot.trans h0))
      have hlt : r.n.toNat / base < base ^ k := Nat.div_lt_of_lt_mul (by rwa [← Nat.pow_succ'])
      have hk' : 1 ≤ k := by
        rcases Nat.eq_zero_or_pos k with rfl | h
        · rw [pow_zero] at hlt
          omega
        · exact h
      obtain ⟨hn0, hfits, hall⟩ := ih (r.pushDigit (BitVec.ofNat 32 base)) (hquot ▸ hlt) hk' (by omega)
      refine ⟨hn0, hfits, ?_⟩
      rw [hall, hheld, hquot, digitList_of_div_ne_zero hb.1 hquot_ne, List.map_cons, List.append_assoc,
        List.singleton_append]

/-- The digit loop changes nothing but N, DBUF and DCNT. -/
theorem Datapath.pushDigits_frame (base : Word) (k : Nat) (r : Datapath) :
    r.pushDigits base k = { r with
      n := (r.pushDigits base k).n
      dbuf := (r.pushDigits base k).dbuf
      dcnt := (r.pushDigits base k).dcnt } := by
  induction k generalizing r with
  | zero => rfl
  | succ k ih =>
    simp only [pushDigits]
    split
    · rfl
    · rw [ih (r.pushDigit base)]
      rfl

/-- An encoder's start leaves the digits of its operand in the buffer, at most ten, and N = 0 (R165). -/
theorem Datapath.loadNumber_spec {base : Nat} (hb : base = 10 ∨ base = 16) (n : Word) (r : Datapath) :
    (r.loadNumber (BitVec.ofNat 32 base) n).n = 0#32 ∧
    (r.loadNumber (BitVec.ofNat 32 base) n).dcnt.toNat ≤ 10 ∧
    (r.loadNumber (BitVec.ofNat 32 base) n).held = (digitList base n.toNat).map (BitVec.ofNat 4) := by
  have hn : n.toNat < base ^ 10 := by
    have := n.isLt
    rcases hb with rfl | rfl <;> omega
  have hempty : ({ r with n := n, dcnt := 0#4 } : Datapath).held = [] := List.take_zero
  obtain ⟨hzero, hfits, hheld⟩ :=
    pushDigits_spec (by omega) 10 { r with n := n, dcnt := 0#4 } hn (by omega) (by simp)
  rw [hempty, List.nil_append] at hheld
  exact ⟨hzero, hfits, hheld⟩

/-- An encoder's start fills as many entries as its operand has digits. -/
theorem Datapath.loadNumber_dcnt_toNat {base : Nat} (hb : base = 10 ∨ base = 16) (n : Word) (r : Datapath) :
    (r.loadNumber (BitVec.ofNat 32 base) n).dcnt.toNat = (digitList base n.toNat).length := by
  obtain ⟨-, hfits, hheld⟩ := loadNumber_spec hb n r
  rw [← held_length hfits, hheld, List.length_map]

/-- Entry `k` of the buffer that an encoder's start fills is digit `k` of its operand (R165, R185). -/
theorem Datapath.loadNumber_entry {base : Nat} (hb : base = 10 ∨ base = 16) (n : Word) (r : Datapath) {k : Nat}
    (hk : k < (digitList base n.toNat).length) (h10 : k < 10) :
    (r.loadNumber (BitVec.ofNat 32 base) n).dbuf[k] = BitVec.ofNat 4 (n.toNat / base ^ k % base) := by
  obtain ⟨-, hfits, hheld⟩ := loadNumber_spec hb n r
  rw [← held_getElem (by rwa [held_length hfits, loadNumber_dcnt_toNat hb])]
  simp only [hheld, List.getElem_map, digitList_getElem (show 2 ≤ base by omega) hk]

theorem Datapath.loadNumber_frame (base n : Word) (r : Datapath) :
    r.loadNumber base n = { r with
      n := (r.loadNumber base n).n
      dbuf := (r.loadNumber base n).dbuf
      dcnt := (r.loadNumber base n).dcnt } :=
  pushDigits_frame base 10 { r with n := n, dcnt := 0#4 }

theorem Datapath.popDigit_dcnt_toNat (char : Nibble → Byte) {r : Datapath} (h : r.dcnt ≠ 0#4) :
    (r.popDigit char).dcnt.toNat = r.dcnt.toNat - 1 := by
  have : r.dcnt.toNat ≠ 0 := fun h0 => h (BitVec.eq_of_toNat_eq h0)
  rw [popDigit, BitVec.toNat_sub_of_le] <;> simp [BitVec.le_def]; omega

/-- Taking a digit latches the character of the entry that DCNT then names (R29, R165). -/
theorem Datapath.popDigit_ch {char : Nibble → Byte} {r : Datapath} (h : (r.popDigit char).dcnt.toNat < 10) :
    (r.popDigit char).ch = char r.dbuf[(r.popDigit char).dcnt.toNat] := by
  change char (r.dbuf.getD (r.popDigit char).dcnt.toNat 0#4) = _
  rw [Vector.getD, Array.getD, dif_pos (by simpa using h)]
  rfl

/-- Taking a digit takes the last one in the buffer, the most significant one left (R165, R185). -/
theorem Datapath.held_popDigit (char : Nibble → Byte) {r : Datapath} (h0 : r.dcnt ≠ 0#4) (h10 : r.dcnt.toNat ≤ 10) :
    ∃ d, r.held = (r.popDigit char).held ++ [d] ∧ (r.popDigit char).ch = char d := by
  have hpos : r.dcnt.toNat ≠ 0 := fun h => h0 (BitVec.eq_of_toNat_eq h)
  have hnext := popDigit_dcnt_toNat char h0
  have hlt : (r.popDigit char).dcnt.toNat < 10 := by omega
  have hd : r.dcnt.toNat = (r.popDigit char).dcnt.toNat + 1 := by omega
  refine ⟨_, ?_, popDigit_ch hlt⟩
  rw [held, hd, ← List.take_append_getElem (by simpa using hlt)]
  rfl

end Sys2Proof.Machine
end

section
/-! PROOF. The step over the schedule (spec/10_state.md R14, R20), and the launch state. -/

namespace Sys2Proof.Machine

/-! ### One step, agent by agent -/

section Turns

variable {s : State}

/-- The engine's turn with a command in hand is one step of that command (R14, R23). -/
theorem step_of_current {i : Instr} (hok : s.cfg.ok = true) (hturn : s.turn = .engine) (hcur : s.current = some i) :
    step s = exec i s.takeTurn := by
  simp [step, hok, hturn, current_takeTurn, hcur]

/-- The engine's turn with no command in hand only passes (R222). -/
theorem step_of_no_current (hok : s.cfg.ok = true) (hturn : s.turn = .engine) (hcur : s.current = none) :
    step s = .next s.takeTurn := by
  simp [step, hok, hturn, current_takeTurn, hcur]

theorem step_of_line {e : LineStep} (hok : s.cfg.ok = true) (hturn : s.turn = .line e) :
    step s = .next (s.takeTurn.lineStep e) := by
  simp [step, hok, hturn]

theorem step_of_host {w : Command} (hok : s.cfg.ok = true) (hturn : s.turn = .host w) :
    step s = .next (s.takeTurn.issue w) := by
  simp [step, hok, hturn]

/-- An idle or halted engine has no command in hand (R23, R222). -/
theorem current_eq_none_of_idle_or_halted (h : s.seq = .idle ∨ s.fault ≠ none) : s.current = none := by
  by_contra hne
  obtain ⟨i, hi⟩ := Option.ne_none_iff_exists'.1 hne
  obtain ⟨hfault, ⟨op, ph, hseq⟩, -⟩ := current_eq_some.1 hi
  rcases h with hidle | hhalted
  · rw [hseq] at hidle
    cases hidle
  · exact hhalted hfault

theorem turn_cons {x : Turn} {rest : List Turn} (h : s.agenda = x :: rest) : s.turn = x := by
  simp [State.turn, h]

theorem turn_nil (h : s.agenda = []) : s.turn = .engine := by
  simp [State.turn, h]

theorem takeTurn_cons {x : Turn} {rest : List Turn} (h : s.agenda = x :: rest) :
    s.takeTurn = { s with agenda := rest } := by
  simp [State.takeTurn, h]

theorem takeTurn_nil (h : s.agenda = []) : s.takeTurn = s := by
  rw [State.takeTurn, h, List.tail_nil, ← h]

end Turns

/-! ### The scheduled turn and the command in hand -/

/-- Settles O8: the premises are those under which the command in CMD is in the engine's hand. -/
theorem stepRunsTheDecodedCommand : Obligations.StepRunsTheDecodedCommand := by
  intro s i op ph hok hturn hfault hseq hdecode
  exact step_of_current hok hturn (current_eq_some.2 ⟨hfault, ⟨op, ph, hseq⟩, hdecode⟩)

/-- Settles O9, one agent after the other. -/
theorem stepTakesTheScheduledTurn : Obligations.StepTakesTheScheduledTurn := by
  intro s rest hok
  refine ⟨fun w ha => ?host, fun e ha => ?line, fun ha hrest => ?engine, fun ha hrest => ?unscheduled⟩
  case host => rw [step_of_host hok (turn_cons ha), takeTurn_cons ha]
  case line => rw [step_of_line hok (turn_cons ha), takeTurn_cons ha]
  case engine =>
    rw [step_of_no_current hok (turn_cons ha) (current_eq_none_of_idle_or_halted hrest), takeTurn_cons ha]
  case unscheduled =>
    rw [step_of_no_current hok (turn_nil ha) (current_eq_none_of_idle_or_halted hrest), takeTurn_nil ha]

/-! ### The launch state -/

/-- Nothing runs at reset, so no clause of an invariant on a running command is due. -/
theorem reset_not_running (op : Op) (ph : Phase) : State.reset.seq ≠ .run op ph := nofun

theorem reset_not_ready : State.reset.mode ≠ .ready := nofun

theorem reset_not_initPast (p : InitPos) : ¬ State.reset.initPast p := by
  rintro ⟨q, hseq, -⟩
  exact reset_not_running _ _ hseq

/-- INIT has configured nothing at reset, so no clause on what it leaves is due. -/
theorem reset_not_configured {p : InitPos} : ¬ (State.reset.mode = .ready ∨ State.reset.initPast p) :=
  not_or.2 ⟨reset_not_ready, reset_not_initPast p⟩

theorem reset_inv : State.reset.Inv where
  memory := Memory.wf_reset
  rxFits := Nat.zero_le _
  txFits := Nat.zero_le _
  rxReady _ h := absurd h (reset_not_running _ _)
  txReady _ h := absurd h (reset_not_running _ _)
  gated := by decide
  held _ _ h := absurd h (reset_not_running _ _)
  command _ _ h := absurd h (reset_not_running _ _)
  legal _ _ h := absurd h (reset_not_running _ _)
  ready _ _ h := absurd h (reset_not_running _ _)
  line _ h := absurd h (reset_not_running _ _)
  lineRoom h := absurd h (reset_not_running _ _)
  digits _ _ h := absurd h (reset_not_running _ _)

theorem reset_configured : State.reset.Configured where
  uartClock h := absurd h reset_not_configured
  gpioClock h := absurd h reset_not_configured
  gpioReady h := absurd h reset_not_configured
  integer h := absurd h reset_not_configured
  fraction h := absurd h reset_not_configured
  frame h := absurd h reset_not_configured
  disabled h := absurd h (reset_not_initPast _)
  enabled h := absurd (h.imp_left And.left) reset_not_configured
  alternate h := absurd h reset_not_configured
  digital h := absurd h reset_not_configured
  function h := absurd h reset_not_configured
  analog h := absurd h reset_not_ready

/-- Settles O19: the configuration is checked by evaluation, nothing runs and nothing has been observed. -/
theorem resetMeetsTheInvariants : Obligations.ResetMeetsTheInvariants :=
  ⟨by decide, reset_inv, reset_configured, rfl, rfl⟩

end Sys2Proof.Machine
end

section
/-! PROOF. Runs in which the host issues nothing (`State.unissued`): the induction over them, the cases of one
of their steps, and the characters sent along them (spec/40_register_interface.md R124, R125). -/

namespace Sys2Proof.Machine

/-! ### Induction over a run -/

/-- What holds at the start of a run and is kept by every step holds at its end. -/
theorem runs_induction {P : State → Prop} (hstep : ∀ u v, P u → step u = .next v → P v) {k : Nat} {s t : State}
    (hs : P s) (hrun : runs k s t) : P t := by
  induction k generalizing s with
  | zero =>
    cases hrun
    exact hs
  | succ k ih =>
    simp only [runs, Host.Core.run] at hrun
    split at hrun
    next u hu => exact ih (hstep s u hs hu) hrun
    next => cases hrun
    next => cases hrun

/-! ### What every step of such a run leaves alone -/

/-- `t` has the control registers, the configuration, memory and the schedule of `s`. -/
structure State.Frame (s t : State) : Prop where
  mode : t.mode = s.mode
  fault : t.fault = s.fault
  cmd : t.cmd = s.cmd
  mem : t.mem = s.mem
  cfg : t.cfg = s.cfg
  agenda : t.agenda = s.agenda

theorem lineStep_frame (e : LineStep) (s : State) : s.Frame (s.lineStep e) := by
  rcases lineStep_cases e s with h | ⟨b, -, -, -, h⟩ | ⟨b, rest, -, -, -, h⟩ | ⟨-, -, h⟩ <;>
    rw [h] <;> exact ⟨rfl, rfl, rfl, rfl, rfl, rfl⟩

@[simp] theorem lineStep_seq (e : LineStep) (s : State) : (s.lineStep e).seq = s.seq := by
  rcases lineStep_cases e s with h | ⟨b, -, -, -, h⟩ | ⟨b, rest, -, -, -, h⟩ | ⟨-, -, h⟩ <;> rw [h] <;> rfl

@[simp] theorem lineStep_dp (e : LineStep) (s : State) : (s.lineStep e).dp = s.dp := by
  rcases lineStep_cases e s with h | ⟨b, -, -, -, h⟩ | ⟨b, rest, -, -, -, h⟩ | ⟨-, -, h⟩ <;> rw [h] <;> rfl

theorem State.unissued.takeTurn {s : State} (h : s.unissued) : s.takeTurn.unissued := by
  obtain ⟨hok, hfault, hagenda⟩ := h
  exact ⟨hok, hfault, fun x hx => hagenda x (List.mem_of_mem_tail hx)⟩

theorem State.Frame.unissued {s t : State} (h : s.Frame t) (hs : s.unissued) : t.unissued := by
  rwa [State.unissued, h.cfg, h.fault, h.agenda]

/-- A step where the host issues nothing: one step of the command in hand, the passing of an idle engine's
turn, or a turn of the line environment. -/
theorem step_unissued_cases {s t : State} (hs : s.unissued) (h : step s = .next t) :
    (∃ i, s.current = some i ∧ exec i s.takeTurn = .next t) ∨
    (s.current = none ∧ t = s.takeTurn) ∨
    ∃ e, t = s.takeTurn.lineStep e := by
  obtain ⟨-, ⟨-, hcmd⟩ | ⟨-, hpass⟩ | ⟨e, -, hline⟩ | ⟨w, hturn, -⟩⟩ := step_next_cases h
  · exact .inl hcmd
  · exact .inr (.inl hpass)
  · exact .inr (.inr ⟨e, hline⟩)
  · obtain ⟨-, -, hagenda⟩ := hs
    cases ha : s.agenda with
    | nil => simp [State.turn, ha] at hturn
    | cons x rest =>
      have hx := hagenda x (by simp [ha])
      rw [← turn_cons ha, hturn] at hx
      cases hx

/-! ### The characters sent -/

/-- One more event adds its character to those sent, if it is a write of DR. -/
theorem sent_of_trace_cons {s t : State} {e : Event} (htrace : t.trace = e :: s.trace) (hcfg : t.cfg = s.cfg) :
    t.sent = s.sent ++ (e.sentChar s.cfg).toList := by
  rw [State.sent, State.events, htrace, hcfg, List.reverse_cons, List.filterMap_append]
  cases he : e.sentChar s.cfg with
  | none => rw [List.filterMap_cons_none he]; rfl
  | some c => rw [List.filterMap_cons_some he]; rfl

/-- An event that is no write of DR leaves the characters sent as they are. -/
theorem sent_of_silent {s t : State} {e : Event} (htrace : t.trace = e :: s.trace) (hcfg : t.cfg = s.cfg)
    (he : e.sentChar s.cfg = none) : t.sent = s.sent := by
  rw [sent_of_trace_cons htrace hcfg, he, Option.toList_none, List.append_nil]

/-- The line environment sends nothing on the engine's behalf. -/
@[simp] theorem lineStep_sent (e : LineStep) (s : State) : (s.lineStep e).sent = s.sent := by
  rcases lineStep_cases e s with h | ⟨b, -, -, -, h⟩ | ⟨b, rest, -, -, -, h⟩ | ⟨-, -, h⟩ <;> rw [h]
  · exact sent_of_silent (s := s) rfl rfl rfl
  · exact sent_of_silent (s := s) rfl rfl rfl
  · rfl

/-- A poll sends nothing. -/
@[simp] theorem sendPoll_sent (op : Op) (s : State) : (s.sendPoll op).sent = s.sent :=
  sent_of_silent rfl rfl rfl

/-- A completion sends nothing. -/
@[simp] theorem complete_sent (op : Op) (res : Option Word) (s : State) : (s.complete op res).sent = s.sent :=
  sent_of_silent rfl rfl rfl

@[simp] theorem goto_sent (op : Op) (ph : Phase) (s : State) : (s.goto op ph).sent = s.sent := rfl

@[simp] theorem sendWrite_trace (s : State) :
    s.sendWrite.trace = .busWr (s.cfg.addr .dr) (s.dp.ch.setWidth 32) :: s.trace := busWrite_trace _ _ s

/-- SEND's last step sends the character in CH, whether or not TXQ has room for it (R109, R125). -/
@[simp] theorem sendWrite_sent (s : State) : s.sendWrite.sent = s.sent ++ [s.dp.ch] := by
  rw [sent_of_trace_cons (sendWrite_trace s) (sendWrite_cfg s)]
  simp [Event.sentChar]

/-! ### SEND, over the whole state -/

/-- A send poll as a state: one read of FR, and DR is written next exactly when TXQ is not full (R105, R109). -/
theorem sendPoll_state (op : Op) (s : State) :
    s.sendPoll op = { s with
      seq := .run op (if s.per.txq.length = s.depth then .txPoll else .txWrite)
      draws := s.draws + 1
      trace := .busRd (s.cfg.addr .fr) s.frWord :: s.trace } := by
  have hflag : (if s.txff then Phase.txPoll else .txWrite) =
      if s.per.txq.length = s.depth then .txPoll else .txWrite := by
    simp [State.txff]
  rw [sendPoll_eq, hflag]
  rfl

theorem sendPoll_frame (op : Op) (s : State) : s.Frame (s.sendPoll op) := ⟨rfl, rfl, rfl, rfl, rfl, rfl⟩

@[simp] theorem sendPoll_dp (op : Op) (s : State) : (s.sendPoll op).dp = s.dp := rfl

/-- A send poll stays at the poll or goes on to the write (R109). -/
theorem sendPoll_seq (op : Op) (s : State) :
    (s.sendPoll op).seq = .run op .txPoll ∨ (s.sendPoll op).seq = .run op .txWrite := by
  rw [sendPoll_state]
  split
  · exact .inl rfl
  · exact .inr rfl

theorem sendWrite_frame (s : State) : s.Frame s.sendWrite := by
  constructor <;> simp

end Sys2Proof.Machine
end

section
/-! PROOF. The encoders ENCDEC and ENCHEX (spec/42_decimal_codec.md R165, R167, spec/43_hex_codec.md R184 to
R186): their first step, and what a whole run of one has sent. -/

namespace Sys2Proof.Machine

/-! ### The two encoders as one family -/

/-- The command encodes `n` in the base, each digit by `char` (R165, R185). -/
inductive Encoder : Instr → Word → Nat → (Nibble → Byte) → Prop where
  | decimal (n : Word) : Encoder (.encdec n) n 10 decChar
  | hexadecimal (n : Word) : Encoder (.enchex n) n 16 hexChar

section Family

variable {i : Instr} {n : Word} {base : Nat} {char : Nibble → Byte}

theorem Encoder.of_cases
    (h : (i = .encdec n ∧ base = 10 ∧ char = decChar) ∨ (i = .enchex n ∧ base = 16 ∧ char = hexChar)) :
    Encoder i n base char := by
  rcases h with ⟨rfl, rfl, rfl⟩ | ⟨rfl, rfl, rfl⟩
  · exact .decimal n
  · exact .hexadecimal n

theorem Encoder.base_eq (h : Encoder i n base char) : base = 10 ∨ base = 16 := by
  cases h
  · exact .inl rfl
  · exact .inr rfl

theorem Encoder.two_le_base (h : Encoder i n base char) : 2 ≤ base := by
  rcases h.base_eq with rfl | rfl <;> decide

theorem Encoder.exec_eq (h : Encoder i n base char) (s : State) :
    exec i s = .next (s.encoderStep i.op (BitVec.ofNat 32 base) char n) := by
  cases h <;> rfl

/-- The digits an encoder loads are nibbles, so the buffer's four bits hold them. -/
theorem Encoder.digit_toNat (h : Encoder i n base char) {d m : Nat} (hd : d ∈ digitList base m) :
    (BitVec.ofNat 4 d).toNat = d := by
  have hlt := digitList_lt_base h.two_le_base hd
  rw [BitVec.toNat_ofNat]
  rcases h.base_eq with rfl | rfl <;> omega

/-- A number has at least one digit, so the buffer is not empty after an encoder's start. -/
theorem Encoder.loaded_dcnt_ne_zero (h : Encoder i n base char) (r : Datapath) :
    (r.loadNumber (BitVec.ofNat 32 base) n).dcnt ≠ 0#4 := fun h0 => by
  have hload := Datapath.loadNumber_dcnt_toNat h.base_eq n r
  rw [h0] at hload
  exact digitList_ne_nil base n.toNat (List.length_eq_zero_iff.1 hload.symm)

/-- An encoder's first step takes the most significant digit: one entry less than the operand has digits
remains (R165). -/
theorem Encoder.first_dcnt (h : Encoder i n base char) (r : Datapath) :
    ((r.loadNumber (BitVec.ofNat 32 base) n).popDigit char).dcnt.toNat + 1 = (digitList base n.toNat).length := by
  have hpos := List.length_pos_of_ne_nil (digitList_ne_nil base n.toNat)
  rw [Datapath.popDigit_dcnt_toNat char (h.loaded_dcnt_ne_zero r), Datapath.loadNumber_dcnt_toNat h.base_eq]
  omega

end Family

/-! ### The first step -/

/-- Settles O43: the digit loop leaves the digit list in the buffer, and taking its last entry leaves DCNT at
that entry's place. -/
theorem encodersStartWithTheirDigits : Obligations.EncodersStartWithTheirDigits := by
  intro s n i base char hcases hseq
  have henc := Encoder.of_cases hcases
  have hb := henc.two_le_base
  obtain ⟨hzero, hfits, -⟩ := Datapath.loadNumber_spec henc.base_eq n s.dp
  have hload := Datapath.loadNumber_dcnt_toNat henc.base_eq n s.dp
  have hfirst := henc.first_dcnt s.dp
  have hframe := Datapath.loadNumber_frame (BitVec.ofNat 32 base) n s.dp
  have hstep := (henc.exec_eq s).trans (congrArg _ (encoderStep_start hseq))
  have hentry := fun k => Datapath.loadNumber_entry henc.base_eq n s.dp (k := k)
  generalize s.dp.loadNumber (BitVec.ofNat 32 base) n = r at *
  have hlt : (r.popDigit char).dcnt.toNat < 10 := by omega
  refine ⟨(r.popDigit char).dcnt, r.dbuf, hlt, ?step, ?upper, ?lower, fun k hk hkl => ?entry⟩
  case step =>
    have hdp : r.popDigit char = { s.dp with
        n := 0#32
        dcnt := (r.popDigit char).dcnt
        dbuf := r.dbuf
        ch := char r.dbuf[(r.popDigit char).dcnt.toNat] } := by
      rw [← Datapath.popDigit_ch hlt, ← hzero]
      exact congrArg (Datapath.popDigit char) hframe
    rw [hstep, ← hdp, sendPoll_state]
    rfl
  case upper => exact (digitList_length_le_iff hb (by omega)).1 hfirst.ge
  case lower =>
    by_cases h0 : (r.popDigit char).dcnt.toNat = 0
    · exact .inl (BitVec.eq_of_toNat_eq h0)
    · refine .inr (not_lt.1 fun hn => ?_)
      have := (digitList_length_le_iff hb (by omega)).2 hn
      omega
  case entry =>
    have hdigit : n.toNat / base ^ k % base < base := Nat.mod_lt _ (by omega)
    rw [hentry k (by omega) hk, BitVec.toNat_ofNat, Nat.mod_eq_of_lt]
    rcases henc.base_eq with rfl | rfl <;> omega

/-! ### The characters of a number -/

/-- The characters of the digits of `n`, most significant first: what an encoder sends (R165, R185). -/
def digitChars (base : Nat) (char : Nibble → Byte) (n : Word) : List Byte :=
  ((digitList base n.toNat).map fun d => char (BitVec.ofNat 4 d)).reverse

/-- The characters of the digits still in the buffer, in the order they are sent. -/
def Datapath.toSend (char : Nibble → Byte) (r : Datapath) : List Byte := (r.held.map char).reverse

/-- With no digit left nothing is to be sent. -/
theorem Datapath.toSend_of_dcnt_zero (char : Nibble → Byte) {r : Datapath} (h : r.dcnt = 0#4) : r.toSend char = [] := by
  simp [toSend, held, h]

/-- Taking a digit moves the next character to be sent into CH (R29, R165). -/
theorem Datapath.toSend_popDigit (char : Nibble → Byte) {r : Datapath} (h0 : r.dcnt ≠ 0#4)
    (h10 : r.dcnt.toNat ≤ 10) :
    (r.popDigit char).ch :: (r.popDigit char).toSend char = r.toSend char := by
  obtain ⟨d, hheld, hch⟩ := held_popDigit char h0 h10
  simp [toSend, hheld, hch]

theorem Datapath.toSend_loadNumber {base : Nat} (hb : base = 10 ∨ base = 16) (char : Nibble → Byte) (n : Word)
    (r : Datapath) : (r.loadNumber (BitVec.ofNat 32 base) n).toSend char = digitChars base char n := by
  obtain ⟨-, -, hheld⟩ := loadNumber_spec hb n r
  rw [toSend, hheld, List.map_map]
  rfl

/-! ### A run of an encoder -/

section Run

variable {i : Instr} {n : Word} {base : Nat} {char : Nibble → Byte} {before : List Byte}

/-- How far an encoder has come that found the characters `before` sent: it has yet to start; CH and the
buffer hold what is still to be sent; or it has ended. -/
inductive EncoderProgress (i : Instr) (n : Word) (base : Nat) (char : Nibble → Byte) (before : List Byte)
    (s : State) : Prop where
  | starting (hseq : s.seq = .run i.op .start) (hsent : s.sent = before)
  | sending (hseq : s.seq = .run i.op .txPoll ∨ s.seq = .run i.op .txWrite) (hfits : s.dp.dcnt.toNat ≤ 10)
      (hsent : s.sent ++ s.dp.ch :: s.dp.toSend char = before ++ digitChars base char n)
  | ended (hseq : s.seq = .idle) (hsent : s.sent = before ++ digitChars base char n)

/-- The other agents do not move an encoder on. -/
theorem EncoderProgress.congr {s t : State} (h : EncoderProgress i n base char before s) (hseq : t.seq = s.seq)
    (hdp : t.dp = s.dp) (hsent : t.sent = s.sent) : EncoderProgress i n base char before t := by
  cases h with
  | starting hs hb => exact .starting (hseq.trans hs) (hsent.trans hb)
  | sending hs hf hb => exact .sending (by rwa [hseq]) (by rwa [hdp]) (by rwa [hsent, hdp])
  | ended hs hb => exact .ended (hseq.trans hs) (hsent.trans hb)

/-- An engine step of an encoder moves it on, and keeps what every step without an issue keeps (R165, R185). -/
theorem EncoderProgress.encoderStep {s : State} (hi : Encoder i n base char)
    (h : EncoderProgress i n base char before s) (hrun : s.seq ≠ .idle) :
    s.Frame (s.encoderStep i.op (BitVec.ofNat 32 base) char n) ∧
    EncoderProgress i n base char before (s.encoderStep i.op (BitVec.ofNat 32 base) char n) := by
  cases h with
  | starting hseq hsent =>
    obtain ⟨-, hfits, -⟩ := Datapath.loadNumber_spec hi.base_eq n s.dp
    have hne := hi.loaded_dcnt_ne_zero s.dp
    have hpop := Datapath.popDigit_dcnt_toNat char hne
    have hpopped : ((s.dp.loadNumber (BitVec.ofNat 32 base) n).popDigit char).dcnt.toNat ≤ 10 := by omega
    rw [encoderStep_start hseq]
    refine ⟨⟨rfl, rfl, rfl, rfl, rfl, rfl⟩, .sending (sendPoll_seq _ _) hpopped ?_⟩
    rw [sendPoll_sent, sendPoll_dp, Datapath.toSend_popDigit char hne hfits,
      Datapath.toSend_loadNumber hi.base_eq, ← hsent]
    rfl
  | sending hseq hfits hsent =>
    rcases hseq with hpoll | hwrite
    · rw [encoderStep_txPoll hpoll]
      exact ⟨sendPoll_frame _ _, .sending (sendPoll_seq _ _) hfits (by rwa [sendPoll_sent])⟩
    · rw [encoderStep_txWrite hwrite]
      obtain ⟨hmode, hfault, hcmd, hmem, hcfg, hagenda⟩ := sendWrite_frame s
      rw [← List.singleton_append, ← List.append_assoc, ← sendWrite_sent, ← sendWrite_dp] at hsent
      split
      next h0 =>
        rw [Datapath.toSend_of_dcnt_zero char h0, List.append_nil] at hsent
        exact ⟨⟨hmode, hfault, hcmd, hmem, hcfg, hagenda⟩, .ended rfl (by rwa [complete_sent])⟩
      next hne =>
        rw [← sendWrite_dp] at hfits
        refine ⟨⟨hmode, hfault, hcmd, hmem, hcfg, hagenda⟩, .sending (.inl rfl) ?_ ?_⟩
        · rw [State.goto_dp, Datapath.popDigit_dcnt_toNat char hne]
          omega
        · rw [goto_sent, State.goto_dp, Datapath.toSend_popDigit char hne hfits]
          exact hsent
  | ended hseq => exact absurd hseq hrun

/-- A run of an encoder under any schedule without an issue (R124): the schedule stays without one, CMD keeps
the command, and the command is somewhere in its progress. -/
structure EncoderRun (i : Instr) (n : Word) (base : Nat) (char : Nibble → Byte) (before : List Byte)
    (s : State) : Prop where
  unissued : s.unissued
  command : decode s.cmd = .ok i
  progress : EncoderProgress i n base char before s

theorem EncoderRun.of_frame {s t : State} (h : EncoderRun i n base char before s) (hf : s.Frame t)
    (hp : EncoderProgress i n base char before t) : EncoderRun i n base char before t :=
  ⟨hf.unissued h.unissued, hf.cmd ▸ h.command, hp⟩

theorem EncoderRun.takeTurn {s : State} (h : EncoderRun i n base char before s) :
    EncoderRun i n base char before s.takeTurn :=
  ⟨h.unissued.takeTurn, h.command, h.progress.congr rfl rfl rfl⟩

theorem EncoderRun.step {s t : State} (hi : Encoder i n base char) (h : EncoderRun i n base char before s)
    (hstep : step s = .next t) : EncoderRun i n base char before t := by
  rcases step_unissued_cases h.unissued hstep with ⟨j, hcur, hexec⟩ | ⟨-, rfl⟩ | ⟨e, rfl⟩
  · obtain ⟨-, ⟨op, ph, hseq⟩, hdecode⟩ := current_eq_some.1 hcur
    obtain rfl : i = j := Except.ok.inj (h.command.symm.trans hdecode)
    rw [hi.exec_eq] at hexec
    obtain rfl := Host.Outcome.next.inj hexec
    obtain ⟨hf, hp⟩ := h.takeTurn.progress.encoderStep hi (by simp [hseq])
    exact h.takeTurn.of_frame hf hp
  · exact h.takeTurn
  · exact h.takeTurn.of_frame (lineStep_frame e _)
      (h.takeTurn.progress.congr (lineStep_seq e _) (lineStep_dp e _) (lineStep_sent e _))

/-- Whatever the schedule, an encoder that has ended has sent the characters of its operand's digits (R165,
R185). -/
theorem Encoder.sent_of_ended {s t : State} {k : Nat} (hi : Encoder i n base char) (hs : s.unissued)
    (hstarted : s.started i) (hrun : runs k s t) (hidle : t.seq = .idle) :
    t.sent = s.sent ++ digitChars base char n := by
  obtain ⟨hseq, hcmd⟩ := hstarted
  have hend : EncoderRun i n base char s.sent t :=
    runs_induction (fun _ _ => EncoderRun.step hi) ⟨hs, hcmd, .starting hseq rfl⟩ hrun
  cases hend.progress with
  | starting hseq' => rw [hidle] at hseq'; cases hseq'
  | sending hseq' => rcases hseq' with h | h <;> rw [hidle] at h <;> cases h
  | ended _ hsent => exact hsent

end Run

/-! ### The shape of the characters -/

/-- The characters R165 gives the ten digits are '0' to '9'. -/
theorem decChar_range : ∀ d : Nibble, d < 10#4 → 0x30#8 ≤ decChar d ∧ decChar d ≤ 0x39#8 := by decide

/-- The characters R184 gives the sixteen digits are '0' to '9' and the uppercase 'A' to 'F'. -/
theorem hexChar_range : ∀ d : Nibble, (0x30#8 ≤ hexChar d ∧ hexChar d ≤ 0x39#8) ∨
    (0x41#8 ≤ hexChar d ∧ hexChar d ≤ 0x46#8) := by decide

section Shape

variable {i : Instr} {n : Word} {base : Nat} {char : Nibble → Byte}

/-- Only the digit 0 has the character '0' (R165, R184). -/
theorem Encoder.char_eq_zero_iff (hi : Encoder i n base char) (d : Nibble) : char d = 0x30#8 ↔ d = 0#4 := by
  revert d
  cases hi <;> decide

theorem digitChars_length : (digitChars base char n).length = (digitList base n.toNat).length := by
  simp [digitChars]

theorem Encoder.digitChars_zero (hi : Encoder i 0#32 base char) : digitChars base char 0#32 = [0x30#8] := by
  rw [digitChars, show digitList base (0#32).toNat = [0] from rfl, List.map_singleton, List.reverse_singleton,
    (hi.char_eq_zero_iff _).2 rfl]

/-- The first character is that of the most significant digit, which is not 0. -/
theorem Encoder.digitChars_head? (hi : Encoder i n base char) (hn : n ≠ 0#32) :
    (digitChars base char n).head? ≠ some 0x30#8 := by
  have hn' : n.toNat ≠ 0 := fun h => hn (BitVec.eq_of_toNat_eq h)
  have hne := digitList_ne_nil base n.toNat
  rw [digitChars, List.head?_reverse, List.getLast?_map, List.getLast?_eq_getLast_of_ne_nil hne, Option.map_some]
  intro h
  have hzero := congrArg BitVec.toNat ((hi.char_eq_zero_iff _).1 (Option.some.inj h))
  rw [hi.digit_toNat (List.getLast_mem hne)] at hzero
  exact digitList_getLast_ne_zero base hn' hzero

theorem Encoder.digitChars_range (hi : Encoder i n base char) {c : Byte} (hc : c ∈ digitChars base char n) :
    (0x30#8 ≤ c ∧ c ≤ 0x39#8) ∨ (base = 16 ∧ 0x41#8 ≤ c ∧ c ≤ 0x46#8) := by
  obtain ⟨d, hd, rfl⟩ := List.mem_map.1 (List.mem_reverse.1 hc)
  have hlt := digitList_lt_base hi.two_le_base hd
  have hnat := hi.digit_toNat hd
  cases hi with
  | decimal => exact .inl (decChar_range _ (by rwa [BitVec.lt_def, hnat]))
  | hexadecimal => exact (hexChar_range _).imp_right fun h => ⟨rfl, h⟩

end Shape

/-- Settles O55: a run sends the characters of the operand's digits, whose number and first one the library's
`Nat.digits` gives. -/
theorem encodingsHaveNoLeadingZero : Obligations.EncodingsHaveNoLeadingZero := by
  intro s t k n i base limit hcases hs hstarted hrun hidle
  obtain ⟨char, hi, hlimit, hpow⟩ : ∃ char, Encoder i n base char ∧ 1 ≤ limit ∧ 2 ^ 32 ≤ base ^ limit := by
    rcases hcases with ⟨rfl, rfl, rfl⟩ | ⟨rfl, rfl, rfl⟩
    · exact ⟨_, .decimal n, by decide, by decide⟩
    · exact ⟨_, .hexadecimal n, by decide, by decide⟩
  refine ⟨digitChars base char n, hi.sent_of_ended hs hstarted hrun hidle, ?_, ?_, fun hn => ⟨?_, ?_⟩, ?_⟩
  · rw [digitChars_length]
    exact (digitList_length_le_iff hi.two_le_base hlimit).2 (n.isLt.trans_le hpow)
  · rintro rfl
    exact hi.digitChars_zero
  · rw [digitChars_length, digitList_of_ne_zero base fun h => hn (BitVec.eq_of_toNat_eq h)]
  · exact hi.digitChars_head? hn
  · exact fun c => hi.digitChars_range

end Sys2Proof.Machine
end

section
/-! PROOF. What a step leaves alone (spec/10_state.md R21, R24, R44, R131): the control registers, the launch
parameters and data memory, along every engine step, and everything but the FIFOs and PR_GPIO once the engine
is halted. -/

namespace Sys2Proof.Machine

/-! ### The engine steps that change neither MODE, FAULT nor memory -/

section Frame

variable {s t u : State}

theorem State.Frame.refl (s : State) : s.Frame s := ⟨rfl, rfl, rfl, rfl, rfl, rfl⟩

theorem State.Frame.trans (h : s.Frame t) (h' : t.Frame u) : s.Frame u :=
  ⟨h'.mode.trans h.mode, h'.fault.trans h.fault, h'.cmd.trans h.cmd, h'.mem.trans h.mem, h'.cfg.trans h.cfg,
    h'.agenda.trans h.agenda⟩

theorem State.Frame.goto (h : s.Frame t) (op : Op) (ph : Phase) : s.Frame (t.goto op ph) :=
  h.trans ⟨rfl, rfl, rfl, rfl, rfl, rfl⟩

theorem State.Frame.complete (h : s.Frame t) (op : Op) (res : Option Word) : s.Frame (t.complete op res) :=
  h.trans ⟨rfl, rfl, rfl, rfl, rfl, rfl⟩

theorem State.Frame.withDp (h : s.Frame t) (r : Datapath) : s.Frame { t with dp := r } :=
  h.trans ⟨rfl, rfl, rfl, rfl, rfl, rfl⟩

theorem State.Frame.recvPoll (h : s.Frame t) (op : Op) : s.Frame (t.recvPoll op) :=
  h.trans ⟨rfl, rfl, rfl, rfl, rfl, rfl⟩

theorem State.Frame.sendPoll (h : s.Frame t) (op : Op) : s.Frame (t.sendPoll op) := h.trans (sendPoll_frame op t)

theorem recvRead_frame (s : State) : s.Frame s.recvRead := by
  constructor <;> simp

theorem State.Frame.applyDecode (h : s.Frame t) (op : Op) (a : DecodeAct) : s.Frame (t.applyDecode op a) := by
  cases a with
  | finish => exact h.complete _ _
  | echo r => exact (h.withDp r).goto _ _
  | ignore => exact h.goto _ _

theorem State.Frame.applyLine (h : s.Frame t) (a : LineAct) : s.Frame (t.applyLine a) := by
  cases a with
  | terminate => exact h.goto _ _
  | erase => exact (h.withDp _).goto _ _
  | store => exact h.goto _ _
  | drop => exact h.goto _ _

end Frame

section Commands

variable (s : State)

theorem decoderStep_frame (op : Op) (base : Word) (digit : Byte → Option Word) :
    s.Frame (s.decoderStep op base digit) := by
  unfold State.decoderStep
  split
  · exact (State.Frame.refl s).recvPoll op
  · exact (recvRead_frame s).applyDecode op _
  · exact sendPoll_frame op s
  · exact (sendWrite_frame s).goto op _
  · exact ((State.Frame.refl s).withDp _).recvPoll op

theorem encoderStep_frame (op : Op) (base : Word) (char : Nibble → Byte) (n : Word) :
    s.Frame (s.encoderStep op base char n) := by
  unfold State.encoderStep
  split
  · exact sendPoll_frame op s
  · dsimp only
    split
    · exact (sendWrite_frame s).complete op _
    · exact ((sendWrite_frame s).withDp _).goto op _
  · exact ((State.Frame.refl s).withDp _).sendPoll op

theorem initRead_frame (r : Reg) (next : InitPos) : s.Frame (s.initRead r next) := by
  constructor <;> simp [State.initRead]

theorem initWrite_frame (r : Reg) (x : Word) (next : InitPos) : s.Frame (s.initWrite r x next) := by
  constructor <;> simp [State.initWrite]

/-- INIT's steps before its last leave MODE alone (R133). -/
theorem initStep_frame {p : InitPos} (hp : p ≠ .wrAmsel) : s.Frame (s.initStep p) := by
  cases p with
  | wrAmsel => exact absurd rfl hp
  | pollPr => exact ⟨rfl, rfl, rfl, rfl, rfl, rfl⟩
  | rdRcgcGpio | rdCtlOff | rdCtlOn | rdAfsel | rdDen | rdPctl | rdAmsel => exact initRead_frame s _ _
  | _ => exact initWrite_frame s _ _ _

/-- A step raises MemRefused, with no other change but to the datapath (R66, R67, R222). -/
def State.RaisesMemRefused (s t : State) : Prop :=
  ∃ r a, t = ({ s with dp := r } : State).raise (.memRefused a)

theorem readStringByte_frame (r : Datapath) :
    s.Frame ({ s with dp := r } : State).readStringByte ∨
      s.RaisesMemRefused ({ s with dp := r } : State).readStringByte := by
  rcases readStringByte_cases { s with dp := r } with ⟨-, h⟩ | ⟨-, -, h⟩ | ⟨-, -, h⟩
  · exact .inr ⟨r, _, h⟩
  · exact .inl (h ▸ ⟨rfl, rfl, rfl, rfl, rfl, rfl⟩)
  · exact .inl (h ▸ ⟨rfl, rfl, rfl, rfl, rfl, rfl⟩)

/-- Away from an operation's start, the phase it is at is SEQ's. -/
theorem seq_of_phaseIn {op : Op} {ph : Phase} (h : s.phaseIn op = ph) (hph : ph ≠ .start) : s.seq = .run op ph := by
  unfold State.phaseIn at h
  split at h
  · exact absurd h.symm hph
  next o ph' hseq =>
    split at h
    next ho => rw [hseq, ho, h]
    next => exact absurd h.symm hph

/-! ### One engine step, command by command -/

theorem execInit_cases :
    (∃ t, execInit s = .next t ∧ s.Frame t) ∨
    (s.seq = .run .init (.init .wrAmsel) ∧ execInit s = .next (s.initStep .wrAmsel)) := by
  unfold execInit
  split
  next p hp =>
    by_cases hlast : p = .wrAmsel
    · subst hlast
      exact .inr ⟨seq_of_phaseIn s hp nofun, rfl⟩
    · exact .inl ⟨_, rfl, initStep_frame s hlast⟩
  next => exact .inl ⟨_, rfl, initRead_frame s _ _⟩

theorem execRxchar_frame : ∃ t, execRxchar s = .next t ∧ s.Frame t := by
  unfold execRxchar
  split
  · exact ⟨_, rfl, (recvRead_frame s).complete _ _⟩
  · exact ⟨_, rfl, (State.Frame.refl s).recvPoll _⟩

theorem execTxchar_frame (c : Byte) : ∃ t, execTxchar c s = .next t ∧ s.Frame t := by
  unfold execTxchar
  split
  · exact ⟨_, rfl, sendPoll_frame _ s⟩
  · exact ⟨_, rfl, (sendWrite_frame s).complete _ _⟩
  · exact ⟨_, rfl, ((State.Frame.refl s).withDp _).sendPoll _⟩

theorem execTxstr_cases (a : Word) : ∃ t, execTxstr a s = .next t ∧ (s.Frame t ∨ s.RaisesMemRefused t) := by
  unfold execTxstr
  split
  · exact ⟨_, rfl, readStringByte_frame s s.dp⟩
  · exact ⟨_, rfl, .inl (sendPoll_frame _ s)⟩
  · exact ⟨_, rfl, .inl (((sendWrite_frame s).withDp _).goto _ _)⟩
  · exact ⟨_, rfl, readStringByte_frame s _⟩

/-- RDLINE's store and its terminator change memory; its other steps do not (R201). -/
theorem execRdline_cases (a : Word) (max : Half) :
    ∃ t, execRdline a max s = .next t ∧ (s.RaisesMemRefused t ∨ s.Frame { t with mem := s.mem }) := by
  have inFrame {t : State} (h : s.Frame t) : s.Frame { t with mem := s.mem } :=
    ⟨h.mode, h.fault, h.cmd, rfl, h.cfg, h.agenda⟩
  unfold execRdline
  split
  · exact ⟨_, rfl, .inr (inFrame ((State.Frame.refl s).recvPoll _))⟩
  · exact ⟨_, rfl, .inr (inFrame ((recvRead_frame s).applyLine _))⟩
  · refine ⟨_, rfl, ?_⟩
    rcases storeLineChar_cases s with ⟨-, h⟩ | ⟨-, h⟩
    · exact .inl ⟨s.dp, _, h⟩
    · exact .inr (h ▸ ⟨rfl, rfl, rfl, rfl, rfl, rfl⟩)
  · refine ⟨_, rfl, ?_⟩
    rcases terminateLine_cases s with ⟨-, h⟩ | ⟨-, h⟩
    · exact .inl ⟨s.dp, _, h⟩
    · exact .inr (h ▸ ⟨rfl, rfl, rfl, rfl, rfl, rfl⟩)
  · exact ⟨_, rfl, .inr (inFrame (sendPoll_frame _ s))⟩
  · exact ⟨_, rfl, .inr (inFrame ((sendWrite_frame s).goto _ _))⟩
  · exact ⟨_, rfl, .inr (inFrame (((State.Frame.refl s).withDp _).recvPoll _))⟩

end Commands

/-- What one engine step can change of MODE, FAULT, CMD, memory, the configuration and the schedule: nothing;
FAULT, by raising MemRefused; MODE, in INIT's last step; or memory, in a step of RDLINE. -/
theorem exec_cases {i : Instr} {s t : State} (h : exec i s = .next t) :
    s.Frame t ∨ s.RaisesMemRefused t ∨
    (i = .init ∧ s.seq = .run .init (.init .wrAmsel) ∧ t = s.initStep .wrAmsel) ∨
    ∃ a max, i = .rdline a max ∧ s.Frame { t with mem := s.mem } := by
  have next_eq {u : State} (hu : exec i s = .next u) : u = t := Host.Outcome.next.inj (hu.symm.trans h)
  cases i with
  | init =>
    rcases execInit_cases s with ⟨u, hu, hf⟩ | ⟨hseq, hu⟩
    · exact .inl (next_eq hu ▸ hf)
    · exact .inr (.inr (.inl ⟨rfl, hseq, (next_eq hu).symm⟩))
  | rxchar =>
    obtain ⟨u, hu, hf⟩ := execRxchar_frame s
    exact .inl (next_eq hu ▸ hf)
  | txchar c =>
    obtain ⟨u, hu, hf⟩ := execTxchar_frame s c
    exact .inl (next_eq hu ▸ hf)
  | txstr a =>
    obtain ⟨u, hu, hf⟩ := execTxstr_cases s a
    exact (next_eq hu ▸ hf).imp_right .inl
  | decdec => exact .inl (next_eq rfl ▸ decoderStep_frame s _ _ _)
  | encdec n => exact .inl (next_eq rfl ▸ encoderStep_frame s _ _ _ n)
  | dechex => exact .inl (next_eq rfl ▸ decoderStep_frame s _ _ _)
  | enchex n => exact .inl (next_eq rfl ▸ encoderStep_frame s _ _ _ n)
  | rdline a max =>
    obtain ⟨u, hu, hr | hf⟩ := execRdline_cases s a max
    · exact .inr (.inl (next_eq hu ▸ hr))
    · exact .inr (.inr (.inr ⟨a, max, rfl, next_eq hu ▸ hf⟩))

/-! ### The host's issue -/

/-- An issue changes no register of the datapath, the peripheral or memory, and neither MODE nor the
configuration (R90). -/
theorem issue_frame (w : Command) (s : State) :
    (s.issue w).mode = s.mode ∧ (s.issue w).dp = s.dp ∧ (s.issue w).per = s.per ∧ (s.issue w).mem = s.mem ∧
    (s.issue w).cfg = s.cfg := by
  rcases issue_cases w s with ⟨-, h⟩ | ⟨-, -, h⟩ | ⟨-, -, -, h⟩ | ⟨-, -, _, -, -, -, h⟩ | ⟨-, -, _, -, -, h⟩ <;>
    rw [h] <;> exact ⟨rfl, rfl, rfl, rfl, rfl⟩

/-! ### MODE, memory and the configuration along a step -/

/-- INIT's last step makes the engine READY and posts the completion (R133). -/
theorem initStep_last (s : State) :
    (s.initStep .wrAmsel).mode = .ready ∧ (s.initStep .wrAmsel).seq = .idle ∧
    (s.initStep .wrAmsel).completions = s.completions ++ [(.init, none)] := by
  refine ⟨rfl, rfl, ?_⟩
  simp [State.initStep, State.completions, State.events]
  rfl

/-- Settles O14: of all steps only INIT's last leaves the frame of MODE. -/
theorem onlyInitMakesTheEngineReady : Obligations.OnlyInitMakesTheEngineReady := by
  intro s t hstep hmode
  obtain ⟨-, ⟨-, i, hcur, hexec⟩ | ⟨-, -, rfl⟩ | ⟨e, -, rfl⟩ | ⟨w, -, rfl⟩⟩ := step_next_cases hstep
  · rcases exec_cases hexec with hf | ⟨r, a, rfl⟩ | ⟨rfl, hseq, rfl⟩ | ⟨a, max, -, hf⟩
    · exact absurd hf.mode hmode
    · exact absurd rfl hmode
    · obtain ⟨hready, hidle, hdone⟩ := initStep_last s.takeTurn
      obtain ⟨hfault, -, -⟩ := current_eq_some.1 hcur
      have huninit : s.mode = .uninit := by
        cases hm : s.mode with
        | uninit => rfl
        | ready => exact absurd (hready.trans hm.symm) hmode
      exact ⟨huninit, hready, hfault, hcur, hseq, hidle, hdone⟩
    · exact absurd hf.mode hmode
  · exact absurd rfl hmode
  · exact absurd (lineStep_frame e s.takeTurn).mode hmode
  · exact absurd (issue_frame w s.takeTurn).1 hmode

/-- Settles O15: of all steps only those of RDLINE leave the frame of memory. -/
theorem onlyRdlineWritesDataMemory : Obligations.OnlyRdlineWritesDataMemory := by
  intro s t hstep
  obtain ⟨-, ⟨-, i, hcur, hexec⟩ | ⟨-, -, rfl⟩ | ⟨e, -, rfl⟩ | ⟨w, -, rfl⟩⟩ := step_next_cases hstep
  · rcases exec_cases hexec with hf | ⟨r, a, rfl⟩ | ⟨rfl, hseq, rfl⟩ | ⟨a, max, rfl, hf⟩
    · exact ⟨hf.cfg, fun hmem => absurd hf.mem hmem⟩
    · exact ⟨rfl, fun hmem => absurd rfl hmem⟩
    · exact ⟨rfl, fun hmem => absurd rfl hmem⟩
    · obtain ⟨hfault, -, -⟩ := current_eq_some.1 hcur
      exact ⟨hf.cfg, fun _ => ⟨hfault, a, max, hcur⟩⟩
  · exact ⟨rfl, fun hmem => absurd rfl hmem⟩
  · have hf := lineStep_frame e s.takeTurn
    exact ⟨hf.cfg, fun hmem => absurd hf.mem hmem⟩
  · obtain ⟨-, -, -, hmem, hcfg⟩ := issue_frame w s.takeTurn
    exact ⟨hcfg, fun h => absurd hmem h⟩

/-- Settles O16, by evaluation of the reset state. -/
theorem resetLeavesTheEngineIdle : Obligations.ResetLeavesTheEngineIdle := ⟨rfl, rfl, rfl⟩

/-! ### The halted engine (R24, R222) -/

/-- A halted engine ignores an issue, which is only observed (R90, R222). -/
theorem issue_of_halted {s : State} (w : Command) (h : s.fault ≠ none) : s.issue w = s.record (.issue w) := by
  rcases issue_cases w s with ⟨-, hw⟩ | ⟨hn, -⟩ | ⟨hn, -⟩ | ⟨hn, -⟩ | ⟨hn, -⟩
  · exact hw
  all_goals exact absurd hn h

/-- A turn of the line environment changes nothing but the FIFOs, PR_GPIO and the events observed, and adds
no event of the engine (R120 to R122). -/
theorem lineStep_state (e : LineStep) (s : State) :
    ∃ rx tx pr l, s.lineStep e =
      { s with per := { s.per with rxq := rx, txq := tx, prGpio := pr }, trace := l ++ s.trace } ∧
      l.filter Event.isEngine = [] := by
  rcases lineStep_cases e s with h | ⟨b, -, -, -, h⟩ | ⟨b, rest, -, -, -, h⟩ | ⟨-, -, h⟩
  · exact ⟨_, _, _, [], h, rfl⟩
  · exact ⟨_, _, _, [.rxIn b], h, rfl⟩
  · exact ⟨_, _, _, [.txOut b], h, rfl⟩
  · exact ⟨_, _, _, [], h, rfl⟩

/-- Settles O11: a halted engine has no command in hand, an issue is only observed, and the line environment
reaches only the FIFOs and PR_GPIO. -/
theorem aHaltedEngineTakesNoStep : Obligations.AHaltedEngineTakesNoStep := by
  intro s t r hfault hstep
  have hhalted : s.fault ≠ none := by simp [hfault]
  obtain ⟨-, ⟨-, i, hcur, -⟩ | ⟨-, -, rfl⟩ | ⟨e, hturn, rfl⟩ | ⟨w, hturn, rfl⟩⟩ := step_next_cases hstep
  · rw [current_eq_none_of_idle_or_halted (.inr hhalted)] at hcur
    cases hcur
  · exact ⟨fun _ => rfl, hfault, rfl, rfl, rfl, rfl, rfl, rfl, rfl, ⟨_, _, _, rfl⟩, rfl⟩
  · obtain ⟨rx, tx, pr, l, hline, hl⟩ := lineStep_state e s.takeTurn
    rw [hline]
    refine ⟨fun h => ?_, hfault, rfl, rfl, rfl, rfl, rfl, rfl, rfl, ⟨rx, tx, pr, rfl⟩, ?_⟩
    · rw [hturn] at h
      cases h
    · simp [State.events, List.filter_reverse, hl]
  · rw [issue_of_halted (s := s.takeTurn) w hhalted]
    refine ⟨fun h => ?_, hfault, rfl, rfl, rfl, rfl, rfl, rfl, rfl, ⟨_, _, _, rfl⟩, ?_⟩
    · rw [hturn] at h
      cases h
    · simp [State.events, Event.isEngine]

end Sys2Proof.Machine
end

section
/-! PROOF. Every step keeps the invariant `State.Inv`: what it asks at one position of one operation, and that
each agent's step keeps it (spec/10_state.md R22, R28, R42, spec/40_register_interface.md R110, R111). -/

namespace Sys2Proof.Machine

/-! ### The invariant, position by position -/

/-- What the invariant asks of memory and the peripheral, whatever the engine is at (R41, R42, R62). -/
structure State.Sound (s : State) : Prop where
  memory : Memory.wf s.mem = true
  rxFits : s.per.rxq.length ≤ s.depth
  txFits : s.per.txq.length ≤ s.depth
  gated : s.per.prGpio &&& ~~~s.per.rcgcGpio = 0#32

/-- What the invariant asks while the operation runs, at whichever position (R25, R130). -/
structure State.Serves (s : State) (op : Op) : Prop where
  sound : s.Sound
  command : ∃ i, decode s.cmd = .ok i ∧ i.op = op
  ready : op ≠ .init → s.mode = .ready

/-- The FIFOs are as the access at the position needs them: a character to read, room to write (R110, R111). -/
def State.fifosReady (s : State) : Phase → Prop
  | .rxRead => s.per.rxq ≠ []
  | .txWrite => s.per.txq.length < s.depth
  | _ => True

/-- BUFA and MAXL hold RDLINE's operands, and LEN is within MAXL (R28, R200, R201). -/
def State.lineOpen (s : State) : Prop :=
  s.dp.bufa = fieldA s.cmd ∧ s.dp.maxl = fieldMAX s.cmd ∧ s.dp.len ≤ s.dp.maxl

/-- What the datapath holds for the operation at the position: INIT's value of the register it modifies (R75),
RDLINE's line with room before a store (R200), an encoder's digits within the buffer (R29). -/
def State.registers (s : State) : Op → Phase → Prop
  | .init, ph => ∀ p r, ph = .init p → p.modifies = some r → s.dp.v = s.per.stored r
  | .rdline, ph => ph ≠ .start → s.lineOpen ∧ (ph = .lineStore → s.dp.len < s.dp.maxl)
  | .encdec, ph => ph ≠ .start → s.dp.dcnt < 10#4
  | .enchex, ph => ph ≠ .start → s.dp.dcnt < 10#4
  | _, _ => True

/-- What the invariant asks at a position of an operation. -/
structure State.At (s : State) (op : Op) (ph : Phase) : Prop where
  serves : s.Serves op
  legal : op.hasPhase ph = true
  fifos : s.fifosReady ph
  registers : s.registers op ph

/-- The invariant says what it asks of memory and the peripheral, and what it asks at the position SEQ holds. -/
theorem inv_iff {s : State} : s.Inv ↔ s.Sound ∧ ∀ op ph, s.seq = .run op ph → s.At op ph := by
  constructor
  · intro h
    have hsound : s.Sound := ⟨h.memory, h.rxFits, h.txFits, h.gated⟩
    refine ⟨hsound, fun op ph hseq =>
      ⟨⟨hsound, h.command op ph hseq, h.ready op ph hseq⟩, h.legal op ph hseq, ?fifos, ?registers⟩⟩
    case fifos =>
      cases ph with
      | rxRead => exact h.rxReady op hseq
      | txWrite => exact h.txReady op hseq
      | _ => trivial
    case registers =>
      cases op with
      | init => exact fun p r hp => h.held p r (hp ▸ hseq)
      | rdline => exact fun hph => ⟨h.line ph hseq hph, fun hst => h.lineRoom (hst ▸ hseq)⟩
      | encdec => exact h.digits _ ph hseq (.inl rfl)
      | enchex => exact h.digits _ ph hseq (.inr rfl)
      | _ => trivial
  · rintro ⟨hsound, hat⟩
    exact {
      memory := hsound.memory
      rxFits := hsound.rxFits
      txFits := hsound.txFits
      gated := hsound.gated
      rxReady := fun op h => (hat op _ h).fifos
      txReady := fun op h => (hat op _ h).fifos
      held := fun p r h => (hat _ _ h).registers p r rfl
      command := fun op ph h => (hat op ph h).serves.command
      legal := fun op ph h => (hat op ph h).legal
      ready := fun op ph h => (hat op ph h).serves.ready
      line := fun ph h hph => ((hat _ ph h).registers hph).1
      lineRoom := fun h => ((hat _ _ h).registers nofun).2 rfl
      digits := fun op ph h hop hph => by
        rcases hop with rfl | rfl
        · exact (hat _ ph h).registers hph
        · exact (hat _ ph h).registers hph }

section Parts

variable {s t : State} {op : Op} {ph : Phase}

theorem State.At.inv (h : s.At op ph) (hseq : s.seq = .run op ph) : s.Inv :=
  inv_iff.2 ⟨h.serves.sound, fun op' ph' hseq' => by
    obtain ⟨rfl, rfl⟩ := Seq.run.inj (hseq.symm.trans hseq')
    exact h⟩

theorem State.Sound.inv_of_idle (h : s.Sound) (hseq : s.seq = .idle) : s.Inv :=
  inv_iff.2 ⟨h, fun op ph hrun => by
    rw [hseq] at hrun
    cases hrun⟩

/-- Memory and the peripheral stay sound where only the FIFOs change, within their depth (R42). -/
theorem State.Sound.withFifos (h : s.Sound) {q q' : List Byte} (hper : t.per = { s.per with rxq := q, txq := q' })
    (hmem : t.mem = s.mem) (hcfg : t.cfg = s.cfg) (hq : q.length ≤ s.depth) (hq' : q'.length ≤ s.depth) : t.Sound := by
  have hdepth : t.depth = s.depth := by rw [State.depth, State.depth, Periph.fen, Periph.fen, hper, hcfg]
  refine ⟨by rw [hmem]; exact h.memory, ?_, ?_, by rw [hper]; exact h.gated⟩
  · rwa [hdepth, hper]
  · rwa [hdepth, hper]

theorem State.Sound.congr (h : s.Sound) (hper : t.per = s.per) (hmem : t.mem = s.mem) (hcfg : t.cfg = s.cfg) :
    t.Sound :=
  h.withFifos hper hmem hcfg h.rxFits h.txFits

/-- The operation is served where MODE and CMD stay, if memory and the peripheral are sound. -/
theorem State.Serves.of_sound (h : s.Serves op) (hf : s.Frame t) (hsound : t.Sound) : t.Serves op :=
  ⟨hsound, hf.cmd ▸ h.command, hf.mode ▸ h.ready⟩

theorem State.Serves.congr (h : s.Serves op) (hf : s.Frame t) (hper : t.per = s.per) : t.Serves op :=
  h.of_sound hf (h.sound.congr hper hf.mem hf.cfg)

theorem State.Serves.withDp (h : s.Serves op) (r : Datapath) : ({ s with dp := r } : State).Serves op :=
  h.congr ((State.Frame.refl s).withDp r) rfl

theorem State.registers_congr (h : s.registers op ph) (hdp : t.dp = s.dp) (hcmd : t.cmd = s.cmd)
    (hstored : ∀ p r, InitPos.modifies p = some r → t.per.stored r = s.per.stored r) : t.registers op ph := by
  cases op with
  | init => exact fun p r hp hr => by rw [hdp, hstored p r hr]; exact h p r hp hr
  | rdline =>
    simp only [State.registers, State.lineOpen, hdp, hcmd] at h ⊢
    exact h
  | encdec | enchex =>
    simp only [State.registers, hdp] at h ⊢
    exact h
  | _ => trivial

/-- After an operation's start, no position but RDLINE's store and those of INIT needs more of the datapath. -/
theorem State.registers_mono {ph' : Phase} (h : s.registers op ph) (hph : ph ≠ .start) (hst : ph' ≠ .lineStore)
    (hin : ∀ p, ph' ≠ .init p) : s.registers op ph' := by
  cases op with
  | init => exact fun p _ hp => absurd hp (hin p)
  | rdline => exact fun _ => ⟨(h hph).1, fun hp => absurd hp hst⟩
  | encdec | enchex => exact fun _ => h hph
  | _ => trivial

end Parts

/-! ### What the shared operations keep -/

section Shared

variable {s : State} {op : Op}

theorem goto_keeps_inv {ph : Phase} (h : s.Serves op) (hlegal : op.hasPhase ph = true) (hfifos : s.fifosReady ph)
    (hreg : s.registers op ph) : (s.goto op ph).Inv :=
  State.At.inv (op := op) (ph := ph)
    { serves := h.congr ((State.Frame.refl s).goto op ph) rfl
      legal := hlegal
      fifos := hfifos
      registers := State.registers_congr hreg rfl rfl fun _ _ _ => rfl } rfl

theorem complete_keeps_inv {res : Option Word} (h : s.Sound) : (s.complete op res).Inv :=
  State.Sound.inv_of_idle (s := s.complete op res) (h.congr rfl rfl rfl) rfl

/-- An agent keeps the invariant that leaves SEQ, MODE, CMD, the datapath and INIT's registers alone, keeps
memory and the peripheral sound, and takes no character or room from the engine. -/
theorem State.Inv.of_agent {t : State} (h : s.Inv) (hseq : t.seq = s.seq) (hmode : t.mode = s.mode)
    (hcmd : t.cmd = s.cmd) (hdp : t.dp = s.dp) (hsound : t.Sound) (hfifos : ∀ ph, s.fifosReady ph → t.fifosReady ph)
    (hstored : ∀ p r, InitPos.modifies p = some r → t.per.stored r = s.per.stored r) : t.Inv := by
  obtain ⟨-, hat⟩ := inv_iff.1 h
  refine inv_iff.2 ⟨hsound, fun op ph hrun => ?_⟩
  obtain ⟨hserves, hlegal, hready, hreg⟩ := hat op ph (hseq ▸ hrun)
  exact ⟨⟨hsound, hcmd ▸ hserves.command, hmode ▸ hserves.ready⟩, hlegal, hfifos ph hready,
    State.registers_congr hreg hdp hcmd hstored⟩

/-- The schedule, the events, the draws and FAULT do not enter the invariant. -/
theorem State.Inv.congr {t : State} (h : s.Inv) (hseq : t.seq = s.seq) (hmode : t.mode = s.mode)
    (hcmd : t.cmd = s.cmd) (hdp : t.dp = s.dp) (hper : t.per = s.per) (hmem : t.mem = s.mem) (hcfg : t.cfg = s.cfg) :
    t.Inv := by
  obtain ⟨hsound, -⟩ := inv_iff.1 h
  refine h.of_agent hseq hmode hcmd hdp (hsound.congr hper hmem hcfg) (fun ph hready => ?_) fun _ _ _ => by rw [hper]
  cases ph <;> simp only [State.fifosReady, State.depth, hper, hcfg] at hready ⊢ <;> exact hready

theorem State.Inv.takeTurn (h : s.Inv) : s.takeTurn.Inv := h.congr rfl rfl rfl rfl rfl rfl rfl

theorem State.Inv.record (h : s.Inv) (e : Event) : (s.record e).Inv := h.congr rfl rfl rfl rfl rfl rfl rfl

theorem State.Inv.raise (h : s.Inv) (r : Fault) : (s.raise r).Inv := h.congr rfl rfl rfl rfl rfl rfl rfl

/-- A receive poll comes to the DR read only with a character waiting (R110). -/
theorem recvPoll_keeps_inv (h : s.Serves op) (hop : op.receives = true) (hreg : s.registers op .rxPoll) :
    (s.recvPoll op).Inv := by
  rw [recvPoll_eq]
  split
  next => exact (goto_keeps_inv (ph := .rxPoll) h hop trivial hreg).congr rfl rfl rfl rfl rfl rfl rfl
  next hne =>
    have hwaiting : s.per.rxq ≠ [] := fun h0 => hne (by simp [State.rxfe, h0])
    exact (goto_keeps_inv (ph := .rxRead) h hop hwaiting (State.registers_mono hreg nofun nofun nofun)).congr
      rfl rfl rfl rfl rfl rfl rfl

/-- A send poll comes to the DR write only with room in TXQ (R111). -/
theorem sendPoll_keeps_inv (h : s.Serves op) (hop : op.sends = true) (hreg : s.registers op .txPoll) :
    (s.sendPoll op).Inv := by
  rw [sendPoll_eq]
  split
  next => exact (goto_keeps_inv (ph := .txPoll) h hop trivial hreg).congr rfl rfl rfl rfl rfl rfl rfl
  next hne =>
    have hroom : s.per.txq.length < s.depth :=
      lt_of_le_of_ne h.sound.txFits fun heq => hne (by simp [State.txff, heq])
    exact (goto_keeps_inv (ph := .txWrite) h hop hroom (State.registers_mono hreg nofun nofun nofun)).congr
      rfl rfl rfl rfl rfl rfl rfl

theorem recvRead_serves (h : s.Serves op) : s.recvRead.Serves op :=
  h.of_sound (recvRead_frame s) (h.sound.withFifos (q := s.per.rxq.tail) (q' := s.per.txq) (recvRead_per s)
    (recvRead_mem s) (recvRead_cfg s) (by have := h.sound.rxFits; rw [List.length_tail]; omega) h.sound.txFits)

/-- SEND's DR write keeps TXQ within its depth (R42, R104). -/
theorem sendWrite_serves (h : s.Serves op) (hroom : s.per.txq.length < s.depth) : s.sendWrite.Serves op := by
  rw [sendWrite_room hroom]
  exact h.of_sound ⟨rfl, rfl, rfl, rfl, rfl, rfl⟩
    (h.sound.withFifos (q := s.per.rxq) (q' := s.per.txq ++ [s.dp.ch]) rfl rfl rfl h.sound.rxFits
      (by simpa using hroom))

end Shared

/-! ### What one engine step keeps, command by command -/

section Commands

variable {s : State}

/-- The invariant asks nothing of a decoder's accumulator. -/
theorem registers_decoder {op : Op} {ph : Phase} (hop : op = .decdec ∨ op = .dechex) : s.registers op ph := by
  rcases hop with rfl | rfl <;> trivial

theorem decoder_receives_and_sends {op : Op} (hop : op = .decdec ∨ op = .dechex) :
    op.receives = true ∧ op.sends = true := by
  rcases hop with rfl | rfl <;> exact ⟨rfl, rfl⟩

theorem applyDecode_keeps_inv {op : Op} (h : s.Serves op) (hop : op = .decdec ∨ op = .dechex) (a : DecodeAct) :
    (s.applyDecode op a).Inv := by
  obtain ⟨hreceives, hsends⟩ := decoder_receives_and_sends hop
  cases a with
  | finish => exact complete_keeps_inv h.sound
  | echo r => exact goto_keeps_inv (h.withDp r) hsends trivial (registers_decoder hop)
  | ignore => exact goto_keeps_inv h hreceives trivial (registers_decoder hop)

/-- An encoder at work has at most nine digits left in the buffer (R29). -/
theorem registers_encoder {op : Op} {ph : Phase} (hop : op = .encdec ∨ op = .enchex) (hph : ph ≠ .start) :
    s.registers op ph ↔ s.dp.dcnt < 10#4 := by
  rcases hop with rfl | rfl <;> exact ⟨fun h => h hph, fun h _ => h⟩

/-- A decoder reads RXQ only with a character waiting and writes TXQ only with room (R162, R181). -/
theorem decoderStep_keeps_inv {op : Op} {ph : Phase} (h : s.At op ph) (hseq : s.seq = .run op ph)
    (hop : op = .decdec ∨ op = .dechex) (base : Word) (digit : Byte → Option Word) :
    (s.decoderStep op base digit).Inv := by
  obtain ⟨hreceives, hsends⟩ := decoder_receives_and_sends hop
  rw [State.decoderStep, phaseIn_run hseq]
  split
  · exact recvPoll_keeps_inv h.serves hreceives (registers_decoder hop)
  · exact applyDecode_keeps_inv (recvRead_serves h.serves) hop _
  · exact sendPoll_keeps_inv h.serves hsends (registers_decoder hop)
  · exact goto_keeps_inv (sendWrite_serves h.serves h.fifos) hreceives trivial (registers_decoder hop)
  · exact recvPoll_keeps_inv (h.serves.withDp _) hreceives (registers_decoder hop)

/-- An encoder's buffer is loaded with at most ten digits, and each step takes one away (R8, R165). -/
theorem encoderStep_keeps_inv {op : Op} {ph : Phase} (h : s.At op ph) (hseq : s.seq = .run op ph)
    (hop : op = .encdec ∨ op = .enchex) (base : Word) (char : Nibble → Byte) (n : Word) :
    (s.encoderStep op base char n).Inv := by
  have hsends : op.sends = true := by rcases hop with rfl | rfl <;> rfl
  rw [State.encoderStep, phaseIn_run hseq]
  split
  · exact sendPoll_keeps_inv h.serves hsends h.registers
  · have hserves := sendWrite_serves h.serves h.fifos
    have hlt : s.sendWrite.dp.dcnt < 10#4 := by
      rw [sendWrite_dp]
      exact (registers_encoder (ph := .txWrite) hop nofun).1 h.registers
    dsimp only
    split
    next => exact complete_keeps_inv hserves.sound
    next hne =>
      have hpos : 1 ≤ s.sendWrite.dp.dcnt.toNat := Nat.pos_of_ne_zero fun h0 => hne (BitVec.eq_of_toNat_eq h0)
      have hnext := popDigit_dcnt char s.sendWrite.dp hpos (le_of_lt hlt)
      exact goto_keeps_inv (hserves.withDp _) hsends trivial ((registers_encoder (ph := .txPoll) hop nofun).2 hnext)
  · obtain ⟨hpos, hle⟩ := loadNumber_dcnt base n s.dp
    have hfirst := popDigit_dcnt char _ hpos hle
    exact sendPoll_keeps_inv (h.serves.withDp _) hsends ((registers_encoder (ph := .txPoll) hop nofun).2 hfirst)

theorem execRxchar_keeps_inv {t : State} {ph : Phase} (h : s.At .rxchar ph) (hseq : s.seq = .run .rxchar ph)
    (hexec : execRxchar s = .next t) : t.Inv := by
  rw [execRxchar, phaseIn_run hseq] at hexec
  split at hexec <;> obtain rfl := Host.Outcome.next.inj hexec
  · exact complete_keeps_inv (recvRead_serves h.serves).sound
  · exact recvPoll_keeps_inv h.serves rfl trivial

theorem execTxchar_keeps_inv {t : State} {ph : Phase} {c : Byte} (h : s.At .txchar ph)
    (hseq : s.seq = .run .txchar ph) (hexec : execTxchar c s = .next t) : t.Inv := by
  rw [execTxchar, phaseIn_run hseq] at hexec
  split at hexec <;> obtain rfl := Host.Outcome.next.inj hexec
  · exact sendPoll_keeps_inv h.serves rfl trivial
  · exact complete_keeps_inv (sendWrite_serves h.serves h.fifos).sound
  · exact sendPoll_keeps_inv (h.serves.withDp _) rfl trivial

/-- TXSTR's byte read leaves the engine at its position, idle, or about to send (R140). -/
theorem readStringByte_keeps_inv {ph : Phase} (h : s.At .txstr ph) (hseq : s.seq = .run .txstr ph) :
    s.readStringByte.Inv := by
  have hserves (e : Event) : (s.record e).Serves .txstr := h.serves.congr ⟨rfl, rfl, rfl, rfl, rfl, rfl⟩ rfl
  rcases readStringByte_cases s with ⟨-, hread⟩ | ⟨-, -, hread⟩ | ⟨-, -, hread⟩ <;> rw [hread]
  · exact (h.inv hseq).raise _
  · exact complete_keeps_inv (hserves _).sound
  · exact goto_keeps_inv ((hserves _).withDp _) rfl trivial trivial

theorem execTxstr_keeps_inv {t : State} {ph : Phase} {a : Word} (h : s.At .txstr ph) (hseq : s.seq = .run .txstr ph)
    (hexec : execTxstr a s = .next t) : t.Inv := by
  rw [execTxstr, phaseIn_run hseq] at hexec
  split at hexec <;> obtain rfl := Host.Outcome.next.inj hexec
  · exact readStringByte_keeps_inv h hseq
  · exact sendPoll_keeps_inv h.serves rfl trivial
  · exact goto_keeps_inv ((sendWrite_serves h.serves h.fifos).withDp _) rfl trivial trivial
  · exact readStringByte_keeps_inv ⟨h.serves.withDp _, h.legal, h.fifos, trivial⟩ hseq

/-! RDLINE (R201) -/

theorem applyLine_keeps_inv (h : s.Serves .rdline) (hline : s.lineOpen) (c : Byte) :
    (s.applyLine (lineChar c s.dp.len s.dp.maxl)).Inv := by
  rcases lineChar_cases c s.dp.len s.dp.maxl with ⟨-, ha⟩ | ⟨-, hne, ha⟩ | ⟨-, -, ha⟩ | ⟨-, -, hlt, ha⟩ |
    ⟨-, -, -, ha⟩ <;> rw [ha]
  · exact goto_keeps_inv h rfl trivial fun _ => ⟨hline, nofun⟩
  · refine goto_keeps_inv (h.withDp _) rfl trivial fun _ => ⟨?_, nofun⟩
    obtain ⟨hbufa, hmaxl, hlen⟩ := hline
    refine ⟨hbufa, hmaxl, ?_⟩
    show s.dp.len - 1#16 ≤ s.dp.maxl
    bv_omega
  · exact goto_keeps_inv h rfl trivial fun _ => ⟨hline, nofun⟩
  · exact goto_keeps_inv h rfl trivial fun _ => ⟨hline, fun _ => hlt⟩
  · exact goto_keeps_inv h rfl trivial fun _ => ⟨hline, nofun⟩

/-- A store in RDLINE keeps memory in canonical form (R62). -/
theorem State.Sound.memWrite {t : State} (h : s.Sound) (a : Word) (b : Byte) (hper : t.per = s.per)
    (hcfg : t.cfg = s.cfg) (hmem : t.mem = Memory.write a.toNat b s.mem) : t.Sound :=
  State.Sound.congr (s := { s with mem := Memory.write a.toNat b s.mem })
    ⟨Memory.wf_write b h.memory a.isLt, h.rxFits, h.txFits, h.gated⟩ hper hmem hcfg

theorem storeLineChar_keeps_inv (h : s.At .rdline .lineStore) (hseq : s.seq = .run .rdline .lineStore) :
    s.storeLineChar.Inv := by
  rcases storeLineChar_cases s with ⟨-, hstore⟩ | ⟨-, hstore⟩ <;> rw [hstore]
  · exact (h.inv hseq).raise _
  · obtain ⟨⟨hbufa, hmaxl, hlen⟩, hroom⟩ := h.registers nofun
    have hlt := hroom rfl
    have hnext : s.dp.len + 1#16 ≤ s.dp.maxl := by bv_omega
    exact goto_keeps_inv
      ⟨h.serves.sound.memWrite s.dp.lineAddr s.dp.ch rfl rfl rfl, h.serves.command, h.serves.ready⟩ rfl trivial
      fun _ => ⟨⟨hbufa, hmaxl, hnext⟩, nofun⟩

theorem terminateLine_keeps_inv (h : s.At .rdline .lineTerm) (hseq : s.seq = .run .rdline .lineTerm) :
    s.terminateLine.Inv := by
  rcases terminateLine_cases s with ⟨-, hterm⟩ | ⟨-, hterm⟩ <;> rw [hterm]
  · exact (h.inv hseq).raise _
  · exact complete_keeps_inv (h.serves.sound.memWrite s.dp.lineAddr charNUL rfl rfl rfl)

/-- The operands of an RDLINE in CMD are the fields A and MAX (R82). -/
theorem operands_of_decode_rdline {w : Command} {a : Word} {max : Half} (h : decode w = .ok (.rdline a max)) :
    a = fieldA w ∧ max = fieldMAX w := by
  obtain ⟨-, hi⟩ := decode_eq_ok.1 h
  exact Instr.rdline.inj hi

theorem execRdline_keeps_inv {t : State} {ph : Phase} {a : Word} {max : Half} (h : s.At .rdline ph)
    (hseq : s.seq = .run .rdline ph) (hdecode : decode s.cmd = .ok (.rdline a max))
    (hexec : execRdline a max s = .next t) : t.Inv := by
  rw [execRdline, phaseIn_run hseq] at hexec
  split at hexec <;> obtain rfl := Host.Outcome.next.inj hexec
  · exact recvPoll_keeps_inv h.serves rfl h.registers
  · have hline : s.recvRead.lineOpen := by simpa [State.lineOpen] using (h.registers nofun).1
    exact applyLine_keeps_inv (recvRead_serves h.serves) hline _
  · exact storeLineChar_keeps_inv h hseq
  · exact terminateLine_keeps_inv h hseq
  · exact sendPoll_keeps_inv h.serves rfl h.registers
  · have hline : s.sendWrite.lineOpen := by simpa [State.lineOpen] using (h.registers nofun).1
    exact goto_keeps_inv (sendWrite_serves h.serves h.fifos) rfl trivial fun _ => ⟨hline, nofun⟩
  · obtain ⟨ha, hmax⟩ := operands_of_decode_rdline hdecode
    exact recvPoll_keeps_inv (h.serves.withDp _) rfl fun _ => ⟨⟨ha, hmax, Nat.zero_le _⟩, nofun⟩

/-! INIT (R133) -/

/-- A read of INIT leaves in `v` the value of the register that the write after it modifies (R75). -/
theorem initRead_keeps_inv {r : Reg} {next : InitPos} (h : s.Serves .init) (hdr : r ≠ .dr) (hfr : r ≠ .fr)
    (hnext : ∀ r', next.modifies = some r' → r' = r) : (s.initRead r next).Inv := by
  rw [initRead_eq hdr hfr]
  refine goto_keeps_inv (h.congr ⟨rfl, rfl, rfl, rfl, rfl, rfl⟩ rfl) rfl trivial fun p r' hp hr' => ?_
  obtain rfl := Phase.init.inj hp
  rw [hnext r' hr']

/-- A position at which no read-modify-write ends needs nothing of `v`. -/
theorem registers_init {p : InitPos} (hp : p.modifies = none) : s.registers .init (.init p) := by
  intro q r hq hr
  obtain rfl := Phase.init.inj hq
  rw [hp] at hr
  cases hr

theorem initPoll_keeps_inv (h : s.Serves .init) : s.initPoll.Inv := by
  rw [initPoll_eq]
  refine goto_keeps_inv (h.congr ⟨rfl, rfl, rfl, rfl, rfl, rfl⟩ rfl) rfl trivial (registers_init ?_)
  split <;> rfl

/-- A bus write of INIT keeps the peripheral sound where it makes neither FIFO shallower and gates off no bit
of PR_GPIO (R41, R42). -/
theorem busWrite_sound {r : Reg} {x : Word} (h : s.Sound) (hdr : r ≠ .dr)
    (hfen : s.per.fen = true → (s.per.store r x).fen = true)
    (hgated : (s.per.store r x).prGpio &&& ~~~(s.per.store r x).rcgcGpio = 0#32) : (s.busWrite r x).Sound := by
  obtain ⟨q, q', hper, hq, hq', -⟩ := busWrite_per hdr x s
  have hdepth : s.depth ≤ (s.busWrite r x).depth := by
    have hpos := s.cfg.fifoDepth.pos
    have hfen' : (s.busWrite r x).per.fen = (s.per.store r x).fen := by rw [hper]; rfl
    rw [State.depth, State.depth, busWrite_cfg, hfen']
    split
    next hon => rw [if_pos (hfen hon)]
    next => split <;> omega
  have kept {q q₀ : List Byte} (hcases : q = q₀ ∨ q = []) (hfits : q₀.length ≤ s.depth) :
      q.length ≤ (s.busWrite r x).depth := by
    rcases hcases with rfl | rfl
    · exact hfits.trans hdepth
    · exact Nat.zero_le _
  refine ⟨by rw [busWrite_mem]; exact h.memory, ?_, ?_, by rw [hper]; exact hgated⟩
  · rw [hper]
    exact kept hq h.rxFits
  · rw [hper]
    exact kept hq' h.txFits

/-- More gates on keep PR_GPIO gated (R41). -/
theorem gated_or {pr gates : Word} (m : Word) (h : pr &&& ~~~gates = 0#32) : pr &&& ~~~(gates ||| m) = 0#32 := by
  rw [BitVec.not_or, ← BitVec.and_assoc, h, BitVec.zero_and]

theorem initWrite_keeps_inv {r : Reg} {x : Word} {next : InitPos} (h : s.Serves .init)
    (hsound : (s.busWrite r x).Sound) (hnext : next.modifies = none) : (s.initWrite r x next).Inv :=
  goto_keeps_inv (h.of_sound (by constructor <;> simp) hsound) rfl trivial (registers_init hnext)

theorem initStep_keeps_inv {p : InitPos} (h : s.At .init (.init p)) : (s.initStep p).Inv := by
  have hs := h.serves
  cases p with
  | rdRcgcGpio | rdCtlOff | rdCtlOn | rdAfsel | rdDen | rdPctl | rdAmsel =>
    exact initRead_keeps_inv hs nofun nofun fun r hr => (Option.some.inj hr).symm
  | pollPr => exact initPoll_keeps_inv hs
  | wrRcgcGpio =>
    have hv : s.dp.v = s.per.rcgcGpio := h.registers _ _ rfl rfl
    refine initWrite_keeps_inv hs (busWrite_sound hs.sound nofun id ?_) rfl
    rw [hv]
    exact gated_or _ hs.sound.gated
  | wrLcrh =>
    have hfen : (s.per.store .lcrh lcrhVal).fen = true := by simp [Periph.store, Periph.fen, lcrhVal]
    exact initWrite_keeps_inv hs (busWrite_sound hs.sound nofun (fun _ => hfen) hs.sound.gated) rfl
  | wrAmsel =>
    have hsound : (s.busWrite .amsel (s.dp.v &&& ~~~s.cfg.pins)).Sound :=
      busWrite_sound hs.sound nofun id hs.sound.gated
    exact complete_keeps_inv (hsound.congr rfl rfl rfl)
  | _ => exact initWrite_keeps_inv hs (busWrite_sound hs.sound nofun id hs.sound.gated) rfl

theorem execInit_keeps_inv {t : State} {ph : Phase} (h : s.At .init ph) (hseq : s.seq = .run .init ph)
    (hexec : execInit s = .next t) : t.Inv := by
  rw [execInit, phaseIn_run hseq] at hexec
  split at hexec <;> obtain rfl := Host.Outcome.next.inj hexec
  · exact initStep_keeps_inv h
  · exact initRead_keeps_inv h.serves nofun nofun fun r hr => (Option.some.inj hr).symm

end Commands

/-! ### What each agent keeps -/

section Agents

variable {s t : State}

/-- One engine step keeps the invariant: the command in CMD is at a position of its own (R22, R25). -/
theorem exec_keeps_inv {i : Instr} (h : s.Inv) (hcur : s.current = some i) (hexec : exec i s = .next t) : t.Inv := by
  obtain ⟨-, ⟨op, ph, hseq⟩, hdecode⟩ := current_eq_some.1 hcur
  obtain ⟨-, hat⟩ := inv_iff.1 h
  have hop : op = i.op := by
    obtain ⟨j, hj, rfl⟩ := h.command op ph hseq
    rw [Except.ok.inj (hj.symm.trans hdecode)]
  subst hop
  have hi := hat i.op ph hseq
  have next_inv {u : State} (hu : u.Inv) (heq : exec i s = .next u) : t.Inv :=
    Host.Outcome.next.inj (heq.symm.trans hexec) ▸ hu
  cases i with
  | init => exact execInit_keeps_inv hi hseq hexec
  | rxchar => exact execRxchar_keeps_inv hi hseq hexec
  | txchar c => exact execTxchar_keeps_inv hi hseq hexec
  | txstr a => exact execTxstr_keeps_inv hi hseq hexec
  | decdec => exact next_inv (decoderStep_keeps_inv hi hseq (.inl rfl) _ _) rfl
  | encdec n => exact next_inv (encoderStep_keeps_inv hi hseq (.inl rfl) _ _ n) rfl
  | dechex => exact next_inv (decoderStep_keeps_inv hi hseq (.inr rfl) _ _) rfl
  | enchex n => exact next_inv (encoderStep_keeps_inv hi hseq (.inr rfl) _ _ n) rfl
  | rdline a max => exact execRdline_keeps_inv hi hseq hdecode hexec

theorem registers_start {op : Op} : s.registers op .start := by
  cases op with
  | init => exact nofun
  | rdline | encdec | enchex => exact fun h => absurd rfl h
  | _ => trivial

/-- An accepted command stands at its start, where nothing but its being served is asked (R90, R130). -/
theorem issue_keeps_inv (w : Command) (h : s.Inv) : (s.issue w).Inv := by
  rcases issue_cases w s with ⟨-, hw⟩ | ⟨-, -, hw⟩ | ⟨-, -, -, hw⟩ | ⟨-, -, _, -, -, -, hw⟩ |
    ⟨-, -, i, hi, hmode, hw⟩ <;> rw [hw]
  · exact h.record _
  · exact (h.record _).raise _
  · exact (h.record _).raise _
  · exact (h.record _).raise _
  · obtain ⟨hsound, -⟩ := inv_iff.1 h
    refine goto_keeps_inv ⟨hsound.congr rfl rfl rfl, ⟨i, hi, rfl⟩, hmode.resolve_left⟩ rfl trivial registers_start

/-- The registers that INIT modifies are neither FIFOs nor PR_GPIO. -/
theorem stored_modified {p : InitPos} {r : Reg} (hr : p.modifies = some r) (per : Periph) (rx tx : List Byte)
    (pr : Word) : ({ per with rxq := rx, txq := tx, prGpio := pr } : Periph).stored r = per.stored r := by
  cases p <;> cases hr <;> rfl

/-- A pin clock becomes ready only where its gate is on (R41, R122). -/
theorem gated_ready {pr gates : Word} {k : Nat} (h : pr &&& ~~~gates = 0#32) (hk : gates.getLsbD k = true) :
    (pr ||| 1#32 <<< k) &&& ~~~gates = 0#32 := by
  rw [BitVec.and_or_distrib_right, h, BitVec.zero_or, ← BitVec.twoPow_eq, BitVec.twoPow_and, if_neg (by simp [hk])]

theorem lineStep_keeps_inv (e : LineStep) (h : s.Inv) : (s.lineStep e).Inv := by
  obtain ⟨hsound, -⟩ := inv_iff.1 h
  rcases lineStep_cases e s with hl | ⟨b, -, -, hroom, hl⟩ | ⟨b, rest, -, -, hq, hl⟩ | ⟨-, hgate, hl⟩ <;> rw [hl]
  · exact h
  · refine h.of_agent rfl rfl rfl rfl (hsound.withFifos (q := s.per.rxq ++ [b]) (q' := s.per.txq) rfl rfl rfl
      (by simpa using hroom) hsound.txFits) (fun ph hready => ?_) fun p r hr => stored_modified hr _ _ _ _
    cases ph with
    | rxRead => exact List.append_ne_nil_of_right_ne_nil _ (List.cons_ne_nil b [])
    | _ => exact hready
  · have hshort : rest.length < s.per.txq.length := by simp [hq]
    refine h.of_agent rfl rfl rfl rfl (hsound.withFifos (q := s.per.rxq) (q' := rest) rfl rfl rfl
      hsound.rxFits (hshort.le.trans hsound.txFits)) (fun ph hready => ?_) fun p r hr => stored_modified hr _ _ _ _
    cases ph with
    | txWrite => exact hshort.trans hready
    | _ => exact hready
  · exact h.of_agent rfl rfl rfl rfl ⟨hsound.memory, hsound.rxFits, hsound.txFits, gated_ready hsound.gated hgate⟩
      (fun ph hready => hready) fun p r hr => stored_modified hr _ _ _ _

end Agents

/-- Settles O17, agent by agent. -/
theorem everyStepKeepsTheInvariant : Obligations.EveryStepKeepsTheInvariant := by
  intro s t h hstep
  obtain ⟨-, ⟨-, i, hcur, hexec⟩ | ⟨-, -, rfl⟩ | ⟨e, -, rfl⟩ | ⟨w, -, rfl⟩⟩ := step_next_cases hstep
  · exact exec_keeps_inv h.takeTurn hcur hexec
  · exact h.takeTurn
  · exact lineStep_keeps_inv e h.takeTurn
  · exact issue_keeps_inv w h.takeTurn

end Sys2Proof.Machine
end

section
/-! PROOF. INIT's accesses in their order, as whole states (spec/41_uart_driver.md R133). -/

namespace Sys2Proof.Machine

section Accesses

variable {s : State} {p next : InitPos} {r : Reg} {x : Word}

/-- INIT at its start makes its first access, the read of RCGC_UART. -/
theorem exec_init_start (h : s.seq = .run .init .start) : exec .init s = .next (s.initRead .rcgcUart .wrRcgcUart) := by
  simp only [exec, execInit, phaseIn_run h]

theorem exec_init_at (h : s.seq = .run .init (.init p)) : exec .init s = .next (s.initStep p) := by
  simp only [exec, execInit, phaseIn_run h]

/-- A bus write changes nothing but the peripheral, the draws and the events observed. -/
theorem busWrite_state (r : Reg) (x : Word) (s : State) :
    s.busWrite r x = { s with
      per := (s.busWrite r x).per
      draws := (s.busWrite r x).draws
      trace := .busWr (s.cfg.addr r) x :: s.trace } := by
  obtain ⟨hmode, hseq, hfault, hcmd, hdp, hmem, hcfg, hagenda, htrace⟩ := busWrite_frame r x s
  rw [← htrace, ← hmode, ← hseq, ← hfault, ← hcmd, ← hdp, ← hmem, ← hcfg, ← hagenda]

/-- A write of INIT that flushes nothing stores the value and moves on (R106). -/
theorem initWrite_store (hdr : r ≠ .dr) (h : s.per.reconfigures r x = false) :
    s.initWrite r x next = { s with
      seq := .run .init (.init next)
      per := s.per.store r x
      trace := .busWr (s.cfg.addr r) x :: s.trace } := by
  rw [State.initWrite, busWrite_store hdr h]
  rfl

/-- A write of INIT stores the value, keeps or empties each FIFO, keeps both where the UART is not
reconfigured, and moves on (R106, R115). -/
theorem initWrite_flush (hdr : r ≠ .dr) : ∃ (rx tx : List Byte) (d : Nat),
    (rx = s.per.rxq ∨ rx = []) ∧ (tx = s.per.txq ∨ tx = []) ∧
    (s.per.reconfigures r x = false → rx = s.per.rxq ∧ tx = s.per.txq) ∧
    s.initWrite r x next = { s with
      seq := .run .init (.init next)
      per := { s.per.store r x with rxq := rx, txq := tx }
      draws := d
      trace := .busWr (s.cfg.addr r) x :: s.trace } := by
  obtain ⟨rx, tx, hper, hrx, htx, hkept⟩ := busWrite_per hdr x s
  refine ⟨rx, tx, (s.busWrite r x).draws, hrx, htx, hkept, ?_⟩
  rw [State.initWrite, busWrite_state, hper]
  rfl

theorem reconfigures_ctl {per : Periph} (h : x.getLsbD 0 = per.ctl.getLsbD 0) : per.reconfigures .ctl x = false :=
  bne_eq_false_iff_eq.2 h

/-- The divisor's parts are stored in as many bits as their registers have (R33, R34, R132). -/
theorem store_divisor (per : Periph) (n : Nat) :
    per.store .ibrd (BitVec.ofNat 32 n) = { per with ibrd := BitVec.ofNat 16 n } ∧
    per.store .fbrd (BitVec.ofNat 32 n) = { per with fbrd := BitVec.ofNat 6 n } := by
  simp [Periph.store, BitVec.setWidth_ofNat_of_le]

end Accesses

/-- Settles O47: each position's step is one read or write of INIT, and the rules of these two give the state. -/
theorem initMakesItsAccessesInOrder : Obligations.InitMakesItsAccessesInOrder := by
  intro s reads writes v
  refine ⟨fun hseq => ?first, fun p r q hp hseq => ?read, fun p r x per q hp hseq => ?write,
    fun p r x per q hp hseq => ?flush, fun hseq => ?poll, fun hseq => ?last⟩
  case first =>
    rw [exec_init_start hseq, initRead_eq (by decide) (by decide)]
    rfl
  case read =>
    obtain ⟨hstep, hdr, hfr⟩ : s.initStep p = s.initRead r q ∧ r ≠ .dr ∧ r ≠ .fr := by
      simp only [List.mem_cons, List.not_mem_nil, or_false, Prod.mk.injEq] at hp
      rcases hp with ⟨rfl, rfl, rfl⟩ | ⟨rfl, rfl, rfl⟩ | ⟨rfl, rfl, rfl⟩ | ⟨rfl, rfl, rfl⟩ | ⟨rfl, rfl, rfl⟩ |
        ⟨rfl, rfl, rfl⟩ | ⟨rfl, rfl, rfl⟩ <;> exact ⟨rfl, nofun, nofun⟩
    rw [exec_init_at hseq, hstep, initRead_eq hdr hfr]
    rfl
  case write =>
    obtain ⟨hstep, hdr, hkeep, hstore⟩ : s.initStep p = s.initWrite r x q ∧ r ≠ .dr ∧
        s.per.reconfigures r x = false ∧ s.per.store r x = per := by
      simp only [List.mem_cons, List.not_mem_nil, or_false, Prod.mk.injEq] at hp
      rcases hp with ⟨rfl, rfl, rfl, rfl, rfl⟩ | ⟨rfl, rfl, rfl, rfl, rfl⟩ | ⟨rfl, rfl, rfl, rfl, rfl⟩ |
        ⟨rfl, rfl, rfl, rfl, rfl⟩ | ⟨rfl, rfl, rfl, rfl, rfl⟩ | ⟨rfl, rfl, rfl, rfl, rfl⟩ | ⟨rfl, rfl, rfl, rfl, rfl⟩ <;>
        refine ⟨rfl, nofun, rfl, ?_⟩
      exacts [rfl, rfl, (store_divisor _ _).1, (store_divisor _ _).2, rfl, rfl, rfl]
    rw [exec_init_at hseq, hstep, initWrite_store hdr hkeep, hstore]
  case flush =>
    obtain ⟨hstep, hdr, hstore⟩ : s.initStep p = s.initWrite r x q ∧ r ≠ .dr ∧ s.per.store r x = per := by
      simp only [List.mem_cons, List.not_mem_nil, or_false, Prod.mk.injEq] at hp
      rcases hp with ⟨rfl, rfl, rfl, rfl, rfl⟩ | ⟨rfl, rfl, rfl, rfl, rfl⟩ | ⟨rfl, rfl, rfl, rfl, rfl⟩ <;>
        exact ⟨rfl, nofun, rfl⟩
    obtain ⟨rx, tx, d, hrx, htx, hkept, hwrite⟩ := initWrite_flush (s := s) (x := x) (next := q) hdr
    refine ⟨rx, tx, d, hrx, htx, fun hr hbit => ?_, ?_⟩
    · subst hr
      exact hkept (reconfigures_ctl hbit)
    · rw [exec_init_at hseq, hstep, hwrite, hstore]
  case poll =>
    refine ⟨s.per.prWord, fun k => BitVec.getLsbD_and, ?_⟩
    rw [exec_init_at hseq, State.initStep, initPoll_eq]
    rfl
  case last =>
    rw [exec_init_at hseq, State.initStep, busWrite_store (by decide) rfl]
    rfl

end Sys2Proof.Machine
end

section
/-! PROOF. Data memory and the register addresses (spec/20_memory.md): the data-memory port, the two commands
that use it one step at a time, and that every step of an admitted configuration has a next state. -/

namespace Sys2Proof

/-! ### The register addresses (R61, R64, R71) -/

theorem distinct_iff_nodup {l : List Word} : distinct l = true ↔ l.Nodup := by
  induction l with
  | nil => simp [distinct]
  | cons a rest ih => simp [distinct, ih]

theorem Reg.mem_all (r : Reg) : r ∈ Reg.all := by
  cases r <;> decide

/-- No two registers of a binding without collisions have the same address. -/
theorem Params.addr_injective {p : Params} (h : p.apart = true) : Function.Injective p.addr := fun r r' heq =>
  List.inj_on_of_nodup_map (distinct_iff_nodup.1 h) (Reg.mem_all r) (Reg.mem_all r') heq

/-- A word whose two low bits are clear is a multiple of 4. -/
theorem toNat_mod_four {a : Word} (h : a &&& 3#32 = 0#32) : a.toNat % 4 = 0 :=
  calc a.toNat % 4 = a.toNat &&& 3 := (Nat.and_two_pow_sub_one_eq_mod a.toNat 2).symm
    _ = (a &&& 3#32).toNat := (BitVec.toNat_and a 3#32).symm
    _ = 0 := by rw [h]; rfl

/-- A check over the list of all registers is a check of each. -/
theorem Reg.all_iff {f : Reg → Bool} : Reg.all.all f = true ↔ ∀ r, f r = true :=
  List.all_eq_true.trans ⟨fun h r => h r (Reg.mem_all r), fun h r _ => h r⟩

/-- Settles O32: the checks of the configuration, read off register by register. -/
theorem registerAddressesAreDistinct : Obligations.RegisterAddressesAreDistinct := by
  refine fun p => ⟨fun hok => ?_, fun hcons => ?_⟩
  · simp only [Params.ok, Bool.and_eq_true] at hok
    obtain ⟨⟨haligned, hapart⟩, -⟩ := hok
    exact ⟨fun r r' => (Params.addr_injective hapart ·), fun r =>
      toNat_mod_four (beq_iff_eq.1 (Reg.all_iff.1 haligned r))⟩
  · simp only [Params.constrained, Bool.and_eq_true] at hcons
    obtain ⟨⟨⟨hok, houtside⟩, -⟩, -⟩ := hcons
    exact ⟨hok, fun r => by simpa using Reg.all_iff.1 houtside r⟩

end Sys2Proof

namespace Sys2Proof.Machine

/-! ### The data-memory port (R66, R67) -/

/-- Settles O25, by the port's two rules. -/
theorem memReadReturnsTheStoredByte : Obligations.MemReadReturnsTheStoredByte :=
  fun _ _ => ⟨fun h => memRead_eq_some.2 ⟨h, rfl, rfl⟩, memRead_eq_none.2⟩

/-- A byte of memory after a store to one address: every other address reads as before (R67). -/
theorem byteAt_of_mem_write {s t : State} {a x : Word} {v : Byte} (hmem : t.mem = Memory.write a.toNat v s.mem)
    (hx : x ≠ a) : t.byteAt x = s.byteAt x := by
  rw [State.byteAt, hmem, Memory.read_write_other (fun h => hx (BitVec.eq_of_toNat_eq h))]
  rfl

/-- Settles O26, by the laws of a memory write. -/
theorem memWriteStoresOneByte : Obligations.MemWriteStoresOneByte := by
  refine fun s a v hwf => ⟨fun h => ?_, memWrite_eq_none.2⟩
  exact ⟨_, memWrite_eq_some.2 ⟨h, rfl⟩, Memory.read_write_same hwf, fun x => byteAt_of_mem_write rfl,
    Memory.wf_write v hwf a.isLt, rfl⟩

/-! ### Every step answers (R112, R220) -/

/-- Every engine step of every command has a next state: none is refused, none answers a fault. -/
theorem exec_answers (i : Instr) (s : State) : ∃ t, exec i s = .next t := by
  cases i with
  | init =>
    rcases execInit_cases s with ⟨t, ht, -⟩ | ⟨-, ht⟩
    · exact ⟨t, ht⟩
    · exact ⟨_, ht⟩
  | rxchar => exact (execRxchar_frame s).imp fun _ => And.left
  | txchar c => exact (execTxchar_frame s c).imp fun _ => And.left
  | txstr a => exact (execTxstr_cases s a).imp fun _ => And.left
  | decdec | encdec _ | dechex | enchex _ => exact ⟨_, rfl⟩
  | rdline a max => exact (execRdline_cases s a max).imp fun _ => And.left

/-- Settles O10, turn by turn. -/
theorem everyStepAnswersNext : Obligations.EveryStepAnswersNext := by
  refine fun s => ⟨fun hok => ?_, fun hok => by simp [step, hok]⟩
  cases hturn : s.turn with
  | engine =>
    cases hcur : s.current with
    | none => exact ⟨_, step_of_no_current hok hturn hcur⟩
    | some i =>
      rw [step_of_current hok hturn hcur]
      exact exec_answers i _
  | line e => exact ⟨_, step_of_line hok hturn⟩
  | host w => exact ⟨_, step_of_host hok hturn⟩

/-! ### RDLINE's two stores (R200 to R203) -/

section Rdline

variable {s t : State} {a x : Word} {max : Half}

theorem exec_rdline_lineStore (h : s.seq = .run .rdline .lineStore) : exec (.rdline a max) s = .next s.storeLineChar := by
  simp only [exec, execRdline, phaseIn_run h]

theorem exec_rdline_lineTerm (h : s.seq = .run .rdline .lineTerm) : exec (.rdline a max) s = .next s.terminateLine := by
  simp only [exec, execRdline, phaseIn_run h]

/-- Settles O46: each of the two stores, at an admitted address and at a refused one. -/
theorem rdlineStoresAtBufaPlusLen : Obligations.RdlineStoresAtBufaPlusLen := by
  rintro s a x max hwf rfl
  have stored (b : Byte) :
      Memory.read s.dp.lineAddr.toNat (Memory.write s.dp.lineAddr.toNat b s.mem) = b ∧
      ∀ y, y ≠ s.dp.lineAddr.toNat → Memory.read y (Memory.write s.dp.lineAddr.toNat b s.mem) = Memory.read y s.mem :=
    ⟨Memory.read_write_same hwf, fun _ hy => Memory.read_write_other hy b s.mem⟩
  refine ⟨fun hseq hadm => ?store, fun hseq hadm => ?terminator, fun hseq hrefused => ?refused⟩
  case store =>
    obtain ⟨-, hstore⟩ := (storeLineChar_cases s).resolve_left fun ⟨hno, _⟩ => nomatch hadm.symm.trans hno
    refine ⟨_, ?_, stored s.dp.ch⟩
    rw [exec_rdline_lineStore hseq, hstore]
    rfl
  case terminator =>
    obtain ⟨-, hterm⟩ := (terminateLine_cases s).resolve_left fun ⟨hno, _⟩ => nomatch hadm.symm.trans hno
    refine ⟨_, ?_, stored 0x00#8⟩
    rw [exec_rdline_lineTerm hseq, hterm]
    rfl
  case refused =>
    rcases hseq with hseq | hseq
    · obtain ⟨-, hstore⟩ := (storeLineChar_cases s).resolve_right fun ⟨hyes, _⟩ => nomatch hyes.symm.trans hrefused
      rw [exec_rdline_lineStore hseq, hstore]
      rfl
    · obtain ⟨-, hterm⟩ := (terminateLine_cases s).resolve_right fun ⟨hyes, _⟩ => nomatch hyes.symm.trans hrefused
      rw [exec_rdline_lineTerm hseq, hterm]
      rfl

/-- A step of RDLINE leaves memory alone, or stands past its start and stores one byte at BUFA + LEN (R201). -/
theorem execRdline_mem (h : execRdline a max s = .next t) :
    t.mem = s.mem ∨
    ∃ ph b, s.seq = .run .rdline ph ∧ ph ≠ .start ∧ t.mem = Memory.write s.dp.lineAddr.toNat b s.mem := by
  unfold execRdline at h
  split at h <;> obtain rfl := Host.Outcome.next.inj h
  · exact .inl rfl
  · exact .inl ((recvRead_frame s).applyLine _).mem
  next hph =>
    rcases storeLineChar_cases s with ⟨-, hstore⟩ | ⟨-, hstore⟩ <;> rw [hstore]
    · exact .inl rfl
    · exact .inr ⟨.lineStore, s.dp.ch, seq_of_phaseIn s hph nofun, nofun, rfl⟩
  next hph =>
    rcases terminateLine_cases s with ⟨-, hterm⟩ | ⟨-, hterm⟩ <;> rw [hterm]
    · exact .inl rfl
    · exact .inr ⟨.lineTerm, charNUL, seq_of_phaseIn s hph nofun, nofun, rfl⟩
  · exact .inl rfl
  · exact .inl (sendWrite_frame s).mem
  · exact .inl rfl

/-- Past its start, RDLINE's next address is at most MAX bytes after its operand (R28, R200, R203). -/
theorem State.Inv.lineAddr_in_buffer {ph : Phase} (h : s.Inv) (hdecode : decode s.cmd = .ok (.rdline a max))
    (hseq : s.seq = .run .rdline ph) (hph : ph ≠ .start) :
    s.dp.len.toNat ≤ max.toNat ∧ s.dp.lineAddr = a + BitVec.ofNat 32 s.dp.len.toNat := by
  obtain ⟨rfl, rfl⟩ := operands_of_decode_rdline hdecode
  obtain ⟨hbufa, hmaxl, hlen⟩ := h.line ph hseq hph
  refine ⟨by rw [← hmaxl]; exact hlen, ?_⟩
  rw [Datapath.lineAddr, hbufa, BitVec.ofNat_toNat]

/-- Settles O24: the only step that changes a byte is the engine's, at the address that the invariant keeps in
the buffer. -/
theorem rdlineWritesOnlyItsBuffer : Obligations.RdlineWritesOnlyItsBuffer := by
  intro s t a max hinv hcur hstep x hx
  obtain ⟨-, -, hdecode⟩ := current_eq_some.1 hcur
  have changed : t.mem ≠ s.mem := fun h => hx (by rw [State.byteAt, h]; rfl)
  obtain ⟨-, ⟨-, i, hi, hexec⟩ | ⟨-, -, rfl⟩ | ⟨e, -, rfl⟩ | ⟨w, -, rfl⟩⟩ := step_next_cases hstep
  · obtain rfl : i = .rdline a max := Option.some.inj (hi.symm.trans hcur)
    rcases execRdline_mem hexec with hsame | ⟨ph, b, hseq, hph, hwrite⟩
    · exact absurd hsame changed
    · obtain ⟨hlen, haddr⟩ := hinv.lineAddr_in_buffer hdecode hseq hph
      refine ⟨s.dp.len.toNat, hlen, haddr ▸ ?_⟩
      exact by_contra fun hne => hx (byteAt_of_mem_write hwrite hne)
  · exact absurd rfl changed
  · exact absurd (lineStep_frame e s.takeTurn).mem changed
  · obtain ⟨-, -, -, hmem, -⟩ := issue_frame w s.takeTurn
    exact absurd hmem changed

end Rdline

/-! ### TXSTR's steps (R140) -/

section Txstr

variable {s : State} {a : Word}

theorem exec_txstr_start (h : s.seq = .run .txstr .start) :
    exec (.txstr a) s = .next ({ s with dp := { s.dp with ptr := a } } : State).readStringByte := by
  simp only [exec, execTxstr, phaseIn_run h]

theorem exec_txstr_strRead (h : s.seq = .run .txstr .strRead) : exec (.txstr a) s = .next s.readStringByte := by
  simp only [exec, execTxstr, phaseIn_run h]

theorem exec_txstr_txPoll (h : s.seq = .run .txstr .txPoll) : exec (.txstr a) s = .next (s.sendPoll .txstr) := by
  simp only [exec, execTxstr, phaseIn_run h]

/-- PTR moves on by one, modulo 2^32 (R68, R140). -/
def State.advancePtr (s : State) : State := { s with dp := { s.dp with ptr := s.dp.ptr + 1#32 } }

theorem exec_txstr_txWrite (h : s.seq = .run .txstr .txWrite) :
    exec (.txstr a) s = .next (s.sendWrite.advancePtr.goto .txstr .strRead) := by
  simp only [exec, execTxstr, phaseIn_run h, State.advancePtr]

/-- A refused address halts TXSTR before the read (R66, R140). -/
theorem readStringByte_refused (h : s.cfg.admits s.dp.ptr = false) :
    s.readStringByte = s.raise (.memRefused s.dp.ptr) := by
  rcases readStringByte_cases s with ⟨-, hs⟩ | ⟨ha, -⟩ | ⟨ha, -⟩
  · exact hs
  all_goals exact nomatch ha.symm.trans h

/-- The terminator completes TXSTR unsent (R140). -/
theorem readStringByte_terminator (h : s.cfg.admits s.dp.ptr = true) (hb : s.byteAt s.dp.ptr = 0x00#8) :
    s.readStringByte = (s.record (.memRd s.dp.ptr 0x00#8)).complete .txstr none := by
  rcases readStringByte_cases s with ⟨hno, -⟩ | ⟨-, -, hs⟩ | ⟨-, hne, -⟩
  · exact nomatch hno.symm.trans h
  · exact hs
  · exact absurd hb hne

/-- Any other byte is latched to be sent (R140). -/
theorem readStringByte_char (h : s.cfg.admits s.dp.ptr = true) (hb : s.byteAt s.dp.ptr ≠ 0x00#8) :
    s.readStringByte =
      ((s.record (.memRd s.dp.ptr (s.byteAt s.dp.ptr))).setCh (s.byteAt s.dp.ptr)).goto .txstr .txPoll := by
  rcases readStringByte_cases s with ⟨hno, -⟩ | ⟨-, heq, -⟩ | ⟨-, -, hs⟩
  · exact nomatch hno.symm.trans h
  · exact absurd heq hb
  · exact hs

/-- TXSTR at a read of the next byte reads at its operand where it starts, at PTR otherwise. -/
theorem exec_txstr_reads {p : Word} {ph : Phase} (hseq : s.seq = .run .txstr ph)
    (hp : (ph = .start ∧ p = a) ∨ (ph = .strRead ∧ p = s.dp.ptr)) :
    exec (.txstr a) s = .next ({ s with dp := { s.dp with ptr := p } } : State).readStringByte := by
  rcases hp with ⟨rfl, rfl⟩ | ⟨rfl, rfl⟩
  · exact exec_txstr_start hseq
  · exact exec_txstr_strRead hseq

end Txstr

/-- Settles O39: the three outcomes of the read, and the write with PTR's advance. -/
theorem txstrReadsThenSends : Obligations.TxstrReadsThenSends := by
  refine ⟨fun s a p ph hseq hp => ?_, fun s a hseq hroom => ?_⟩
  · rw [exec_txstr_reads hseq hp]
    refine ⟨fun ha hb => ?_, fun ha hb => ?_, fun ha => ?_⟩
    · rw [readStringByte_terminator ha hb]
      rfl
    · rw [readStringByte_char ha hb]
      rfl
    · rw [readStringByte_refused ha]
      rfl
  · rw [exec_txstr_txWrite hseq, sendWrite_room hroom]
    rfl

end Sys2Proof.Machine
end

section
/-! PROOF. One command under any schedule without an issue (spec/40_register_interface.md R124, R125): what the
engine has sent, received and posted along the run, and the rule by which a command's own steps settle what holds
wherever the run stands. -/

namespace Sys2Proof.Machine

/-! ### The observation since a state (R125) -/

/-- Since `s` the engine has sent `chars`, received nothing and posted `posts`. -/
structure State.Since (s t : State) (chars : List Byte) (posts : List (Op × Option Word)) : Prop where
  sent : t.sent = s.sent ++ chars
  received : t.received = s.received
  completions : t.completions = s.completions ++ posts

section Since

variable {s t u : State} {chars : List Byte} {posts : List (Op × Option Word)} {e : Event}

theorem State.Since.refl (s : State) : s.Since s [] [] := ⟨(List.append_nil _).symm, rfl, (List.append_nil _).symm⟩

theorem received_of_silent (htrace : t.trace = e :: s.trace) (hcfg : t.cfg = s.cfg)
    (he : e.receivedChar s.cfg = none) : t.received = s.received := by
  simp [State.received, State.events, htrace, hcfg, he]

theorem completions_of_trace_cons (htrace : t.trace = e :: s.trace) :
    t.completions = s.completions ++ e.completion.toList := by
  cases he : e.completion <;> simp [State.completions, State.events, htrace, he]

/-- One more event, no read of DR, adds the character it sends and the completion it posts. -/
theorem State.Since.observe (h : s.Since t chars posts) (htrace : u.trace = e :: t.trace) (hcfg : u.cfg = t.cfg)
    (he : e.receivedChar t.cfg = none) :
    s.Since u (chars ++ (e.sentChar t.cfg).toList) (posts ++ e.completion.toList) where
  sent := by rw [sent_of_trace_cons htrace hcfg, h.sent, List.append_assoc]
  received := (received_of_silent htrace hcfg he).trans h.received
  completions := by rw [completions_of_trace_cons htrace, h.completions, List.append_assoc]

/-- An event that is neither an access to DR nor a completion adds nothing. -/
theorem State.Since.silent (h : s.Since t chars posts) (htrace : u.trace = e :: t.trace) (hcfg : u.cfg = t.cfg)
    (hr : e.receivedChar t.cfg = none) (hs : e.sentChar t.cfg = none) (hc : e.completion = none) :
    s.Since u chars posts := by
  simpa [hs, hc] using h.observe htrace hcfg hr

/-- A completion adds itself (R91). -/
theorem State.Since.complete (h : s.Since t chars posts) (op : Op) (res : Option Word) :
    s.Since (t.complete op res) chars (posts ++ [(op, res)]) := by
  simpa [Event.sentChar, Event.completion] using h.observe (State.complete_trace t op res) rfl rfl

/-- FR does not lie at DR's address, in any binding (R30). -/
theorem addr_fr_ne_addr_dr (cfg : Params) : cfg.addr .fr ≠ cfg.addr .dr := by
  show cfg.uartBase + 0x018#32 ≠ cfg.uartBase
  bv_omega

/-- A send poll is neither seen nor posted (R107, R125). -/
theorem State.Since.sendPoll (h : s.Since t chars posts) (op : Op) : s.Since (t.sendPoll op) chars posts :=
  h.silent rfl rfl (if_neg (addr_fr_ne_addr_dr t.cfg)) rfl rfl

/-- SEND's last step sends CH (R109). -/
theorem State.Since.sendWrite (h : s.Since t chars posts) : s.Since t.sendWrite (chars ++ [t.dp.ch]) posts := by
  simpa [Event.sentChar, Event.completion] using h.observe (sendWrite_trace t) (sendWrite_cfg t) rfl

end Since

/-! ### A run of one command -/

/-- The run of `i` that began at `s` without an issue has come to `t`: CMD still holds the command, no fault is
raised, and MODE, memory and the configuration are as they were. -/
structure State.RunOf (s : State) (i : Instr) (t : State) : Prop where
  unissued : t.unissued
  command : decode t.cmd = .ok i
  mode : t.mode = s.mode
  mem : t.mem = s.mem
  cfg : t.cfg = s.cfg

/-- The command stands in `u` where it stood in `t`: SEQ, the datapath and what the engine has sent, received and
posted are the same. -/
structure State.Unmoved (t u : State) : Prop where
  seq : u.seq = t.seq
  dp : u.dp = t.dp
  sent : u.sent = t.sent
  received : u.received = t.received
  completions : u.completions = t.completions

section RunOf

variable {i : Instr} {s t u : State}

theorem State.RunOf.frame (h : s.RunOf i t) (hf : t.Frame u) : s.RunOf i u :=
  ⟨hf.unissued h.unissued, hf.cmd ▸ h.command, hf.mode.trans h.mode, hf.mem.trans h.mem, hf.cfg.trans h.cfg⟩

theorem State.RunOf.takeTurn (h : s.RunOf i t) : s.RunOf i t.takeTurn :=
  ⟨h.unissued.takeTurn, h.command, h.mode, h.mem, h.cfg⟩

theorem takeTurn_unmoved (s : State) : s.Unmoved s.takeTurn := ⟨rfl, rfl, rfl, rfl, rfl⟩

/-- The line environment moves no command on (R20, R120 to R122). -/
theorem lineStep_unmoved (e : LineStep) (s : State) : s.Unmoved (s.lineStep e) := by
  refine ⟨lineStep_seq e s, lineStep_dp e s, lineStep_sent e s, ?received, ?completions⟩ <;>
    rcases lineStep_cases e s with h | ⟨b, -, -, -, h⟩ | ⟨b, rest, -, -, -, h⟩ | ⟨-, -, h⟩ <;> rw [h]
  all_goals simp [State.received, State.completions, State.events, Event.receivedChar, Event.completion]

theorem State.Since.unmoved {chars : List Byte} {posts : List (Op × Option Word)} (h : s.Since t chars posts)
    (hu : t.Unmoved u) : s.Since u chars posts :=
  ⟨hu.sent.trans h.sent, hu.received.trans h.received, hu.completions.trans h.completions⟩

/-- What holds where a command starts, depends on nothing the other agents reach, and is kept by each step of the
command, holds wherever a run of the command without an issue stands, whatever the schedule (R124). -/
theorem runOf_induction {P : State → Prop} (hother : ∀ u v, u.Unmoved v → P u → P v)
    (hengine : ∀ u v, s.RunOf i u → P u → u.seq ≠ .idle → exec i u = .next v → u.Frame v ∧ P v)
    (hs : s.unissued) (hcmd : decode s.cmd = .ok i) (hP : P s) {k : Nat} (hrun : runs k s t) :
    s.RunOf i t ∧ P t := by
  refine runs_induction (P := fun u => s.RunOf i u ∧ P u) (fun u v ⟨hu, hPu⟩ hstep => ?_)
    ⟨⟨hs, hcmd, rfl, rfl, rfl⟩, hP⟩ hrun
  have hPu' := hother _ _ (takeTurn_unmoved u) hPu
  rcases step_unissued_cases hu.unissued hstep with ⟨j, hcur, hexec⟩ | ⟨-, rfl⟩ | ⟨e, rfl⟩
  · obtain ⟨-, ⟨op, ph, hseq⟩, hdecode⟩ := current_eq_some.1 hcur
    obtain rfl : i = j := Except.ok.inj (hu.command.symm.trans hdecode)
    obtain ⟨hf, hPv⟩ := hengine _ v hu.takeTurn hPu' (by simp [hseq]) hexec
    exact ⟨hu.takeTurn.frame hf, hPv⟩
  · exact ⟨hu.takeTurn, hPu'⟩
  · exact ⟨hu.takeTurn.frame (lineStep_frame e _), hother _ _ (lineStep_unmoved e _) hPu'⟩

end RunOf

/-! ### The engine moving alone -/

section Alone

variable {i : Instr} {s t u : State}

theorem runs_succ {k : Nat} (hstep : step s = .next u) (hrun : runs k u t) : runs (k + 1) s t := by
  simp only [runs, Host.Core.run]
  rw [show Sys2Proof.core.step s = .next u from hstep]
  exact hrun

theorem State.Frame.alone (hf : s.Frame t) (h : s.alone) : t.alone := by
  rwa [State.alone, hf.cfg, hf.fault, hf.agenda]

/-- With no other agent moving, every step of a running command is the engine's. -/
theorem step_of_alone {op : Op} {ph : Phase} (h : s.alone) (hdecode : decode s.cmd = .ok i)
    (hseq : s.seq = .run op ph) : step s = exec i s := by
  obtain ⟨hok, hfault, hagenda⟩ := h
  rw [step_of_current hok (turn_nil hagenda) (current_eq_some.2 ⟨hfault, ⟨op, ph, hseq⟩, hdecode⟩),
    takeTurn_nil hagenda]

end Alone

end Sys2Proof.Machine
end

section
/-! PROOF. A whole TXSTR (spec/41_uart_driver.md R140, R141): what it has sent wherever its run stands, and that it
ends where TXQ has room. -/

namespace Sys2Proof.Machine

/-! ### The string in memory -/

/-- From the address on, wherever it lies modulo 2^32, memory holds the characters, none of them zero, and a zero
byte after them, all at admitted addresses (R68, R140). -/
def State.Spells (s : State) : Word → List Byte → Prop
  | p, [] => s.cfg.admits p = true ∧ s.byteAt p = 0x00#8
  | p, c :: rest => s.cfg.admits p = true ∧ s.byteAt p = c ∧ c ≠ 0x00#8 ∧ s.Spells (p + 1#32) rest

theorem spells_of_bytes {s : State} {a : Word} {str : List Byte} (hne : ∀ c ∈ str, c ≠ 0x00#8)
    (hadm : ∀ k, k ≤ str.length → s.cfg.admits (a + BitVec.ofNat 32 k) = true)
    (hbytes : ∀ k, (h : k < str.length) → s.byteAt (a + BitVec.ofNat 32 k) = str[k])
    (hend : s.byteAt (a + BitVec.ofNat 32 str.length) = 0x00#8) : s.Spells a str := by
  induction str generalizing a with
  | nil => exact ⟨by simpa using hadm 0 le_rfl, by simpa using hend⟩
  | cons c rest ih =>
    have hnext (k : Nat) : a + 1#32 + BitVec.ofNat 32 k = a + BitVec.ofNat 32 (k + 1) := by
      rw [BitVec.ofNat_add, BitVec.add_comm (BitVec.ofNat 32 k), BitVec.add_assoc]
    refine ⟨by simpa using hadm 0 (Nat.zero_le _), by simpa using hbytes 0 (Nat.zero_lt_succ _),
      hne c List.mem_cons_self, ih (fun d hd => hne d (List.mem_cons_of_mem c hd)) (fun k hk => ?_)
      (fun k hk => ?_) ?_⟩
    · rw [hnext]
      exact hadm (k + 1) (Nat.succ_le_succ hk)
    · rw [hnext]
      exact hbytes (k + 1) (Nat.succ_lt_succ hk)
    · rw [hnext]
      exact hend

/-! ### Whatever the schedule -/

section Progress

variable {s t u v : State} {a : Word} {str : List Byte}

/-- How far a TXSTR of `str` that began at `s` has come: it has yet to start; it reads the next byte, with the
rest of the string at PTR; it sends the character in CH, with the rest after PTR; or it has ended. -/
inductive TxstrProgress (s : State) (str : List Byte) (t : State) : Prop where
  | starting (hseq : t.seq = .run .txstr .start) (hobs : s.Since t [] [])
  | reading (sent rest : List Byte) (hseq : t.seq = .run .txstr .strRead) (hstr : sent ++ rest = str)
      (hspells : s.Spells t.dp.ptr rest) (hobs : s.Since t sent [])
  | sending (sent rest : List Byte) (hseq : t.seq = .run .txstr .txPoll ∨ t.seq = .run .txstr .txWrite)
      (hstr : sent ++ t.dp.ch :: rest = str) (hspells : s.Spells (t.dp.ptr + 1#32) rest) (hobs : s.Since t sent [])
  | ended (hseq : t.seq = .idle) (hobs : s.Since t str [(.txstr, none)])

theorem TxstrProgress.unmoved (h : TxstrProgress s str t) (hu : t.Unmoved u) : TxstrProgress s str u := by
  cases h with
  | starting hseq hobs => exact .starting (hu.seq.trans hseq) (hobs.unmoved hu)
  | reading sent rest hseq hstr hspells hobs =>
    exact .reading sent rest (hu.seq.trans hseq) hstr (by rwa [hu.dp]) (hobs.unmoved hu)
  | sending sent rest hseq hstr hspells hobs =>
    exact .sending sent rest (by rwa [hu.seq]) (by rwa [hu.dp]) (by rwa [hu.dp]) (hobs.unmoved hu)
  | ended hseq hobs => exact .ended (hu.seq.trans hseq) (hobs.unmoved hu)

/-- TXSTR's read meets no refused address in the string: it ends at the terminator, and latches any other
character (R140). -/
theorem readStringByte_progress {sent rest : List Byte} (hmem : t.mem = s.mem) (hcfg : t.cfg = s.cfg)
    (hstr : sent ++ rest = str) (hspells : s.Spells t.dp.ptr rest) (hobs : s.Since t sent []) :
    t.Frame t.readStringByte ∧ TxstrProgress s str t.readStringByte := by
  have hbyte (x : Word) : t.byteAt x = s.byteAt x := by rw [State.byteAt, hmem]; rfl
  have hread (b : Byte) : s.Since (t.record (.memRd t.dp.ptr b)) sent [] := hobs.silent rfl rfl rfl rfl rfl
  cases rest with
  | nil =>
    obtain ⟨hadm, hzero⟩ := hspells
    rw [readStringByte_terminator (by rwa [hcfg]) (by rwa [hbyte])]
    rw [List.append_nil] at hstr
    exact ⟨⟨rfl, rfl, rfl, rfl, rfl, rfl⟩, .ended rfl (hstr ▸ (hread _).complete .txstr none)⟩
  | cons c rest =>
    obtain ⟨hadm, hc, hne, hrest⟩ := hspells
    rw [readStringByte_char (by rwa [hcfg]) (by rwa [hbyte, hc]), hbyte, hc]
    exact ⟨⟨rfl, rfl, rfl, rfl, rfl, rfl⟩,
      .sending sent rest (.inl rfl) hstr hrest ⟨(hread c).sent, (hread c).received, (hread c).completions⟩⟩

/-- An engine step of TXSTR moves it on (R140). -/
theorem TxstrProgress.exec (hspells : s.Spells a str) (hrun : s.RunOf (.txstr a) u) (h : TxstrProgress s str u)
    (hne : u.seq ≠ .idle) (hexec : exec (.txstr a) u = .next v) : u.Frame v ∧ TxstrProgress s str v := by
  have next_eq {w : State} (hw : Machine.exec (.txstr a) u = .next w) : w = v :=
    Host.Outcome.next.inj (hw.symm.trans hexec)
  cases h with
  | starting hseq hobs =>
    obtain rfl := next_eq (exec_txstr_start hseq)
    obtain ⟨hf, hp⟩ := readStringByte_progress (t := { u with dp := { u.dp with ptr := a } }) hrun.mem hrun.cfg
      (List.nil_append str) hspells ⟨hobs.sent, hobs.received, hobs.completions⟩
    exact ⟨((State.Frame.refl u).withDp _).trans hf, hp⟩
  | reading sent rest hseq hstr hat hobs =>
    obtain rfl := next_eq (exec_txstr_strRead hseq)
    exact readStringByte_progress hrun.mem hrun.cfg hstr hat hobs
  | sending sent rest hseq hstr hat hobs =>
    rcases hseq with hpoll | hwrite
    · obtain rfl := next_eq (exec_txstr_txPoll hpoll)
      exact ⟨sendPoll_frame _ u, .sending sent rest (sendPoll_seq _ u) hstr hat (hobs.sendPoll _)⟩
    · obtain rfl := next_eq (exec_txstr_txWrite hwrite)
      refine ⟨((sendWrite_frame u).withDp _).goto _ _, .reading (sent ++ [u.dp.ch]) rest rfl ?_ ?_ ?_⟩
      · rwa [List.append_assoc, List.singleton_append]
      · simpa [State.advancePtr] using hat
      · exact ⟨hobs.sendWrite.sent, hobs.sendWrite.received, hobs.sendWrite.completions⟩
  | ended hseq => exact absurd hseq hne

end Progress

/-! ### With no other agent moving -/

/-- With the engine alone and room in TXQ, TXSTR polls once, writes CH and comes to the read of the next byte. -/
theorem txstr_sends_char {u : State} {a : Word} (halone : u.alone) (hcmd : decode u.cmd = .ok (.txstr a))
    (hseq : u.seq = .run .txstr .txPoll) (hroom : u.per.txq.length < u.depth) :
    ∃ v, u.Frame v ∧ v.seq = .run .txstr .strRead ∧ v.dp.ptr = u.dp.ptr + 1#32 ∧
      v.per = { u.per with txq := u.per.txq ++ [u.dp.ch] } ∧ ∀ k t, runs k v t → runs (k + 2) u t := by
  have hpolled : u.Frame (u.sendPoll .txstr) := sendPoll_frame _ u
  have hwrite : (u.sendPoll .txstr).seq = .run .txstr .txWrite := by
    rw [sendPoll_state]
    exact congrArg _ (if_neg hroom.ne)
  refine ⟨(u.sendPoll .txstr).sendWrite.advancePtr.goto .txstr .strRead,
    ((hpolled.trans (sendWrite_frame _)).withDp _).goto _ _, rfl, ?ptr, ?per, fun k t hrun => ?run⟩
  case ptr => simp [State.advancePtr]
  case per =>
    rw [sendWrite_room (s := u.sendPoll .txstr) hroom]
    rfl
  case run =>
    refine runs_succ ((step_of_alone halone hcmd hseq).trans (exec_txstr_txPoll hseq)) (runs_succ ?_ hrun)
    exact (step_of_alone (hpolled.alone halone) hcmd hwrite).trans (exec_txstr_txWrite hwrite)

/-- With the engine alone and room in TXQ for the rest of the string, TXSTR at a read of the next byte ends (R140). -/
theorem readStringByte_ends {s : State} {a : Word} (halone : s.alone) (hcmd : decode s.cmd = .ok (.txstr a))
    (rest : List Byte) (u : State) (hf : s.Frame u) (hspells : s.Spells u.dp.ptr rest)
    (hroom : u.per.txq.length + rest.length ≤ u.depth) :
    ∃ k t, runs k u.readStringByte t ∧ t.seq = .idle ∧ t.per = { u.per with txq := u.per.txq ++ rest } := by
  have hbyte (x : Word) : u.byteAt x = s.byteAt x := by rw [State.byteAt, hf.mem]; rfl
  induction rest generalizing u with
  | nil =>
    obtain ⟨hadm, hzero⟩ := hspells
    rw [readStringByte_terminator (by rwa [hf.cfg]) (by rwa [hbyte])]
    exact ⟨0, _, rfl, rfl, by simp⟩
  | cons c rest ih =>
    obtain ⟨hadm, hc, hne, hrest⟩ := hspells
    rw [List.length_cons] at hroom
    rw [readStringByte_char (by rwa [hf.cfg]) (by rwa [hbyte, hc]), hbyte, hc]
    have hlatched : s.Frame (((u.record (.memRd u.dp.ptr c)).setCh c).goto .txstr .txPoll) :=
      hf.trans ⟨rfl, rfl, rfl, rfl, rfl, rfl⟩
    obtain ⟨v, hsent, hseq, hptr, hper, hruns⟩ :=
      txstr_sends_char (a := a) (hlatched.alone halone) (by rwa [hlatched.cmd]) rfl (show _ < u.depth by simp; omega)
    have hv := hlatched.trans hsent
    have hdepth : v.depth = u.depth := by
      rw [State.depth, State.depth, Periph.fen, Periph.fen, hper, hv.cfg, hf.cfg]
      rfl
    obtain ⟨k, t, hrun, hidle, ht⟩ := ih v hv (hptr ▸ hrest) (by rw [hdepth, hper]; simp; omega)
      (fun x => by rw [State.byteAt, hv.mem]; rfl)
    refine ⟨k + 1 + 2, t, hruns _ t (runs_succ ?_ hrun), hidle, by rw [ht, hper]; simp⟩
    exact (step_of_alone (hv.alone halone) (by rwa [hv.cmd]) hseq).trans (exec_txstr_strRead hseq)

/-- Settles O51: the progress of TXSTR along any schedule, and its run with the engine alone. -/
theorem txstrSendsTheString : Obligations.TxstrSendsTheString := by
  intro s a str hs hstarted hne hadm hbytes hend
  have hspells := spells_of_bytes hne hadm hbytes hend
  obtain ⟨hseq, hcmd⟩ := hstarted
  refine ⟨fun k t hrun => ?schedule, fun hagenda hroom => ?ends⟩
  case schedule =>
    obtain ⟨hat, hprogress⟩ := runOf_induction (P := TxstrProgress s str) (fun _ _ hu h => h.unmoved hu)
      (fun _ _ hu h => h.exec hspells hu) hs hcmd (.starting hseq (.refl s)) hrun
    have unfinished {sent rest : List Byte} (hstr : sent ++ rest = str) (hobs : s.Since t sent []) :
        (∃ m, t.sent = s.sent ++ str.take m) ∧ t.completions = s.completions :=
      ⟨⟨sent.length, by rw [hobs.sent, ← hstr, List.take_left]⟩, by rw [hobs.completions, List.append_nil]⟩
    obtain ⟨-, hfault, -⟩ := hat.unissued
    have hreceived : t.received = s.received := by cases hprogress <;> exact State.Since.received ‹_›
    refine ⟨hfault, hat.mode, hat.mem, hreceived, fun hbusy => ?_, fun hidle => ?_⟩
    · cases hprogress with
      | starting _ hobs => exact unfinished (List.nil_append str) hobs
      | reading _ _ _ hstr _ hobs => exact unfinished hstr hobs
      | sending _ _ _ hstr _ hobs => exact unfinished hstr hobs
      | ended h => exact absurd h hbusy
    · cases hprogress with
      | starting h => exact nomatch hidle.symm.trans h
      | reading _ _ h => exact nomatch hidle.symm.trans h
      | sending _ _ h => exact h.elim (nomatch hidle.symm.trans ·) (nomatch hidle.symm.trans ·)
      | ended _ hobs => exact ⟨hobs.sent, hobs.completions⟩
  case ends =>
    obtain ⟨hok, hfault, -⟩ := hs
    have halone : s.alone := ⟨hok, hfault, hagenda⟩
    obtain ⟨k, t, hrun, hidle, hper⟩ := readStringByte_ends halone hcmd str { s with dp := { s.dp with ptr := a } }
      ((State.Frame.refl s).withDp _) hspells hroom
    exact ⟨k + 1, t, runs_succ ((step_of_alone halone hcmd hseq).trans (exec_txstr_start hseq)) hrun, hidle, hper⟩

end Sys2Proof.Machine
end

section
/-! PROOF. The command encoding and the assembler (spec/30_encoding.md R81 to R89, R93): decoding and encoding
undo each other, the decoder answers the one row a word selects, and no operand is cut short. -/

namespace Sys2Proof

/-! ### Decode and encode -/

/-- A command's own word has its OP value and zeros in every field it does not use (R81 to R84). -/
theorem encode_fields (i : Instr) : Laws.Fields.Statement i := by
  cases i with
  | init => exact Laws.Fields.init
  | rxchar => exact Laws.Fields.rxchar
  | txchar c => exact Laws.Fields.txchar c
  | txstr a => exact Laws.Fields.txstr a
  | decdec => exact Laws.Fields.decdec
  | encdec n => exact Laws.Fields.encdec n
  | dechex => exact Laws.Fields.dechex
  | enchex n => exact Laws.Fields.enchex n
  | rdline a max => exact Laws.Fields.rdline a max

/-- The operands taken from a command's own word are its operands (R82). -/
theorem assembleOperands_encode (i : Instr) : assembleOperands i.op (encode i) = i := by
  cases i <;> simp [assembleOperands, encode, Instr.op]

theorem decode_encode (i : Instr) : decode (encode i) = .ok i := by
  obtain ⟨hop, hreserved⟩ := encode_fields i
  exact decode_eq_ok.2 ⟨(selects_iff _ _).2 ⟨hop, hreserved⟩, (assembleOperands_encode i).symm⟩

/-- The fields of R84 that must be zero, one by one. -/
theorem reservedZero_iff {op : Op} {w : Command} :
    reservedZero op w = true ↔
      (op.usesCH = false → fieldCH w = 0#8) ∧ (op.usesMAX = false → fieldMAX w = 0#16) ∧
      (op.usesA = false → fieldA w = 0#32) := by
  simp [reservedZero, or_iff_not_imp_left, and_assoc]

/-- The command assembled from a word is encoded with the word's used fields, and zeros elsewhere (R82, R84). -/
theorem encode_assembleOperands (op : Op) (w : Command) :
    encode (assembleOperands op w) =
      packFields (if op.usesA then fieldA w else 0) (if op.usesMAX then fieldMAX w else 0)
        (if op.usesCH then fieldCH w else 0) op.code := by
  cases op <;> rfl

/-- A word that selects an operation's row holds nothing but the command assembled from it (R83, R84). -/
theorem encode_assembleOperands_of_selects {op : Op} {w : Command} (h : op.selects w = true) :
    encode (assembleOperands op w) = w := by
  obtain ⟨hop, hreserved⟩ := (selects_iff op w).1 h
  obtain ⟨hCH, hMAX, hA⟩ := reservedZero_iff.1 hreserved
  have field_eq {n : Nat} {used : Bool} {x : BitVec n} (hx : used = false → x = 0) : (if used then x else 0) = x := by
    cases used with
    | true => rfl
    | false => exact (hx rfl).symm
  rw [encode_assembleOperands, field_eq hA, field_eq hMAX, field_eq hCH, ← hop, packFields_fields]

/-- Settles O1: a command's word selects the row of its operation, and its fields are the operands. -/
theorem decodeOfEncodeIsTheCommand : Obligations.DecodeOfEncodeIsTheCommand := decode_encode

/-- Settles O2: OP and the used fields are in the command, and every other field of the word is zero. -/
theorem encodeOfDecodeIsTheWord : Obligations.EncodeOfDecodeIsTheWord := by
  intro w i hdecode
  obtain ⟨hselects, hi⟩ := decode_eq_ok.1 hdecode
  rw [hi]
  exact encode_assembleOperands_of_selects hselects

/-! ### The opcode map -/

theorem Op.code_injective : Function.Injective Op.code := fun op op' h =>
  Option.some.inj ((ofCode_code op).symm.trans (h ▸ ofCode_code op'))

/-- The rows of the opcode map exclude each other (R83, R93). -/
theorem selects_unique {op op' : Op} {w : Command} (h : op.selects w = true) (h' : op'.selects w = true) : op = op' :=
  Op.code_injective (((selects_iff op w).1 h).1.symm.trans ((selects_iff op' w).1 h').1)

theorem decode_of_selects {op : Op} {w : Command} (h : op.selects w = true) :
    decode w = .ok (assembleOperands op w) := by
  have hop := assembleOperands_op op w
  exact decode_eq_ok.2 ⟨hop.symm ▸ h, by rw [hop]⟩

/-- The decoder refuses a word exactly when it selects no row (R85, R93). -/
theorem decode_error_iff {w : Command} : (∃ e, decode w = .error e) ↔ ∀ op : Op, op.selects w = false := by
  constructor
  · rintro ⟨e, he⟩ op
    by_contra hne
    have hok := decode_of_selects (Bool.eq_true_of_not_eq_false hne)
    exact nomatch hok.symm.trans he
  · intro hnone
    cases hd : decode w with
    | error e => exact ⟨e, rfl⟩
    | ok i =>
      obtain ⟨hselects, -⟩ := decode_eq_ok.1 hd
      exact absurd hselects (by simp [hnone i.op])

/-- Settles O3: the decoder answers a command exactly when a row is selected, and no word selects two. -/
theorem decoderFollowsTheOpcodeMap : Obligations.DecoderFollowsTheOpcodeMap := fun w =>
  ⟨fun _ hi => (decode_eq_ok.1 hi).1,
    fun op hop => ⟨_, decode_of_selects hop, assembleOperands_op op w⟩,
    fun _ _ => selects_unique,
    decode_error_iff⟩

/-- The OP values of the operations are 0x01 to 0x09 (R83). -/
theorem Op.exists_code_iff {b : Byte} : (∃ op : Op, b = op.code) ↔ ¬ (b = 0x00#8 ∨ 0x0A#8 ≤ b) := by
  constructor
  · rintro ⟨op, rfl⟩
    cases op <;> decide
  · intro hb
    have hofCode : Op.ofCode b ≠ none := by
      unfold Op.ofCode
      split_ifs
      case neg => bv_omega
      all_goals exact Option.some_ne_none _
    obtain ⟨op, hop⟩ := Option.ne_none_iff_exists'.1 hofCode
    exact ⟨op, ofCode_eq_some hop⟩

/-- R85's three ways for a word to be illegal. -/
theorem decode_error_iff_fields {w : Command} :
    (∃ e, decode w = .error e) ↔
      (fieldOP w = 0x00#8 ∨ 0x0A#8 ≤ fieldOP w ∨ ∃ op : Op, fieldOP w = op.code ∧ reservedZero op w = false) := by
  rw [decode_error_iff, ← or_assoc]
  constructor
  · intro hnone
    by_cases hop : ∃ op : Op, fieldOP w = op.code
    · obtain ⟨op, hop⟩ := hop
      refine .inr ⟨op, hop, Bool.eq_false_of_not_eq_true fun hreserved => ?_⟩
      have hselects := (selects_iff op w).2 ⟨hop, hreserved⟩
      exact absurd hselects (by simp [hnone op])
    · exact .inl (not_not.1 (mt Op.exists_code_iff.2 hop))
  · refine fun hbad op => Bool.eq_false_of_not_eq_true fun hselects => ?_
    obtain ⟨hop, hreserved⟩ := (selects_iff op w).1 hselects
    rcases hbad with hcode | ⟨op', hop', hreserved'⟩
    · exact Op.exists_code_iff.1 ⟨op, hop⟩ hcode
    · obtain rfl := Op.code_injective (hop.symm.trans hop')
      exact nomatch hreserved.symm.trans hreserved'

/-! ### The example words -/

theorem decode_of_encode_eq {w : Command} {i : Instr} (h : encode i = w) : decode w = .ok i := h ▸ decode_encode i

/-- Settles O5: a word that means a command is the command's encoding; the others are refused by evaluation. -/
theorem exampleWordsDecode : Obligations.ExampleWordsDecode := by
  refine ⟨?_, ?_, ?_, ?_, ?_, ?_, ?_, ?_, ?_, ?_, by decide, by decide, by decide, by decide, by decide, ?_, ?_⟩
  all_goals exact decode_of_encode_eq rfl

/-! ### The assembler -/

namespace Assembler

/-- A line with an operand that does not fit its field is refused, never cut short (R88). -/
theorem expand_eq_none {l : SourceLine} (h : l.fits = false) : expand l = none := by
  simp [expand, h]

variable {c a n m : Nat}

theorem expand_txchar (h : c < 2 ^ 8) : expand (.txchar c) = some [.txchar (BitVec.ofNat 8 c)] :=
  if_pos (decide_eq_true h)

theorem expand_txstr (h : a < 2 ^ 32) : expand (.txstr a) = some [.txstr (BitVec.ofNat 32 a)] :=
  if_pos (decide_eq_true h)

theorem expand_encdec (h : n < 2 ^ 32) : expand (.encdec n) = some [.encdec (BitVec.ofNat 32 n)] :=
  if_pos (decide_eq_true h)

theorem expand_enchex (h : n < 2 ^ 32) : expand (.enchex n) = some [.enchex (BitVec.ofNat 32 n)] :=
  if_pos (decide_eq_true h)

theorem expand_rdline (ha : a < 2 ^ 32) (hm : m < 2 ^ 16) :
    expand (.rdline a m) = some [.rdline (BitVec.ofNat 32 a) (BitVec.ofNat 16 m)] :=
  if_pos (Bool.and_eq_true_iff.2 ⟨decide_eq_true ha, decide_eq_true hm⟩)

end Assembler

/-- Settles O6: an operand within its field is the number the field holds. -/
theorem assemblerRefusesOversizedOperands : Obligations.AssemblerRefusesOversizedOperands := by
  have oversized {k x : Nat} (h : 2 ^ k ≤ x) : decide (x < 2 ^ k) = false := decide_eq_false h.not_gt
  have whole {k x : Nat} (h : x < 2 ^ k) : (BitVec.ofNat k x).toNat = x :=
    (BitVec.toNat_ofNat x k).trans (Nat.mod_eq_of_lt h)
  refine ⟨fun c hc => ?_, fun a ha => ?_, fun n hn => ?_, fun n hn => ?_, fun a m h => ?_,
    fun c hc => ⟨_, Assembler.expand_txchar hc, whole hc⟩, fun a ha => ⟨_, Assembler.expand_txstr ha, whole ha⟩,
    fun n hn => ⟨_, Assembler.expand_encdec hn, whole hn⟩, fun n hn => ⟨_, Assembler.expand_enchex hn, whole hn⟩,
    fun a m ha hm => ⟨_, _, Assembler.expand_rdline ha hm, whole ha, whole hm⟩, by decide, by decide⟩
  · exact Assembler.expand_eq_none (oversized hc)
  · exact Assembler.expand_eq_none (oversized ha)
  · exact Assembler.expand_eq_none (oversized hn)
  · exact Assembler.expand_eq_none (oversized hn)
  · refine Assembler.expand_eq_none (Bool.and_eq_false_iff.2 ?_)
    exact h.imp oversized oversized

end Sys2Proof
end

section
/-! PROOF. The host's issue (spec/30_encoding.md R85, R90), outcome by outcome in the port's order. -/

namespace Sys2Proof.Machine

section Issue

variable {s : State} {w : Command}

theorem issue_of_busy (hfault : s.fault = none) (hseq : s.seq ≠ .idle) :
    s.issue w = (s.record (.issue w)).raise (.commandWhileBusy w) := by
  simp [State.issue, State.halted, State.isIdle, hfault, hseq]

theorem issue_of_illegal {e : Illegal} (hfault : s.fault = none) (hseq : s.seq = .idle)
    (hdecode : decode w = .error e) : s.issue w = (s.record (.issue w)).raise (.illegalCommand w) := by
  simp [State.issue, State.halted, State.isIdle, hfault, hseq, hdecode]

theorem issue_of_uninit {i : Instr} (hfault : s.fault = none) (hseq : s.seq = .idle) (hdecode : decode w = .ok i)
    (hop : i.op ≠ .init) (hmode : s.mode = .uninit) : s.issue w = (s.record (.issue w)).raise (.notReady w) := by
  simp [State.issue, State.halted, State.isIdle, hfault, hseq, hdecode, hop, hmode]

theorem issue_of_accepted {i : Instr} (hfault : s.fault = none) (hseq : s.seq = .idle) (hdecode : decode w = .ok i)
    (hready : i.op = .init ∨ s.mode = .ready) :
    s.issue w = ({ s.record (.issue w) with cmd := w } : State).goto i.op .start := by
  rcases hready with h | h <;> simp [State.issue, State.halted, State.isIdle, hfault, hseq, hdecode, h]

end Issue

/-- Settles O4: the words that select no row are R85's, and an idle engine's issue of one only raises the fault. -/
theorem illegalWordsRaiseIllegalCommand : Obligations.IllegalWordsRaiseIllegalCommand := by
  refine fun w s => ⟨decode_error_iff_fields, ?_⟩
  rintro ⟨e, hdecode⟩ hfault hseq
  exact issue_of_illegal hfault hseq hdecode

/-- Settles O7: the outcomes of an issue in R90's order; the row a word selects names its command's operation. -/
theorem issueFollowsThePortProtocol : Obligations.IssueFollowsThePortProtocol := by
  refine fun w s => ⟨issue_of_halted w, issue_of_busy, fun hfault hseq hnone => ?illegal,
    fun op hfault hseq hselects hop hmode => ?notReady, fun op hfault hseq hselects hready => ?accepted⟩
  case illegal =>
    obtain ⟨e, hdecode⟩ := decode_error_iff.2 hnone
    exact issue_of_illegal hfault hseq hdecode
  case notReady =>
    refine issue_of_uninit hfault hseq (decode_of_selects hselects) ?_ hmode
    rwa [assembleOperands_op]
  case accepted =>
    have haccepted := issue_of_accepted hfault hseq (decode_of_selects hselects)
    rw [assembleOperands_op] at haccepted
    exact haccepted hready

end Sys2Proof.Machine
end

section
/-! PROOF. The end of one engine step: the command runs on, completes with its result (spec/30_encoding.md R91,
R92), or is refused an address (spec/60_exceptions.md R221 to R225); and what the host's issue adds to that. -/

namespace Sys2Proof.Machine

/-! ### The three ends of an engine step -/

/-- The result an operation completes with, from the datapath it leaves (R92). -/
def Datapath.result (r : Datapath) (op : Op) : Option Word :=
  match op with
  | .rxchar => some (r.ch.setWidth 32)
  | .decdec => some r.acc
  | .dechex => some r.acc
  | _ => none

/-- From `s` to `t` no fault has been raised and no completion posted. -/
structure State.Quiet (s t : State) : Prop where
  fault : t.fault = s.fault
  completions : t.completions = s.completions

/-- How one engine step of the operation ends. -/
inductive State.EndsStep (s : State) (op : Op) (t : State) : Prop
  /-- The operation runs on. -/
  | runs (hquiet : s.Quiet t) (hseq : t.seq ≠ .idle)
  /-- The operation is complete, and its one completion is posted (R91). -/
  | completes (hfault : t.fault = s.fault) (hseq : t.seq = .idle)
      (hdone : t.completions = s.completions ++ [(op, t.dp.result op)])
  /-- MEM_OK refuses the address, and MemRefused is raised (R66, R67). -/
  | refused (a : Word) (r : Datapath) (hop : op = .txstr ∨ op = .rdline) (ha : s.cfg.admits a = false)
      (ht : t = ({ s with dp := r } : State).raise (.memRefused a))

section Quiet

variable {s t u : State} {op : Op}

theorem State.Quiet.refl (s : State) : s.Quiet s := ⟨rfl, rfl⟩

theorem State.Quiet.withDp (h : s.Quiet t) (r : Datapath) : s.Quiet { t with dp := r } := ⟨h.fault, h.completions⟩

theorem State.Quiet.withMode (h : s.Quiet t) (m : Mode) : s.Quiet { t with mode := m } := ⟨h.fault, h.completions⟩

/-- An access is observed, and is no completion. -/
theorem State.Quiet.observe {e : Event} (h : s.Quiet t) (hfault : u.fault = t.fault) (htrace : u.trace = e :: t.trace)
    (he : e.completion = none) : s.Quiet u :=
  ⟨hfault.trans h.fault, by rw [completions_of_trace_cons htrace, he, Option.toList_none, List.append_nil,
    h.completions]⟩

theorem busRead_quiet (r : Reg) (s : State) : s.Quiet (s.busRead r).2 :=
  (State.Quiet.refl s).observe (busRead_fault r s) (busRead_trace r s) rfl

theorem busWrite_quiet (r : Reg) (v : Word) (s : State) : s.Quiet (s.busWrite r v) :=
  (State.Quiet.refl s).observe (busWrite_fault r v s) (busWrite_trace r v s) rfl

theorem recvRead_quiet (s : State) : s.Quiet s.recvRead := (busRead_quiet .dr s).withDp _

theorem sendWrite_quiet (s : State) : s.Quiet s.sendWrite := busWrite_quiet .dr _ s

theorem State.Quiet.goto (h : s.Quiet t) (op' : Op) (ph : Phase) : s.EndsStep op (t.goto op' ph) :=
  .runs ⟨h.fault, h.completions⟩ nofun

/-- A poll leads to another poll or to the access (R107 to R109). -/
theorem State.Quiet.recvPoll (h : s.Quiet t) (op' : Op) : s.EndsStep op (t.recvPoll op') :=
  (h.observe (busRead_fault .fr t) (busRead_trace .fr t) rfl).goto _ _

theorem State.Quiet.sendPoll (h : s.Quiet t) (op' : Op) : s.EndsStep op (t.sendPoll op') :=
  (h.observe (busRead_fault .fr t) (busRead_trace .fr t) rfl).goto _ _

theorem State.Quiet.complete (h : s.Quiet t) {res : Option Word} (hres : res = t.dp.result op) :
    s.EndsStep op (t.complete op res) := by
  refine .completes h.fault rfl ?_
  rw [completions_of_trace_cons (State.complete_trace t op res), h.completions, hres]
  rfl

end Quiet

/-! ### One engine step, command by command -/

section Commands

variable {s t : State}

/-- A decoder completes with the accumulator (R92, R163). -/
theorem decoderStep_endsStep {op : Op} (hop : op = .decdec ∨ op = .dechex) (base : Word) (digit : Byte → Option Word) :
    s.EndsStep op (s.decoderStep op base digit) := by
  have hresult (r : Datapath) : some r.acc = r.result op := by rcases hop with rfl | rfl <;> rfl
  unfold State.decoderStep
  split
  · exact (State.Quiet.refl s).recvPoll op
  · have hread := recvRead_quiet s
    dsimp only
    cases decodeChar base digit s.recvRead.dp.ch s.recvRead.dp with
    | finish => exact hread.complete (hresult _)
    | echo r => exact (hread.withDp r).goto op .txPoll
    | ignore => exact hread.goto op .rxPoll
  · exact (State.Quiet.refl s).sendPoll op
  · exact (sendWrite_quiet s).goto op .rxPoll
  · exact ((State.Quiet.refl s).withDp _).recvPoll op

/-- An encoder completes without a result (R92, R165). -/
theorem encoderStep_endsStep {op : Op} (hop : op = .encdec ∨ op = .enchex) (base : Word) (char : Nibble → Byte)
    (n : Word) : s.EndsStep op (s.encoderStep op base char n) := by
  have hresult (r : Datapath) : none = r.result op := by rcases hop with rfl | rfl <;> rfl
  unfold State.encoderStep
  split
  · exact (State.Quiet.refl s).sendPoll op
  · dsimp only
    split
    · exact (sendWrite_quiet s).complete (hresult _)
    · exact ((sendWrite_quiet s).withDp _).goto op .txPoll
  · exact ((State.Quiet.refl s).withDp _).sendPoll op

theorem initRead_endsStep (r : Reg) (next : InitPos) : s.EndsStep .init (s.initRead r next) :=
  ((busRead_quiet r s).withDp _).goto .init (.init next)

theorem initWrite_endsStep (r : Reg) (x : Word) (next : InitPos) : s.EndsStep .init (s.initWrite r x next) :=
  (busWrite_quiet r x s).goto .init (.init next)

/-- INIT completes with its last access, the write of AMSEL (R133). -/
theorem initStep_endsStep (p : InitPos) : s.EndsStep .init (s.initStep p) := by
  cases p with
  | wrAmsel => exact ((busWrite_quiet .amsel _ s).withMode .ready).complete rfl
  | pollPr => exact ((busRead_quiet .prGpio s).withDp _).goto .init _
  | rdRcgcGpio | rdCtlOff | rdCtlOn | rdAfsel | rdDen | rdPctl | rdAmsel => exact initRead_endsStep _ _
  | _ => exact initWrite_endsStep _ _ _

theorem execInit_endsStep (h : execInit s = .next t) : s.EndsStep .init t := by
  unfold execInit at h
  split at h <;> obtain rfl := Host.Outcome.next.inj h
  · exact initStep_endsStep _
  · exact initRead_endsStep _ _

theorem execRxchar_endsStep (h : execRxchar s = .next t) : s.EndsStep .rxchar t := by
  unfold execRxchar at h
  split at h <;> obtain rfl := Host.Outcome.next.inj h
  · exact (recvRead_quiet s).complete rfl
  · exact (State.Quiet.refl s).recvPoll .rxchar

theorem execTxchar_endsStep {c : Byte} (h : execTxchar c s = .next t) : s.EndsStep .txchar t := by
  unfold execTxchar at h
  split at h <;> obtain rfl := Host.Outcome.next.inj h
  · exact (State.Quiet.refl s).sendPoll .txchar
  · exact (sendWrite_quiet s).complete rfl
  · exact ((State.Quiet.refl s).withDp _).sendPoll .txchar

/-- TXSTR's byte read completes at the terminator (R140). -/
theorem readStringByte_endsStep (r : Datapath) : s.EndsStep .txstr ({ s with dp := r } : State).readStringByte := by
  have hread (b : Byte) : s.Quiet (({ s with dp := r } : State).record (.memRd r.ptr b)) :=
    (State.Quiet.refl s).observe rfl rfl rfl
  rcases readStringByte_cases { s with dp := r } with ⟨ha, h⟩ | ⟨-, -, h⟩ | ⟨-, -, h⟩ <;> rw [h]
  · exact .refused r.ptr r (.inl rfl) ha rfl
  · exact (hread _).complete rfl
  · exact ((hread _).withDp _).goto .txstr .txPoll

theorem execTxstr_endsStep {a : Word} (h : execTxstr a s = .next t) : s.EndsStep .txstr t := by
  unfold execTxstr at h
  split at h <;> obtain rfl := Host.Outcome.next.inj h
  · exact readStringByte_endsStep s.dp
  · exact (State.Quiet.refl s).sendPoll .txstr
  · exact ((sendWrite_quiet s).withDp _).goto .txstr .strRead
  · exact readStringByte_endsStep _

theorem applyLine_endsStep (h : s.Quiet t) (act : LineAct) : s.EndsStep .rdline (t.applyLine act) := by
  cases act with
  | terminate => exact h.goto .rdline .lineTerm
  | erase => exact (h.withDp _).goto .rdline .txPoll
  | store => exact h.goto .rdline .lineStore
  | drop => exact h.goto .rdline .rxPoll

theorem storeLineChar_endsStep : s.EndsStep .rdline s.storeLineChar := by
  rcases storeLineChar_cases s with ⟨ha, h⟩ | ⟨-, h⟩ <;> rw [h]
  · exact .refused _ s.dp (.inr rfl) ha rfl
  · exact State.Quiet.goto (.observe (e := .memWr s.dp.lineAddr s.dp.ch) (.refl s) (by rfl) (by rfl) rfl)
      .rdline .txPoll

/-- RDLINE completes with the write of the terminator (R201). -/
theorem terminateLine_endsStep : s.EndsStep .rdline s.terminateLine := by
  rcases terminateLine_cases s with ⟨ha, h⟩ | ⟨-, h⟩ <;> rw [h]
  · exact .refused _ s.dp (.inr rfl) ha rfl
  · exact State.Quiet.complete (.observe (e := .memWr s.dp.lineAddr charNUL) (.refl s) (by rfl) (by rfl) rfl) rfl

theorem execRdline_endsStep {a : Word} {max : Half} (h : execRdline a max s = .next t) : s.EndsStep .rdline t := by
  unfold execRdline at h
  split at h <;> obtain rfl := Host.Outcome.next.inj h
  · exact (State.Quiet.refl s).recvPoll .rdline
  · exact applyLine_endsStep (recvRead_quiet s) _
  · exact storeLineChar_endsStep
  · exact terminateLine_endsStep
  · exact (State.Quiet.refl s).sendPoll .rdline
  · exact (sendWrite_quiet s).goto .rdline .rxPoll
  · exact ((State.Quiet.refl s).withDp _).recvPoll .rdline

/-- One engine step of a command ends in one of the three ways, whatever SEQ holds. -/
theorem exec_endsStep {i : Instr} (h : exec i s = .next t) : s.EndsStep i.op t := by
  cases i with
  | init => exact execInit_endsStep h
  | rxchar => exact execRxchar_endsStep h
  | txchar c => exact execTxchar_endsStep h
  | txstr a => exact execTxstr_endsStep h
  | decdec => exact Host.Outcome.next.inj h ▸ decoderStep_endsStep (.inl rfl) _ _
  | encdec n => exact Host.Outcome.next.inj h ▸ encoderStep_endsStep (.inl rfl) _ _ n
  | dechex => exact Host.Outcome.next.inj h ▸ decoderStep_endsStep (.inr rfl) _ _
  | enchex n => exact Host.Outcome.next.inj h ▸ encoderStep_endsStep (.inr rfl) _ _ n
  | rdline a max => exact execRdline_endsStep h

end Commands

/-! ### The steps that set FAULT -/

/-- The fault an issue raises is the first of R90's three that applies, and is all that it changes. -/
theorem issue_faults {s : State} {w : Command} {r : Fault} (hnone : s.fault = none) (hr : (s.issue w).fault = some r) :
    s.issue w = (s.record (.issue w)).raise r ∧
    ((r = .commandWhileBusy w ∧ s.seq ≠ .idle) ∨
      (r = .illegalCommand w ∧ s.seq = .idle ∧ ∀ op : Op, op.selects w = false) ∨
      (r = .notReady w ∧ s.seq = .idle ∧ s.mode = .uninit ∧ ∃ op : Op, op ≠ .init ∧ op.selects w = true)) := by
  rcases issue_cases w s with ⟨hsome, h⟩ | ⟨-, hseq, h⟩ | ⟨-, hseq, hdecode, h⟩ | ⟨-, hseq, i, hi, hop, hmode, h⟩ |
    ⟨-, -, _, -, -, h⟩ <;> rw [h] at hr ⊢
  · exact absurd hnone hsome
  · obtain rfl := Option.some.inj hr
    exact ⟨rfl, .inl ⟨rfl, hseq⟩⟩
  · obtain rfl := Option.some.inj hr
    exact ⟨rfl, .inr (.inl ⟨rfl, hseq, decode_error_iff.1 hdecode⟩)⟩
  · obtain rfl := Option.some.inj hr
    exact ⟨rfl, .inr (.inr ⟨rfl, hseq, hmode, i.op, hop, (decode_eq_ok.1 hi).1⟩)⟩
  · exact nomatch hnone.symm.trans hr

/-- The commands whose steps can be refused an address are TXSTR's and RDLINE's. -/
theorem txstr_or_rdline_of_op {i : Instr} (h : i.op = .txstr ∨ i.op = .rdline) :
    (∃ x, i = .txstr x) ∨ ∃ x max, i = .rdline x max := by
  cases i with
  | txstr a => exact .inl ⟨a, rfl⟩
  | rdline a max => exact .inr ⟨a, max, rfl⟩
  | _ => exact h.elim nofun nofun

/-- Settles O12: an engine step sets FAULT only where it ends refused, an issue only by R90's order, and the line
environment never does. -/
theorem faultsComeFromIssuesAndRefusedAccesses : Obligations.FaultsComeFromIssuesAndRefusedAccesses := by
  intro s t r hstep hnone hr
  have unchanged (h : t.fault = s.fault) : False := nomatch hnone.symm.trans (h.symm.trans hr)
  obtain ⟨-, ⟨hturn, i, hcur, hexec⟩ | ⟨-, -, rfl⟩ | ⟨e, -, rfl⟩ | ⟨w, hturn, rfl⟩⟩ := step_next_cases hstep
  · cases exec_endsStep hexec with
    | runs hquiet _ => exact (unchanged hquiet.fault).elim
    | completes hfault _ _ => exact (unchanged hfault).elim
    | refused a dp hop ha ht =>
      subst ht
      obtain rfl := Option.some.inj hr
      refine ⟨⟨rfl, rfl, rfl, rfl⟩, .inr ⟨a, rfl, hturn, ha, ?_⟩⟩
      rw [hcur]
      exact (txstr_or_rdline_of_op hop).imp (fun ⟨x, hx⟩ => ⟨x, hx ▸ rfl⟩) fun ⟨x, max, hx⟩ => ⟨x, max, hx ▸ rfl⟩
  · exact (unchanged rfl).elim
  · exact (unchanged (lineStep_frame e _).fault).elim
  · obtain ⟨hissue, hcause⟩ := issue_faults (s := s.takeTurn) hnone hr
    rw [hissue]
    exact ⟨⟨rfl, rfl, rfl, rfl⟩, .inl ⟨w, hturn, hcause⟩⟩

/-! ### The steps that post a completion -/

/-- An issue posts no completion (R90). -/
theorem issue_completions (w : Command) (s : State) : (s.issue w).completions = s.completions := by
  rcases issue_cases w s with ⟨-, h⟩ | ⟨-, -, h⟩ | ⟨-, -, -, h⟩ | ⟨-, -, _, -, -, -, h⟩ | ⟨-, -, _, -, -, h⟩ <;>
    rw [h] <;> simp [State.completions, State.events, Event.completion]

/-- An issue does not stop a running command (R90). -/
theorem issue_seq_of_busy {s : State} (w : Command) (h : s.seq ≠ .idle) : (s.issue w).seq = s.seq := by
  rcases issue_cases w s with ⟨-, hw⟩ | ⟨-, -, hw⟩ | ⟨-, hidle, -⟩ | ⟨-, hidle, -⟩ | ⟨-, hidle, -⟩
  · rw [hw]; rfl
  · rw [hw]; rfl
  all_goals exact absurd hidle h

section Posts

variable {s t : State}

/-- A step of a running command leaves it running with nothing posted, or ends it with its one completion. -/
theorem State.EndsStep.posts {op : Op} (h : s.EndsStep op t) (hbusy : s.seq ≠ .idle) :
    (t.seq ≠ .idle ∧ t.completions = s.completions) ∨
    (t.seq = .idle ∧ t.completions = s.completions ++ [(op, t.dp.result op)]) := by
  cases h with
  | runs hquiet hseq => exact .inl ⟨hseq, hquiet.completions⟩
  | completes _ hseq hdone => exact .inr ⟨hseq, hdone⟩
  | refused a r _ _ ht =>
    subst ht
    refine .inl ⟨hbusy, ?_⟩
    rw [completions_of_trace_cons (State.raise_trace _ _)]
    exact List.append_nil _

/-- A step is one of the operation in SEQ, whose command CMD holds (R25), or it posts nothing and stops no running
command. -/
theorem step_posts (hinv : s.Inv) (hstep : step s = .next t) :
    (∃ op ph, s.turn = .engine ∧ s.fault = none ∧ s.seq = .run op ph ∧ s.takeTurn.EndsStep op t) ∨
    (t.completions = s.completions ∧ (s.seq ≠ .idle → t.seq = s.seq)) := by
  obtain ⟨-, ⟨hturn, i, hcur, hexec⟩ | ⟨-, -, rfl⟩ | ⟨e, -, rfl⟩ | ⟨w, -, rfl⟩⟩ := step_next_cases hstep
  · obtain ⟨hfault, ⟨op, ph, hseq⟩, hdecode⟩ := current_eq_some.1 hcur
    obtain ⟨j, hj, rfl⟩ := hinv.command op ph hseq
    obtain rfl := Except.ok.inj (hj.symm.trans hdecode)
    exact .inl ⟨_, ph, hturn, hfault, hseq, exec_endsStep hexec⟩
  · exact .inr ⟨rfl, fun _ => rfl⟩
  · exact .inr ⟨(lineStep_unmoved e _).completions, fun _ => lineStep_seq e _⟩
  · exact .inr ⟨issue_completions w _, issue_seq_of_busy (s := s.takeTurn) w⟩

end Posts

/-- Settles O13: only a step of the operation in SEQ takes SEQ to IDLE, and it posts what R92 gives it. -/
theorem completionsArePostedWhenSeqReturnsToIdle : Obligations.CompletionsArePostedWhenSeqReturnsToIdle := by
  intro s t hinv hstep
  rcases step_posts hinv hstep with ⟨op, ph, hturn, hfault, hseq, hends⟩ | ⟨hdone, hkept⟩
  · have hbusy : s.seq ≠ .idle := by simp [hseq]
    rcases hends.posts hbusy with ⟨hbusy', hdone⟩ | ⟨hidle, hdone⟩
    · exact ⟨fun _ _ _ hidle => absurd hidle hbusy', fun _ => hdone⟩
    · refine ⟨fun op' ph' hseq' _ => ?_, fun h => (h.elim hbusy (absurd hidle)).elim⟩
      obtain ⟨rfl, rfl⟩ := Seq.run.inj (hseq.symm.trans hseq')
      exact ⟨hturn, hfault, hdone⟩
  · refine ⟨fun op ph hseq hidle => ?_, fun _ => hdone⟩
    exact nomatch hidle.symm.trans ((hkept (by simp [hseq])).trans hseq)

end Sys2Proof.Machine
end

section
/-! PROOF. The register interface under one engine step (spec/40_register_interface.md R100 to R116, R125): which
access it makes of the FIFOs, what it leaves of the characters on the line, and where it leaves SEQ. -/

namespace Sys2Proof.Machine

/-! ### The characters on the line -/

/-- The peripheral, the configuration and the characters sent, received, arrived and seen by the terminal are the
same in both states. -/
structure State.SameLine (s t : State) : Prop where
  per : t.per = s.per
  cfg : t.cfg = s.cfg
  sent : t.sent = s.sent
  received : t.received = s.received
  arrived : t.arrived = s.arrived
  terminal : t.terminal = s.terminal

/-- The event carries no character of the line: it is no access of DR and no step of the line environment. -/
structure Event.Silent (cfg : Params) (e : Event) : Prop where
  sent : e.sentChar cfg = none
  received : e.receivedChar cfg = none
  arrived : e.arrivedChar = none
  terminal : e.terminalChar = none

section Line

variable {s t u : State} {e : Event}

theorem State.SameLine.refl (s : State) : s.SameLine s := ⟨rfl, rfl, rfl, rfl, rfl, rfl⟩

theorem State.SameLine.trans (h : s.SameLine t) (h' : t.SameLine u) : s.SameLine u :=
  ⟨h'.per.trans h.per, h'.cfg.trans h.cfg, h'.sent.trans h.sent, h'.received.trans h.received,
    h'.arrived.trans h.arrived, h'.terminal.trans h.terminal⟩

theorem received_of_trace_cons (htrace : t.trace = e :: s.trace) (hcfg : t.cfg = s.cfg) :
    t.received = s.received ++ (e.receivedChar s.cfg).toList := by
  cases he : e.receivedChar s.cfg <;> simp [State.received, State.events, htrace, hcfg, he]

theorem arrived_of_trace_cons (htrace : t.trace = e :: s.trace) :
    t.arrived = s.arrived ++ e.arrivedChar.toList := by
  cases he : e.arrivedChar <;> simp [State.arrived, State.events, htrace, he]

theorem terminal_of_trace_cons (htrace : t.trace = e :: s.trace) :
    t.terminal = s.terminal ++ e.terminalChar.toList := by
  cases he : e.terminalChar <;> simp [State.terminal, State.events, htrace, he]

/-- A step that is observed as a silent event and leaves the peripheral alone leaves the line as it is. -/
theorem sameLine_of_silent (htrace : t.trace = e :: s.trace) (hper : t.per = s.per) (hcfg : t.cfg = s.cfg)
    (he : e.Silent s.cfg) : s.SameLine t where
  per := hper
  cfg := hcfg
  sent := sent_of_silent htrace hcfg he.sent
  received := received_of_silent htrace hcfg he.received
  arrived := by rw [arrived_of_trace_cons htrace, he.arrived, Option.toList_none, List.append_nil]
  terminal := by rw [terminal_of_trace_cons htrace, he.terminal, Option.toList_none, List.append_nil]

theorem State.SameLine.goto (h : s.SameLine t) (op : Op) (ph : Phase) : s.SameLine (t.goto op ph) :=
  h.trans ⟨rfl, rfl, rfl, rfl, rfl, rfl⟩

theorem State.SameLine.withDp (h : s.SameLine t) (r : Datapath) : s.SameLine { t with dp := r } :=
  h.trans ⟨rfl, rfl, rfl, rfl, rfl, rfl⟩

theorem State.SameLine.withMem (h : s.SameLine t) (m : Memory) : s.SameLine { t with mem := m } :=
  h.trans ⟨rfl, rfl, rfl, rfl, rfl, rfl⟩

theorem State.SameLine.record (h : s.SameLine t) (he : e.Silent t.cfg) : s.SameLine (t.record e) :=
  h.trans (sameLine_of_silent (State.record_trace t e) rfl rfl he)

theorem State.SameLine.complete (h : s.SameLine t) (op : Op) (res : Option Word) : s.SameLine (t.complete op res) :=
  h.trans (sameLine_of_silent (State.complete_trace t op res) rfl rfl ⟨rfl, rfl, rfl, rfl⟩)

/-- A read of another register than DR that leaves the peripheral alone is silent (R125). -/
theorem busRd_silent {cfg : Params} {r : Reg} (h : cfg.addr r ≠ cfg.addr .dr) (v : Word) :
    (Event.busRd (cfg.addr r) v).Silent cfg := ⟨rfl, if_neg h, rfl, rfl⟩

theorem busWr_silent {cfg : Params} {r : Reg} (h : cfg.addr r ≠ cfg.addr .dr) (v : Word) :
    (Event.busWr (cfg.addr r) v).Silent cfg := ⟨if_neg h, rfl, rfl, rfl⟩

/-- The polls read FR and take nothing from the line (R107). -/
theorem busRead_fr_sameLine (s : State) : s.SameLine (s.busRead .fr).2 :=
  sameLine_of_silent (busRead_trace .fr s) rfl rfl (busRd_silent (addr_fr_ne_addr_dr s.cfg) _)

/-- No other register lies at DR's address (R71). -/
theorem addr_ne_addr_dr {cfg : Params} (hok : cfg.ok = true) {r : Reg} (hdr : r ≠ .dr) : cfg.addr r ≠ cfg.addr .dr := by
  simp only [Params.ok, Bool.and_eq_true] at hok
  obtain ⟨⟨-, hapart⟩, -⟩ := hok
  exact fun h => hdr (Params.addr_injective hapart h)

theorem busRead_sameLine (hok : s.cfg.ok = true) {r : Reg} (hdr : r ≠ .dr) : s.SameLine (s.busRead r).2 :=
  sameLine_of_silent (busRead_trace r s) (by rw [busRead_per, if_neg hdr]) (busRead_cfg r s)
    (busRd_silent (addr_ne_addr_dr hok hdr) _)

end Line

/-! ### INIT's accesses as a table (R133) -/

/-- The writes of INIT: the register and the value at each of its positions that is a write. -/
def State.initWrites (s : State) : InitPos → Option (Reg × Word)
  | .wrRcgcUart => some (.rcgcUart, s.dp.v ||| s.cfg.uartClkMask)
  | .wrRcgcGpio => some (.rcgcGpio, s.dp.v ||| s.cfg.gpioClkMask)
  | .wrCtlOff => some (.ctl, s.dp.v &&& 0xFFFFFFFE#32)
  | .wrIbrd => some (.ibrd, BitVec.ofNat 32 s.cfg.ibrdVal)
  | .wrFbrd => some (.fbrd, BitVec.ofNat 32 s.cfg.fbrdVal)
  | .wrLcrh => some (.lcrh, lcrhVal)
  | .wrCtlOn => some (.ctl, s.dp.v ||| 0x00000001#32)
  | .wrAfsel => some (.afsel, s.dp.v ||| s.cfg.pins)
  | .wrDen => some (.den, s.dp.v ||| s.cfg.pins)
  | .wrPctl => some (.pctl, (s.dp.v &&& ~~~s.cfg.pctlMask) ||| s.cfg.pctlFunc)
  | .wrAmsel => some (.amsel, s.dp.v &&& ~~~s.cfg.pins)
  | _ => none

/-- The position after a position of INIT; the last one has none after it. -/
def InitPos.next : InitPos → InitPos
  | .wrRcgcUart => .rdRcgcGpio
  | .rdRcgcGpio => .wrRcgcGpio
  | .wrRcgcGpio => .pollPr
  | .pollPr => .rdCtlOff
  | .rdCtlOff => .wrCtlOff
  | .wrCtlOff => .wrIbrd
  | .wrIbrd => .wrFbrd
  | .wrFbrd => .wrLcrh
  | .wrLcrh => .rdCtlOn
  | .rdCtlOn => .wrCtlOn
  | .wrCtlOn => .rdAfsel
  | .rdAfsel => .wrAfsel
  | .wrAfsel => .rdDen
  | .rdDen => .wrDen
  | .wrDen => .rdPctl
  | .rdPctl => .wrPctl
  | .wrPctl => .rdAmsel
  | .rdAmsel => .wrAmsel
  | .wrAmsel => .wrAmsel

theorem InitPos.next_index {p : InitPos} (hp : p ≠ .wrAmsel) : p.next.index = p.index + 1 := by
  cases p with
  | wrAmsel => exact absurd rfl hp
  | _ => rfl

/-- What INIT does at a position after its first: it reads a register and leaves its value for the write that
modifies it, or writes the table's value, and goes on; or it polls PR_GPIO; or it makes its last access. -/
theorem initStep_cases (p : InitPos) (s : State) :
    (∃ r, r ≠ .dr ∧ r ≠ .fr ∧ (s.initWrites p = none ∧ p ≠ .pollPr ∧ p.next.modifies = some r) ∧
      s.initStep p = s.initRead r p.next) ∨
    (∃ r x, s.initWrites p = some (r, x) ∧ (p ≠ .wrAmsel ∧ p.next.modifies = none) ∧
      s.initStep p = s.initWrite r x p.next) ∨
    p = .pollPr ∨ p = .wrAmsel := by
  cases p with
  | pollPr => exact .inr (.inr (.inl rfl))
  | wrAmsel => exact .inr (.inr (.inr rfl))
  | rdRcgcGpio | rdCtlOff | rdCtlOn | rdAfsel | rdDen | rdPctl | rdAmsel =>
    exact .inl ⟨_, by decide, by decide, ⟨rfl, nofun, rfl⟩, rfl⟩
  | _ => exact .inr (.inl ⟨_, _, rfl, ⟨nofun, rfl⟩, rfl⟩)

/-- INIT writes no FIFO, and to LCRH only LCRH_VAL (R131, R133). -/
theorem initWrites_register {s : State} {p : InitPos} {r : Reg} {x : Word} (hw : s.initWrites p = some (r, x)) :
    r ≠ .dr ∧ (r = .lcrh → x = lcrhVal) := by
  cases p <;> cases hw <;> exact ⟨nofun, by simp⟩

/-! ### Where an engine step leaves SEQ -/

/-- The poll of FR before a DR access has found a character waiting, or TXQ not full (R108, R109). -/
def State.polled (s : State) : Phase → Prop
  | .rxRead => s.per.rxq ≠ []
  | .txWrite => s.per.txq.length ≠ s.depth
  | _ => True

/-- Where an engine step of the operation leaves SEQ: idle; where it was, with the peripheral as it was; or at a
position of the operation, which is a DR access only after its poll. -/
inductive State.ComesTo (s : State) (op : Op) (t : State) : Prop
  | ends (hseq : t.seq = .idle)
  | stays (hseq : t.seq = s.seq) (hper : t.per = s.per) (hcfg : t.cfg = s.cfg)
  | goes (ph : Phase) (hseq : t.seq = .run op ph) (hpolled : t.polled ph)

/-- The state that an engine step's access of the peripheral leads to: RECV's DR read, SEND's DR write, a write of
INIT, or none that changes it. -/
inductive State.Accesses (s : State) (op : Op) : State → Prop
  | none : s.Accesses op s
  | receives (hseq : s.seq = .run op .rxRead) : s.Accesses op s.recvRead
  | sends (hseq : s.seq = .run op .txWrite) : s.Accesses op s.sendWrite
  | configures (p : InitPos) (r : Reg) (x : Word) (hop : op = .init) (hseq : s.seq = .run .init (.init p))
      (hw : s.initWrites p = some (r, x)) : s.Accesses op (s.busWrite r x)

/-- An engine step of the operation whose access leads to `u`: it leaves the line as the access does, and SEQ as
`State.ComesTo` says. -/
structure State.EngineStep (s : State) (op : Op) (u t : State) : Prop where
  line : u.SameLine t
  comes : s.ComesTo op t

section Ends

variable {s u t : State} {op : Op}

theorem State.SameLine.stepGoto {ph : Phase} (h : u.SameLine t) (hpolled : (t.goto op ph).polled ph) :
    s.EngineStep op u (t.goto op ph) := ⟨h.goto op ph, .goes ph rfl hpolled⟩

theorem State.SameLine.stepComplete (h : u.SameLine t) (res : Option Word) :
    s.EngineStep op u (t.complete op res) := ⟨h.complete op res, .ends rfl⟩

/-- A receive poll goes on to the DR read only with a character waiting (R108). -/
theorem State.SameLine.stepRecvPoll (h : u.SameLine t) : s.EngineStep op u (t.recvPoll op) := by
  have hline := h.trans (busRead_fr_sameLine t)
  unfold State.recvPoll
  split
  next => exact hline.stepGoto trivial
  next hne => exact hline.stepGoto fun hempty : t.per.rxq = [] => hne (by simp [State.rxfe, hempty])

/-- A send poll goes on to the DR write only with TXQ not full (R109). -/
theorem State.SameLine.stepSendPoll (h : u.SameLine t) : s.EngineStep op u (t.sendPoll op) := by
  have hline := h.trans (busRead_fr_sameLine t)
  unfold State.sendPoll
  split
  next => exact hline.stepGoto trivial
  next hne => exact hline.stepGoto fun hfull : t.per.txq.length = t.depth => hne (by simp [State.txff, hfull])

/-- A refused address leaves SEQ and the line as they were (R222). -/
theorem engineStep_raise (s : State) (r : Datapath) (f : Fault) :
    s.EngineStep op s (({ s with dp := r } : State).raise f) :=
  ⟨((State.SameLine.refl s).withDp r).trans (sameLine_of_silent (State.raise_trace _ f) rfl rfl ⟨rfl, rfl, rfl, rfl⟩),
    .stays rfl rfl rfl⟩

end Ends

/-! ### One engine step, command by command -/

section Commands

variable {s t : State}

theorem decoderStep_engineStep (s : State) (op : Op) (base : Word) (digit : Byte → Option Word) :
    ∃ u, s.Accesses op u ∧ s.EngineStep op u (s.decoderStep op base digit) := by
  unfold State.decoderStep
  split
  next => exact ⟨s, .none, (State.SameLine.refl s).stepRecvPoll⟩
  next hph =>
    refine ⟨_, .receives (seq_of_phaseIn s hph nofun), ?_⟩
    have hline := State.SameLine.refl s.recvRead
    dsimp only
    cases decodeChar base digit s.recvRead.dp.ch s.recvRead.dp with
    | finish => exact hline.stepComplete _
    | echo r => exact (hline.withDp r).stepGoto trivial
    | ignore => exact hline.stepGoto trivial
  next => exact ⟨s, .none, (State.SameLine.refl s).stepSendPoll⟩
  next hph => exact ⟨_, .sends (seq_of_phaseIn s hph nofun), (State.SameLine.refl _).stepGoto trivial⟩
  next => exact ⟨s, .none, ((State.SameLine.refl s).withDp _).stepRecvPoll⟩

theorem encoderStep_engineStep (s : State) (op : Op) (base : Word) (char : Nibble → Byte) (n : Word) :
    ∃ u, s.Accesses op u ∧ s.EngineStep op u (s.encoderStep op base char n) := by
  unfold State.encoderStep
  split
  next => exact ⟨s, .none, (State.SameLine.refl s).stepSendPoll⟩
  next hph =>
    refine ⟨_, .sends (seq_of_phaseIn s hph nofun), ?_⟩
    have hline := State.SameLine.refl s.sendWrite
    dsimp only
    split
    · exact hline.stepComplete _
    · exact (hline.withDp _).stepGoto trivial
  next => exact ⟨s, .none, ((State.SameLine.refl s).withDp _).stepSendPoll⟩

/-- A read of INIT is of a register other than DR (R133). -/
theorem initRead_engineStep (hok : s.cfg.ok = true) {r : Reg} (hdr : r ≠ .dr) (next : InitPos) :
    s.EngineStep .init s (s.initRead r next) :=
  ((busRead_sameLine hok hdr).withDp _).stepGoto trivial

theorem initStep_engineStep {p : InitPos} (hok : s.cfg.ok = true) (hseq : s.seq = .run .init (.init p)) :
    ∃ u, s.Accesses .init u ∧ s.EngineStep .init u (s.initStep p) := by
  rcases initStep_cases p s with ⟨r, hdr, -, -, hstep⟩ | ⟨r, x, hw, -, hstep⟩ | rfl | rfl
  · exact ⟨s, .none, hstep ▸ initRead_engineStep hok hdr _⟩
  · exact ⟨_, .configures p r x rfl hseq hw, hstep ▸ (State.SameLine.refl _).stepGoto trivial⟩
  · have hline := busRead_sameLine hok (r := .prGpio) nofun
    exact ⟨s, .none, (hline.withDp _).stepGoto trivial⟩
  · have hline : (s.busWrite .amsel (s.dp.v &&& ~~~s.cfg.pins)).SameLine
        { s.busWrite .amsel (s.dp.v &&& ~~~s.cfg.pins) with mode := .ready } := ⟨rfl, rfl, rfl, rfl, rfl, rfl⟩
    exact ⟨_, .configures .wrAmsel _ _ rfl hseq rfl, hline.stepComplete none⟩

theorem execInit_engineStep (hok : s.cfg.ok = true) (h : execInit s = .next t) :
    ∃ u, s.Accesses .init u ∧ s.EngineStep .init u t := by
  unfold execInit at h
  split at h <;> obtain rfl := Host.Outcome.next.inj h
  next p hph => exact initStep_engineStep hok (seq_of_phaseIn s hph nofun)
  next => exact ⟨s, .none, initRead_engineStep hok (r := .rcgcUart) nofun _⟩

theorem execRxchar_engineStep (h : execRxchar s = .next t) : ∃ u, s.Accesses .rxchar u ∧ s.EngineStep .rxchar u t := by
  unfold execRxchar at h
  split at h <;> obtain rfl := Host.Outcome.next.inj h
  next hph => exact ⟨_, .receives (seq_of_phaseIn s hph nofun), (State.SameLine.refl _).stepComplete _⟩
  next => exact ⟨s, .none, (State.SameLine.refl s).stepRecvPoll⟩

theorem execTxchar_engineStep {c : Byte} (h : execTxchar c s = .next t) :
    ∃ u, s.Accesses .txchar u ∧ s.EngineStep .txchar u t := by
  unfold execTxchar at h
  split at h <;> obtain rfl := Host.Outcome.next.inj h
  next => exact ⟨s, .none, (State.SameLine.refl s).stepSendPoll⟩
  next hph => exact ⟨_, .sends (seq_of_phaseIn s hph nofun), (State.SameLine.refl _).stepComplete _⟩
  next => exact ⟨s, .none, ((State.SameLine.refl s).withDp _).stepSendPoll⟩

theorem readStringByte_engineStep (s : State) (r : Datapath) :
    s.EngineStep .txstr s ({ s with dp := r } : State).readStringByte := by
  have hread (b : Byte) : s.SameLine (({ s with dp := r } : State).record (.memRd r.ptr b)) :=
    ((State.SameLine.refl s).withDp r).record ⟨rfl, rfl, rfl, rfl⟩
  rcases readStringByte_cases { s with dp := r } with ⟨-, h⟩ | ⟨-, -, h⟩ | ⟨-, -, h⟩ <;> rw [h]
  · exact engineStep_raise s r _
  · exact (hread _).stepComplete none
  · exact ((hread _).withDp _).stepGoto trivial

theorem execTxstr_engineStep {a : Word} (h : execTxstr a s = .next t) :
    ∃ u, s.Accesses .txstr u ∧ s.EngineStep .txstr u t := by
  unfold execTxstr at h
  split at h <;> obtain rfl := Host.Outcome.next.inj h
  next => exact ⟨s, .none, readStringByte_engineStep s s.dp⟩
  next => exact ⟨s, .none, (State.SameLine.refl s).stepSendPoll⟩
  next hph =>
    exact ⟨_, .sends (seq_of_phaseIn s hph nofun), ((State.SameLine.refl s.sendWrite).withDp _).stepGoto trivial⟩
  next => exact ⟨s, .none, readStringByte_engineStep s _⟩

theorem applyLine_engineStep (h : s.SameLine t) (act : LineAct) (s₀ : State) :
    s₀.EngineStep .rdline s (t.applyLine act) := by
  cases act with
  | terminate => exact h.stepGoto trivial
  | erase => exact (h.withDp _).stepGoto trivial
  | store => exact h.stepGoto trivial
  | drop => exact h.stepGoto trivial

theorem storeLineChar_engineStep (s : State) : s.EngineStep .rdline s s.storeLineChar := by
  rcases storeLineChar_cases s with ⟨-, h⟩ | ⟨-, h⟩ <;> rw [h]
  · exact engineStep_raise s s.dp _
  · have hstore : s.SameLine (s.record (.memWr s.dp.lineAddr s.dp.ch)) :=
      (State.SameLine.refl s).record ⟨rfl, rfl, rfl, rfl⟩
    exact ((hstore.withMem _).withDp _).stepGoto trivial

theorem terminateLine_engineStep (s : State) : s.EngineStep .rdline s s.terminateLine := by
  rcases terminateLine_cases s with ⟨-, h⟩ | ⟨-, h⟩ <;> rw [h]
  · exact engineStep_raise s s.dp _
  · have hstore : s.SameLine ({ s with mem := Memory.write s.dp.lineAddr.toNat charNUL s.mem } : State) :=
      (State.SameLine.refl s).withMem _
    exact (hstore.record ⟨rfl, rfl, rfl, rfl⟩).stepComplete none

theorem execRdline_engineStep {a : Word} {max : Half} (h : execRdline a max s = .next t) :
    ∃ u, s.Accesses .rdline u ∧ s.EngineStep .rdline u t := by
  unfold execRdline at h
  split at h <;> obtain rfl := Host.Outcome.next.inj h
  next => exact ⟨s, .none, (State.SameLine.refl s).stepRecvPoll⟩
  next hph =>
    exact ⟨_, .receives (seq_of_phaseIn s hph nofun), applyLine_engineStep (State.SameLine.refl _) _ s⟩
  next => exact ⟨s, .none, storeLineChar_engineStep s⟩
  next => exact ⟨s, .none, terminateLine_engineStep s⟩
  next => exact ⟨s, .none, (State.SameLine.refl s).stepSendPoll⟩
  next hph => exact ⟨_, .sends (seq_of_phaseIn s hph nofun), (State.SameLine.refl _).stepGoto trivial⟩
  next => exact ⟨s, .none, ((State.SameLine.refl s).withDp _).stepRecvPoll⟩

/-- One engine step makes at most one access of the peripheral that changes it, and comes to a DR access only
after its poll, whatever SEQ holds. -/
theorem exec_engineStep {i : Instr} (hok : s.cfg.ok = true) (h : exec i s = .next t) :
    ∃ u, s.Accesses i.op u ∧ s.EngineStep i.op u t := by
  cases i with
  | init => exact execInit_engineStep hok h
  | rxchar => exact execRxchar_engineStep h
  | txchar c => exact execTxchar_engineStep h
  | txstr a => exact execTxstr_engineStep h
  | decdec => exact Host.Outcome.next.inj h ▸ decoderStep_engineStep s .decdec _ _
  | encdec n => exact Host.Outcome.next.inj h ▸ encoderStep_engineStep s .encdec _ _ n
  | dechex => exact Host.Outcome.next.inj h ▸ decoderStep_engineStep s .dechex _ _
  | enchex n => exact Host.Outcome.next.inj h ▸ encoderStep_engineStep s .enchex _ _ n
  | rdline a max => exact execRdline_engineStep h

end Commands

end Sys2Proof.Machine
end

section
/-! PROOF. The FIFOs along every step (spec/40_register_interface.md R103, R104, R110, R111, R115, R116): their
depth, the DR accesses that their polls prepare, and the order of the characters through them. -/

namespace Sys2Proof.Machine

/-! ### The accesses of the peripheral, on the FIFOs and the line -/

section Accesses

variable {s t u : State} {op : Op} {p : InitPos} {r : Reg} {x : Word}

@[simp] theorem recvRead_trace (s : State) :
    s.recvRead.trace = .busRd (s.cfg.addr .dr) (s.busRead .dr).1 :: s.trace := busRead_trace .dr s

/-- RECV's last step receives the byte it latches (R108, R125). -/
theorem recvRead_received (s : State) : s.recvRead.received = s.received ++ [s.drByte] := by
  rw [received_of_trace_cons (recvRead_trace s) (recvRead_cfg s), Event.receivedChar, if_pos rfl, drByte_eq]
  rfl

theorem recvRead_sent (s : State) : s.recvRead.sent = s.sent :=
  sent_of_silent (recvRead_trace s) (recvRead_cfg s) rfl

theorem recvRead_arrived (s : State) : s.recvRead.arrived = s.arrived := by
  rw [arrived_of_trace_cons (recvRead_trace s)]
  exact List.append_nil _

theorem recvRead_terminal (s : State) : s.recvRead.terminal = s.terminal := by
  rw [terminal_of_trace_cons (recvRead_trace s)]
  exact List.append_nil _

theorem sendWrite_received (s : State) : s.sendWrite.received = s.received :=
  received_of_silent (sendWrite_trace s) (sendWrite_cfg s) rfl

theorem sendWrite_arrived (s : State) : s.sendWrite.arrived = s.arrived := by
  rw [arrived_of_trace_cons (sendWrite_trace s)]
  exact List.append_nil _

theorem sendWrite_terminal (s : State) : s.sendWrite.terminal = s.terminal := by
  rw [terminal_of_trace_cons (sendWrite_trace s)]
  exact List.append_nil _

/-- SEND's DR write changes nothing of the peripheral but TXQ, to which it appends CH or nothing (R104). -/
theorem sendWrite_per (s : State) :
    (s.per.txq.length < s.depth ∧ s.sendWrite.per = { s.per with txq := s.per.txq ++ [s.dp.ch] }) ∨
    (¬ s.per.txq.length < s.depth ∧ s.sendWrite.per = s.per) := by
  by_cases h : s.per.txq.length < s.depth
  · exact .inl ⟨h, by rw [sendWrite_room h]; rfl⟩
  · exact .inr ⟨h, by rw [State.sendWrite, busWrite_dr_full h]; rfl⟩

/-- A write of INIT sends and receives nothing (R71, R125). -/
theorem busWrite_line (hok : s.cfg.ok = true) (hdr : r ≠ .dr) :
    (s.busWrite r x).sent = s.sent ∧ (s.busWrite r x).received = s.received ∧
    (s.busWrite r x).arrived = s.arrived ∧ (s.busWrite r x).terminal = s.terminal := by
  have hsilent := busWr_silent (addr_ne_addr_dr hok hdr) x
  refine ⟨sent_of_silent (busWrite_trace r x s) (busWrite_cfg r x s) hsilent.sent,
    received_of_silent (busWrite_trace r x s) (busWrite_cfg r x s) hsilent.received, ?_, ?_⟩
  · rw [arrived_of_trace_cons (busWrite_trace r x s)]
    exact List.append_nil _
  · rw [terminal_of_trace_cons (busWrite_trace r x s)]
    exact List.append_nil _

/-- The writes of INIT that may flush the FIFOs are those `State.flushing` names (R115). -/
theorem initWrites_reconfigures (hw : s.initWrites p = some (r, x)) (h : s.per.reconfigures r x = true) :
    p = .wrLcrh ∨ (p = .wrCtlOff ∧ s.per.uarten = true) ∨ (p = .wrCtlOn ∧ s.per.uarten = false) := by
  cases p <;> cases hw <;> simp_all [Periph.reconfigures]

/-- Where a write of INIT finds nothing to flush in a FIFO, it leaves that FIFO alone (R115). -/
theorem initWrite_keeps_fifos (hturn : s.turn = .engine) (hfault : s.fault = none)
    (hseq : s.seq = .run .init (.init p)) (hw : s.takeTurn.initWrites p = some (r, x)) :
    ((s.flushing → s.per.rxq = []) → (s.takeTurn.busWrite r x).per.rxq = s.per.rxq) ∧
    ((s.flushing → s.per.txq = []) → (s.takeTurn.busWrite r x).per.txq = s.per.txq) := by
  obtain ⟨q, q', hper, hq, hq', hkept⟩ := busWrite_per (initWrites_register hw).1 x s.takeTurn
  rw [hper]
  cases hre : s.per.reconfigures r x with
  | false =>
    obtain ⟨rfl, rfl⟩ := hkept hre
    exact ⟨fun _ => rfl, fun _ => rfl⟩
  | true =>
    have hflushing : s.flushing := ⟨hturn, hfault, p, hseq, initWrites_reconfigures hw hre⟩
    exact ⟨fun h => hq.elim id (·.trans (h hflushing).symm), fun h => hq'.elim id (·.trans (h hflushing).symm)⟩

end Accesses

/-! ### The effective depth (R116) -/

section Depth

variable {s t u : State} {op : Op}

theorem depth_congr (hfen : t.per.fen = s.per.fen) (hcfg : t.cfg = s.cfg) : t.depth = s.depth := by
  rw [State.depth, State.depth, hfen, hcfg]

/-- FIFO_DEPTH is at least 1, so a step that does not clear FEN does not make the FIFOs shallower. -/
theorem depth_le_of_fen (hfen : s.per.fen = true → t.per.fen = true) (hcfg : t.cfg = s.cfg) : s.depth ≤ t.depth := by
  have hpos := s.cfg.fifoDepth.pos
  rw [State.depth, State.depth, hcfg]
  split
  next hon => rw [if_pos (hfen hon)]
  next => split <;> omega

theorem depth_pos (s : State) : 0 < s.depth := by
  have hpos := s.cfg.fifoDepth.pos
  rw [State.depth]
  split <;> omega

theorem State.SameLine.depth (h : s.SameLine t) : t.depth = s.depth := depth_congr (by rw [h.per]) h.cfg

/-- Of the accesses only the write of LCRH reaches FEN, and it sets it (R131, R133). -/
theorem State.Accesses.depth_le (h : s.Accesses op u) : s.depth ≤ u.depth := by
  cases h with
  | none => exact le_rfl
  | receives => exact depth_le_of_fen (by simp [Periph.fen]) (recvRead_cfg s)
  | sends =>
    refine depth_le_of_fen ?_ (sendWrite_cfg s)
    rcases sendWrite_per s with ⟨-, h⟩ | ⟨-, h⟩ <;> rw [h] <;> exact id
  | configures p r x _ _ hw =>
    obtain ⟨hdr, hlcrh⟩ := initWrites_register hw
    obtain ⟨q, q', hper, -⟩ := busWrite_per hdr x s
    refine depth_le_of_fen (fun hfen => ?_) (busWrite_cfg r x s)
    rw [hper]
    cases r with
    | lcrh => simp [hlcrh rfl, Periph.store, Periph.fen, lcrhVal]
    | _ => exact hfen

/-- A turn of the line environment leaves the depth and, but for one character that leaves it, TXQ alone. -/
theorem lineStep_txq (e : LineStep) (s : State) :
    (s.lineStep e).depth = s.depth ∧ (s.lineStep e).per.txq.length ≤ s.per.txq.length := by
  rcases lineStep_cases e s with h | ⟨b, -, -, -, h⟩ | ⟨b, rest, -, -, hq, h⟩ | ⟨-, -, h⟩ <;> rw [h]
  · exact ⟨rfl, le_rfl⟩
  · exact ⟨rfl, le_rfl⟩
  · exact ⟨rfl, by simp [hq]⟩
  · exact ⟨rfl, le_rfl⟩

theorem issue_depth (w : Command) (s : State) : (s.issue w).depth = s.depth := by
  obtain ⟨-, -, hper, -, hcfg⟩ := issue_frame w s
  exact depth_congr (by rw [hper]) hcfg

/-- Settles O31, agent by agent. -/
theorem depthFollowsFenAndNeverShrinks : Obligations.DepthFollowsFenAndNeverShrinks := by
  refine ⟨fun s => ⟨fun h => if_pos h, fun h => if_neg (Bool.eq_false_iff.1 h)⟩, fun s t hstep => ?_⟩
  obtain ⟨hok, ⟨-, i, -, hexec⟩ | ⟨-, -, rfl⟩ | ⟨e, -, rfl⟩ | ⟨w, -, rfl⟩⟩ := step_next_cases hstep
  · obtain ⟨u, hu, ht⟩ := exec_engineStep (s := s.takeTurn) hok hexec
    exact hu.depth_le.trans ht.line.depth.ge
  · exact le_rfl
  · exact (lineStep_txq e s.takeTurn).1.ge
  · exact (issue_depth w s.takeTurn).ge

end Depth

/-! ### The DR accesses after their polls (R110, R111) -/

section Polled

variable {s t u : State} {op : Op}

/-- An issue leaves SEQ alone or starts an operation (R90). -/
theorem issue_seq (w : Command) (s : State) : (s.issue w).seq = s.seq ∨ ∃ op, (s.issue w).seq = .run op .start := by
  rcases issue_cases w s with ⟨-, h⟩ | ⟨-, -, h⟩ | ⟨-, -, -, h⟩ | ⟨-, -, _, -, -, -, h⟩ | ⟨-, -, i, -, -, h⟩ <;> rw [h]
  · exact .inl rfl
  · exact .inl rfl
  · exact .inl rfl
  · exact .inl rfl
  · exact .inr ⟨i.op, rfl⟩

/-- Wherever SEQ is at a DR access of the kind, its poll has found the FIFO ready for it (R108, R109). -/
def State.ReadyAt (s : State) (ph : Phase) : Prop := ∀ op, s.seq = .run op ph → s.polled ph

theorem polled_congr {ph : Phase} (h : s.polled ph) (hper : t.per = s.per) (hcfg : t.cfg = s.cfg) : t.polled ph := by
  have hdepth : t.depth = s.depth := depth_congr (by rw [hper]) hcfg
  cases ph <;> simp only [State.polled, hper, hdepth] at h ⊢ <;> exact h

/-- An engine step comes to a DR access only after its poll. -/
theorem State.ComesTo.readyAt {ph : Phase} (h : s.ComesTo op t) (hs : s.ReadyAt ph) : t.ReadyAt ph := by
  intro o ho
  cases h with
  | ends hseq => exact nomatch hseq.symm.trans ho
  | stays hseq hper hcfg => exact polled_congr (hs o (hseq ▸ ho)) hper hcfg
  | goes ph' hseq hpolled =>
    obtain ⟨-, rfl⟩ := Seq.run.inj (hseq.symm.trans ho)
    exact hpolled

/-- An issue comes to no DR access. -/
theorem issue_readyAt {ph : Phase} (w : Command) (hs : s.ReadyAt ph) (hph : ph ≠ .start) : (s.issue w).ReadyAt ph := by
  intro o ho
  obtain ⟨-, -, hper, -, hcfg⟩ := issue_frame w s
  rcases issue_seq w s with hseq | ⟨o', hseq⟩
  · exact polled_congr (hs o (hseq ▸ ho)) hper hcfg
  · obtain ⟨-, rfl⟩ := Seq.run.inj (hseq.symm.trans ho)
    exact absurd rfl hph

/-- The line environment takes no character from RXQ (R120 to R122). -/
theorem lineStep_rxq_ne_nil (e : LineStep) (h : s.per.rxq ≠ []) : (s.lineStep e).per.rxq ≠ [] := by
  rcases lineStep_cases e s with hl | ⟨b, -, -, -, hl⟩ | ⟨b, rest, -, -, -, hl⟩ | ⟨-, -, hl⟩ <;> rw [hl]
  · exact h
  · exact List.append_ne_nil_of_left_ne_nil h [b]
  · exact h
  · exact h

theorem step_keeps_rxRead_ready (h : s.ReadyAt .rxRead) (hstep : step s = .next t) : t.ReadyAt .rxRead := by
  obtain ⟨hok, ⟨-, i, -, hexec⟩ | ⟨-, -, rfl⟩ | ⟨e, -, rfl⟩ | ⟨w, -, rfl⟩⟩ := step_next_cases hstep
  · obtain ⟨u, -, ht⟩ := exec_engineStep (s := s.takeTurn) hok hexec
    exact ht.comes.readyAt h
  · exact h
  · exact fun o ho => lineStep_rxq_ne_nil e (s := s.takeTurn) (h o (by rwa [lineStep_seq] at ho))
  · exact issue_readyAt (s := s.takeTurn) w h nofun

/-- TXQ is within its depth, and not full wherever SEQ is at a DR write (R42, R111). -/
structure State.TxReady (s : State) : Prop where
  fits : s.per.txq.length ≤ s.depth
  ready : s.ReadyAt .txWrite

theorem State.Accesses.txFits (h : s.Accesses op u) (hfits : s.per.txq.length ≤ s.depth) :
    u.per.txq.length ≤ u.depth := by
  have hdepth := h.depth_le
  cases h with
  | none => exact hfits
  | receives => rw [recvRead_per]; exact hfits.trans hdepth
  | sends =>
    rcases sendWrite_per s with ⟨hroom, hper⟩ | ⟨-, hper⟩ <;> rw [hper]
    · rw [List.length_append, List.length_singleton]
      omega
    · exact hfits.trans hdepth
  | configures p r x _ _ hw =>
    obtain ⟨q, q', hper, -, hq', -⟩ := busWrite_per (initWrites_register hw).1 x s
    rw [hper]
    rcases hq' with rfl | rfl
    · exact hfits.trans hdepth
    · exact Nat.zero_le _

theorem step_keeps_txReady (h : s.TxReady) (hstep : step s = .next t) : t.TxReady := by
  obtain ⟨hok, ⟨-, i, -, hexec⟩ | ⟨-, -, rfl⟩ | ⟨e, -, rfl⟩ | ⟨w, -, rfl⟩⟩ := step_next_cases hstep
  · obtain ⟨u, hu, ht⟩ := exec_engineStep (s := s.takeTurn) hok hexec
    refine ⟨?_, ht.comes.readyAt h.ready⟩
    rw [ht.line.per, ht.line.depth]
    exact hu.txFits h.fits
  · exact ⟨h.fits, h.ready⟩
  · obtain ⟨hdepth, hle⟩ := lineStep_txq e s.takeTurn
    refine ⟨(hle.trans h.fits).trans hdepth.ge, fun o ho => ?_⟩
    have hroom : s.per.txq.length < s.depth := lt_of_le_of_ne h.fits (h.ready o (by rwa [lineStep_seq] at ho))
    exact ((hle.trans_lt hroom).trans_le hdepth.ge).ne
  · refine ⟨?_, issue_readyAt (s := s.takeTurn) w h.ready nofun⟩
    obtain ⟨-, -, hper, -, -⟩ := issue_frame w s.takeTurn
    rw [hper, issue_depth]
    exact h.fits

/-- Settles O22, by induction on the run. -/
theorem recvAlwaysReadsACharacter : Obligations.RecvAlwaysReadsACharacter := by
  intro s t k op hstart hrun hseq
  have hready : t.ReadyAt .rxRead :=
    runs_induction (fun _ _ => step_keeps_rxRead_ready) (fun o ho => absurd ho (hstart o)) hrun
  obtain ⟨b, rest, hq⟩ := List.exists_cons_of_ne_nil (hready op hseq)
  exact ⟨b, rest, hq, by rw [recvRead_cons hq]; rfl, by rw [recvRead_cons hq]; rfl⟩

/-- Settles O23, by induction on the run. -/
theorem sendNeverLosesACharacter : Obligations.SendNeverLosesACharacter := by
  intro s t k op hstart hfits hrun hseq
  obtain ⟨hle, hready⟩ : t.TxReady :=
    runs_induction (fun _ _ => step_keeps_txReady) ⟨hfits, fun o ho => absurd ho (hstart o)⟩ hrun
  have hne : t.per.txq.length ≠ t.depth := hready op hseq
  exact ⟨by simp [State.txff, hne], by rw [sendWrite_room (lt_of_le_of_ne hle hne)]; rfl⟩

end Polled

/-! ### The order of the characters (R125) -/

section Conserved

variable {s t u : State}

theorem State.SameLine.txConserved (h : s.SameLine t) (hs : s.TxConserved) : t.TxConserved := by
  rw [State.TxConserved, h.terminal, h.per, h.sent]
  exact hs

theorem State.SameLine.rxConserved (h : s.SameLine t) (hs : s.RxConserved) : t.RxConserved := by
  rw [State.RxConserved, h.received, h.per, h.arrived]
  exact hs

/-- An issue carries no character. -/
theorem issue_sameLine (w : Command) (s : State) : s.SameLine (s.issue w) := by
  have hissue : s.SameLine (s.record (.issue w)) := (State.SameLine.refl s).record ⟨rfl, rfl, rfl, rfl⟩
  have hraise (r : Fault) : s.SameLine ((s.record (.issue w)).raise r) :=
    hissue.trans (sameLine_of_silent (State.raise_trace _ r) rfl rfl ⟨rfl, rfl, rfl, rfl⟩)
  rcases issue_cases w s with ⟨-, h⟩ | ⟨-, -, h⟩ | ⟨-, -, -, h⟩ | ⟨-, -, _, -, -, -, h⟩ | ⟨-, -, i, -, -, h⟩ <;> rw [h]
  · exact hissue
  · exact hraise _
  · exact hraise _
  · exact hraise _
  · exact hissue.trans ⟨rfl, rfl, rfl, rfl, rfl, rfl⟩

/-- An arrival puts its character behind those in RXQ (R120). -/
theorem conserves_of_rxIn {b : Byte} (htrace : t.trace = .rxIn b :: s.trace) (hcfg : t.cfg = s.cfg)
    (hrx : t.per.rxq = s.per.rxq ++ [b]) (htx : t.per.txq = s.per.txq) :
    (s.TxConserved → t.TxConserved) ∧ (s.RxConserved → t.RxConserved) := by
  have hsent : t.sent = s.sent := sent_of_silent htrace hcfg rfl
  have hreceived : t.received = s.received := received_of_silent htrace hcfg rfl
  have harrived : t.arrived = s.arrived ++ [b] := arrived_of_trace_cons htrace
  have hterminal : t.terminal = s.terminal ++ [] := terminal_of_trace_cons htrace
  refine ⟨fun hs => ?_, fun hs => ?_⟩
  · rw [State.TxConserved, hterminal, List.append_nil, htx, hsent, hs]
  · rw [State.RxConserved, hreceived, hrx, harrived, ← hs, List.append_assoc]

/-- A drain shows the terminal the head of TXQ (R121). -/
theorem conserves_of_txOut {b : Byte} (htrace : t.trace = .txOut b :: s.trace) (hcfg : t.cfg = s.cfg)
    (hrx : t.per.rxq = s.per.rxq) (htx : s.per.txq = b :: t.per.txq) :
    (s.TxConserved → t.TxConserved) ∧ (s.RxConserved → t.RxConserved) := by
  have hsent : t.sent = s.sent := sent_of_silent htrace hcfg rfl
  have hreceived : t.received = s.received := received_of_silent htrace hcfg rfl
  have harrived : t.arrived = s.arrived ++ [] := arrived_of_trace_cons htrace
  have hterminal : t.terminal = s.terminal ++ [b] := terminal_of_trace_cons htrace
  refine ⟨fun hs => ?_, fun hs => ?_⟩
  · rw [State.TxConserved, hterminal, hsent, ← hs, htx, List.append_assoc, List.singleton_append]
  · rw [State.RxConserved, hreceived, hrx, harrived, List.append_nil, hs]

theorem lineStep_conserves (e : LineStep) (s : State) :
    (s.TxConserved → (s.lineStep e).TxConserved) ∧ (s.RxConserved → (s.lineStep e).RxConserved) := by
  rcases lineStep_cases e s with h | ⟨b, -, -, -, h⟩ | ⟨b, rest, -, -, hq, h⟩ | ⟨-, -, h⟩ <;> rw [h]
  · exact ⟨id, id⟩
  · exact conserves_of_rxIn (State.record_trace _ _) rfl rfl rfl
  · exact conserves_of_txOut (State.record_trace _ _) rfl rfl hq
  · exact ⟨id, id⟩

/-- Settles O20: SEND's write puts the character it sends into TXQ, a drain shows the terminal the one it takes
out, and every other step leaves both sides alone. -/
theorem sentCharactersReachTheTerminalInOrder : Obligations.SentCharactersReachTheTerminalInOrder := by
  intro s t hinv hflush hstep hs
  obtain ⟨hok, ⟨hturn, i, hcur, hexec⟩ | ⟨-, -, rfl⟩ | ⟨e, -, rfl⟩ | ⟨w, -, rfl⟩⟩ := step_next_cases hstep
  · obtain ⟨u, hu, ht⟩ := exec_engineStep (s := s.takeTurn) hok hexec
    obtain ⟨hfault, -, -⟩ := current_eq_some.1 hcur
    refine ht.line.txConserved ?_
    cases hu with
    | none => exact hs
    | receives =>
      rw [State.TxConserved, recvRead_terminal, recvRead_sent, recvRead_per]
      exact hs
    | sends hseq =>
      rw [State.TxConserved, sendWrite_terminal, sendWrite_sent, sendWrite_room (s := s.takeTurn) (hinv.txReady _ hseq)]
      exact (List.append_assoc _ _ _).symm.trans (congrArg (· ++ [s.dp.ch]) hs)
    | configures p r x _ hseq hw =>
      obtain ⟨hsent, -, -, hterminal⟩ := busWrite_line (s := s.takeTurn) (x := x) hok (initWrites_register hw).1
      obtain ⟨-, htxq⟩ := initWrite_keeps_fifos hturn hfault hseq hw
      rw [State.TxConserved, hsent, hterminal, htxq hflush]
      exact hs
  · exact hs
  · exact (lineStep_conserves e s.takeTurn).1 hs
  · exact (issue_sameLine w s.takeTurn).txConserved hs

/-- Settles O21: RECV's read receives the character it takes from RXQ, an arrival adds its character to RXQ, and
every other step leaves both sides alone. -/
theorem arrivedCharactersAreReceivedInOrder : Obligations.ArrivedCharactersAreReceivedInOrder := by
  intro s t hinv hflush hstep hs
  obtain ⟨hok, ⟨hturn, i, hcur, hexec⟩ | ⟨-, -, rfl⟩ | ⟨e, -, rfl⟩ | ⟨w, -, rfl⟩⟩ := step_next_cases hstep
  · obtain ⟨u, hu, ht⟩ := exec_engineStep (s := s.takeTurn) hok hexec
    obtain ⟨hfault, -, -⟩ := current_eq_some.1 hcur
    refine ht.line.rxConserved ?_
    cases hu with
    | none => exact hs
    | receives hseq =>
      obtain ⟨b, rest, hq⟩ := List.exists_cons_of_ne_nil (hinv.rxReady _ hseq)
      have hbyte : s.takeTurn.drByte = b := by rw [State.drByte, State.takeTurn_per, hq]
      rw [State.RxConserved, recvRead_received, recvRead_arrived, recvRead_per, hbyte, List.append_assoc]
      rw [State.takeTurn_per, hq, List.tail_cons, List.singleton_append, ← hq]
      exact hs
    | sends =>
      have hrxq : s.takeTurn.sendWrite.per.rxq = s.per.rxq := by
        rcases sendWrite_per s.takeTurn with ⟨-, h⟩ | ⟨-, h⟩ <;> rw [h] <;> rfl
      rw [State.RxConserved, sendWrite_received, sendWrite_arrived, hrxq]
      exact hs
    | configures p r x _ hseq hw =>
      obtain ⟨-, hreceived, harrived, -⟩ := busWrite_line (s := s.takeTurn) (x := x) hok (initWrites_register hw).1
      obtain ⟨hrxq, -⟩ := initWrite_keeps_fifos hturn hfault hseq hw
      rw [State.RxConserved, hreceived, harrived, hrxq hflush]
      exact hs
  · exact hs
  · exact (lineStep_conserves e s.takeTurn).2 hs
  · exact (issue_sameLine w s.takeTurn).rxConserved hs

end Conserved

end Sys2Proof.Machine
end

section
/-! PROOF. Every step keeps what INIT has configured (`State.Configured`; spec/41_uart_driver.md R133, R134,
spec/70_reset_and_hazards.md R241). -/

namespace Sys2Proof.Machine

/-! ### The configuration, access by access -/

/-- How many of INIT's accesses lie before the position SEQ holds; none where INIT does not run (R133). -/
def Seq.initIndex : Seq → Nat
  | .run .init (.init q) => q.index
  | _ => 0

/-- What INIT's access at the position leaves in the peripheral, but for UARTEN (R133, R241). -/
def InitPos.Leaves (cfg : Params) (per : Periph) : InitPos → Prop
  | .wrRcgcUart => per.rcgcUart &&& cfg.uartClkMask = cfg.uartClkMask
  | .wrRcgcGpio => per.rcgcGpio &&& cfg.gpioClkMask = cfg.gpioClkMask
  | .pollPr => per.prGpio.getLsbD cfg.gpioClkBit.val = true
  | .wrIbrd => per.ibrd = BitVec.ofNat 16 cfg.ibrdVal
  | .wrFbrd => per.fbrd = BitVec.ofNat 6 cfg.fbrdVal
  | .wrLcrh => per.lcrh = 0x70#8
  | .wrAfsel => per.afsel &&& cfg.pins = cfg.pins
  | .wrDen => per.den &&& cfg.pins = cfg.pins
  | .wrPctl => per.pctl &&& cfg.pctlMask = cfg.pctlFunc &&& cfg.pctlMask
  | .wrAmsel => per.amsel &&& cfg.pins = 0#32
  | _ => True

/-- UARTEN is off between INIT's steps 3 and 5, and on otherwise once INIT has completed or made step 5 (R123). -/
structure UartenSound (mode : Mode) (index : Nat) (uarten : Bool) : Prop where
  disabled : InitPos.wrCtlOff.index < index → ¬ InitPos.wrCtlOn.index < index → uarten = false
  enabled : (mode = .ready ∧ ¬ InitPos.wrCtlOff.index < index) ∨ InitPos.wrCtlOn.index < index → uarten = true

section Parts

variable {s t : State} {p q : InitPos} {r : Reg} {x : Word}

theorem initPast_iff : s.initPast p ↔ p.index < s.seq.initIndex := by
  constructor
  · rintro ⟨q, hseq, hlt⟩
    rwa [hseq]
  · intro hlt
    unfold Seq.initIndex at hlt
    split at hlt
    next q hseq => exact ⟨q, hseq, hlt⟩
    next => exact absurd hlt (Nat.not_lt_zero _)

theorem InitPos.index_le_last (p : InitPos) : p.index ≤ InitPos.wrAmsel.index := by
  cases p <;> decide

theorem InitPos.index_injective : Function.Injective InitPos.index := fun p q h => by
  cases p <;> cases q <;> cases h <;> rfl

theorem Seq.initIndex_le_last (q : Seq) : q.initIndex ≤ InitPos.wrAmsel.index := by
  unfold Seq.initIndex
  split
  · exact InitPos.index_le_last _
  · exact Nat.zero_le _

theorem configured_iff :
    s.Configured ↔
      (∀ p : InitPos, s.mode = .ready ∨ p.index < s.seq.initIndex → p.Leaves s.cfg s.per) ∧
      UartenSound s.mode s.seq.initIndex s.per.uarten := by
  constructor
  · intro h
    refine ⟨fun p => ?_, ⟨?_, ?_⟩⟩ <;> simp only [← initPast_iff]
    · cases p with
      | wrRcgcUart => exact h.uartClock
      | wrRcgcGpio => exact h.gpioClock
      | pollPr => exact h.gpioReady
      | wrIbrd => exact h.integer
      | wrFbrd => exact h.fraction
      | wrLcrh => exact h.frame
      | wrAfsel => exact h.alternate
      | wrDen => exact h.digital
      | wrPctl => exact h.function
      | wrAmsel =>
        refine fun hdue => h.analog (hdue.resolve_right fun hpast => ?_)
        exact absurd (initPast_iff.1 hpast) (Seq.initIndex_le_last s.seq).not_gt
      | _ => exact fun _ => trivial
    · exact h.disabled
    · exact h.enabled
  · rintro ⟨hleaves, ⟨hdisabled, henabled⟩⟩
    simp only [← initPast_iff] at hleaves hdisabled henabled
    exact {
      uartClock := hleaves .wrRcgcUart
      gpioClock := hleaves .wrRcgcGpio
      gpioReady := hleaves .pollPr
      integer := hleaves .wrIbrd
      fraction := hleaves .wrFbrd
      frame := hleaves .wrLcrh
      disabled := hdisabled
      enabled := henabled
      alternate := hleaves .wrAfsel
      digital := hleaves .wrDen
      function := hleaves .wrPctl
      analog := fun h => hleaves .wrAmsel (.inl h) }

/-- A step keeps the configuration that keeps what each access leaves, makes at most one access of INIT and then
leaves what it is to leave, and keeps UARTEN sound. -/
theorem State.Configured.advance (h : s.Configured) (hcfg : t.cfg = s.cfg) (hmode : t.mode = s.mode)
    (hindex : t.seq.initIndex ≤ s.seq.initIndex + 1)
    (hkeep : ∀ p, InitPos.Leaves s.cfg s.per p → InitPos.Leaves s.cfg t.per p)
    (hmake : ∀ p, p.index = s.seq.initIndex → p.index < t.seq.initIndex → InitPos.Leaves s.cfg t.per p)
    (huarten : UartenSound s.mode t.seq.initIndex t.per.uarten) : t.Configured := by
  obtain ⟨hleaves, -⟩ := configured_iff.1 h
  refine configured_iff.2 ⟨fun p hp => ?_, hmode ▸ huarten⟩
  rw [hcfg]
  rcases hp with hready | hlt
  · exact hkeep p (hleaves p (.inl (hmode ▸ hready)))
  · by_cases heq : p.index = s.seq.initIndex
    · exact hmake p heq hlt
    · exact hkeep p (hleaves p (.inr (by omega)))

/-- A step keeps the configuration that leaves INIT where it is and the registers as they are, but for bits of
PR_GPIO that become 1. -/
theorem State.Configured.congr {rx tx : List Byte} {m : Word} (h : s.Configured) (hcfg : t.cfg = s.cfg)
    (hmode : t.mode = s.mode) (hindex : t.seq.initIndex = s.seq.initIndex)
    (hper : t.per = { s.per with rxq := rx, txq := tx, prGpio := s.per.prGpio ||| m }) : t.Configured := by
  obtain ⟨-, huarten⟩ := configured_iff.1 h
  refine h.advance hcfg hmode (by omega) (fun p hp => ?_) (fun p heq hlt => by omega) ?_
  · rw [hper]
    cases p with
    | pollPr =>
      rw [InitPos.Leaves, BitVec.getLsbD_or]
      exact Bool.or_eq_true_iff.2 (.inl hp)
    | _ => exact hp
  · rw [hindex, hper]
    exact huarten

end Parts

/-! ### INIT's own steps -/

section Init

variable {s t : State} {p q : InitPos} {r : Reg} {x : Word}

theorem or_and_cancel (v m : Word) : (v ||| m) &&& m = m := by
  rw [BitVec.and_or_distrib_right, BitVec.and_self]
  ext k hk
  simp only [BitVec.getElem_or, BitVec.getElem_and]
  cases v[k] <;> cases m[k] <;> rfl

theorem andNot_or_and_cancel (v m f : Word) : ((v &&& ~~~m) ||| f) &&& m = f &&& m := by
  ext k hk
  simp only [BitVec.getElem_or, BitVec.getElem_and, BitVec.getElem_not]
  cases v[k] <;> cases m[k] <;> cases f[k] <;> rfl

theorem andNot_and_cancel (v m : Word) : (v &&& ~~~m) &&& m = 0#32 := by
  rw [BitVec.and_assoc, BitVec.and_comm (~~~m), BitVec.and_not_self]
  exact BitVec.and_zero

/-- A write of INIT leaves in its register what it is to leave (R133). -/
theorem initWrites_makes (hw : s.initWrites q = some (r, x)) (rx tx : List Byte) :
    q.Leaves s.cfg { s.per.store r x with rxq := rx, txq := tx } := by
  cases q <;> cases hw
  case wrRcgcUart | wrRcgcGpio | wrAfsel | wrDen => exact or_and_cancel _ _
  case wrIbrd => exact congrArg Periph.ibrd (store_divisor s.per s.cfg.ibrdVal).1
  case wrFbrd => exact congrArg Periph.fbrd (store_divisor s.per s.cfg.fbrdVal).2
  case wrLcrh => rfl
  case wrPctl => exact andNot_or_and_cancel _ _ _
  case wrAmsel => exact andNot_and_cancel _ _
  case wrCtlOff | wrCtlOn => trivial

/-- A write of INIT reaches one register, so it keeps what every other access has left (R106, R115). -/
theorem initWrites_keeps (hw : s.initWrites q = some (r, x)) (rx tx : List Byte) (hp : p ≠ q)
    (h : p.Leaves s.cfg s.per) : p.Leaves s.cfg { s.per.store r x with rxq := rx, txq := tx } := by
  cases q <;> cases hw <;> cases p <;> first | exact h | exact absurd rfl hp

theorem busWrite_leaves (hw : s.initWrites q = some (r, x)) :
    q.Leaves s.cfg (s.busWrite r x).per ∧ (p.Leaves s.cfg s.per → p.Leaves s.cfg (s.busWrite r x).per) := by
  obtain ⟨rx, tx, hper, -⟩ := busWrite_per (initWrites_register hw).1 x s
  rw [hper]
  have hmakes := initWrites_makes hw rx tx
  refine ⟨hmakes, fun h => ?_⟩
  by_cases hp : p = q
  · exact hp ▸ hmakes
  · exact initWrites_keeps hw rx tx hp h

/-- Only the two writes of CTL reach UARTEN: the first clears it, the second sets it (R123, R133). -/
theorem busWrite_uarten (hw : s.initWrites q = some (r, x)) :
    (s.busWrite r x).per.uarten = if q = .wrCtlOff then false else if q = .wrCtlOn then true else s.per.uarten := by
  obtain ⟨rx, tx, hper, -⟩ := busWrite_per (initWrites_register hw).1 x s
  rw [hper]
  cases q <;> cases hw <;> simp [Periph.store, Periph.uarten]

/-- UARTEN stays sound over one access of INIT: past the first write of CTL it is off, past the second on. -/
theorem UartenSound.advance {mode : Mode} {b : Bool} (h : UartenSound mode q.index b) :
    UartenSound mode (q.index + 1) (if q = .wrCtlOff then false else if q = .wrCtlOn then true else b) := by
  by_cases hoff : q = .wrCtlOff
  · subst hoff
    exact ⟨fun _ _ => rfl, fun h => by simp [InitPos.index] at h⟩
  by_cases hon : q = .wrCtlOn
  · subst hon
    exact ⟨fun _ h => absurd (by decide) h, fun _ => rfl⟩
  have hoff' : q.index ≠ InitPos.wrCtlOff.index := fun heq => hoff (InitPos.index_injective heq)
  have hon' : q.index ≠ InitPos.wrCtlOn.index := fun heq => hon (InitPos.index_injective heq)
  rw [if_neg hoff, if_neg hon]
  refine ⟨fun h1 h2 => h.disabled (by omega) (by omega), fun hdue => h.enabled ?_⟩
  exact hdue.imp (fun ⟨hready, h1⟩ => ⟨hready, by omega⟩) fun h1 => by omega

theorem UartenSound.last {mode : Mode} {b : Bool} (h : UartenSound mode InitPos.wrAmsel.index b) :
    UartenSound .ready 0 b :=
  ⟨fun h => absurd h (Nat.not_lt_zero _), fun _ => h.enabled (.inr (by decide))⟩

/-- A position at which INIT neither writes nor polls leaves nothing to keep, and does not reach UARTEN. -/
theorem leaves_of_read (hw : s.initWrites q = none) (hpoll : q ≠ .pollPr) (cfg : Params) (per : Periph) :
    q.Leaves cfg per ∧ q ≠ .wrCtlOff ∧ q ≠ .wrCtlOn := by
  refine ⟨?_, fun hq => ?_, fun hq => ?_⟩
  · cases q <;> trivial
  · subst hq
    cases hw
  · subst hq
    cases hw

/-- A read of INIT before its readiness poll or after it changes no register (R133). -/
theorem initRead_configured {next : InitPos} (h : s.Configured) (hdr : r ≠ .dr) (hfr : r ≠ .fr)
    (hindex : next.index ≤ s.seq.initIndex + 1)
    (hmake : ∀ p, p.index = s.seq.initIndex → p.index < next.index → InitPos.Leaves s.cfg s.per p)
    (huarten : UartenSound s.mode next.index s.per.uarten) : (s.initRead r next).Configured := by
  rw [initRead_eq hdr hfr]
  exact h.advance rfl rfl hindex (fun _ => id) hmake huarten

theorem initPoll_configured (h : s.Configured) (hseq : s.seq = .run .init (.init .pollPr)) : s.initPoll.Configured := by
  obtain ⟨-, huarten⟩ := configured_iff.1 h
  rw [hseq] at huarten
  rw [initPoll_eq]
  split
  next hset =>
    refine h.advance rfl rfl (by rw [hseq]; exact le_rfl) (fun _ => id) (fun p heq _ => ?_)
      (huarten.advance (q := .pollPr))
    rw [hseq] at heq
    obtain rfl : p = .pollPr := InitPos.index_injective heq
    rw [Periph.prWord, BitVec.getLsbD_and] at hset
    exact (Bool.and_eq_true_iff.1 hset).1
  next =>
    exact h.advance rfl rfl (by rw [hseq]; exact Nat.le_succ _) (fun _ => id)
      (fun p heq hlt => absurd heq (by rw [hseq]; exact hlt.ne)) huarten

/-- INIT's last access completes the configuration, and MODE says so (R133, R134). -/
theorem initStep_last_configured (h : s.Configured) (hseq : s.seq = .run .init (.init .wrAmsel)) :
    (s.initStep .wrAmsel).Configured := by
  obtain ⟨hleaves, huarten⟩ := configured_iff.1 h
  rw [hseq] at hleaves huarten
  have hw : s.initWrites .wrAmsel = some (.amsel, s.dp.v &&& ~~~s.cfg.pins) := rfl
  refine configured_iff.2 ⟨fun p _ => ?_, ?_⟩
  · show p.Leaves (s.busWrite .amsel (s.dp.v &&& ~~~s.cfg.pins)).cfg (s.busWrite .amsel (s.dp.v &&& ~~~s.cfg.pins)).per
    rw [busWrite_cfg]
    by_cases hp : p = .wrAmsel
    · exact hp ▸ (busWrite_leaves (p := p) hw).1
    · have hlt : p.index < InitPos.wrAmsel.index :=
        lt_of_le_of_ne p.index_le_last fun heq => hp (InitPos.index_injective heq)
      exact (busWrite_leaves hw).2 (hleaves p (.inr hlt))
  · have hkept := busWrite_uarten hw
    show UartenSound .ready 0 (s.busWrite .amsel (s.dp.v &&& ~~~s.cfg.pins)).per.uarten
    rw [hkept]
    exact huarten.last

/-- Each step of INIT keeps what the accesses before it have configured, and adds its own (R133). -/
theorem initStep_configured (h : s.Configured) (hseq : s.seq = .run .init (.init q)) : (s.initStep q).Configured := by
  obtain ⟨-, huarten⟩ := configured_iff.1 h
  have hindex : s.seq.initIndex = q.index := by rw [hseq]; rfl
  rw [hindex] at huarten
  rcases initStep_cases q s with ⟨r, hdr, hfr, ⟨hw, hpoll, -⟩, hstep⟩ | ⟨r, x, hw, ⟨hlast, -⟩, hstep⟩ | rfl | rfl
  · obtain ⟨hleft, hoff, hon⟩ := leaves_of_read hw hpoll s.cfg s.per
    have hnext : q.next.index = q.index + 1 := InitPos.next_index fun hq => by subst hq; cases hw
    have huarten' := huarten.advance
    rw [if_neg hoff, if_neg hon, ← hnext] at huarten'
    rw [hstep]
    refine initRead_configured h hdr hfr (by omega) (fun p heq _ => ?_) huarten'
    obtain rfl := InitPos.index_injective (heq.trans hindex)
    exact hleft
  · have hnext := InitPos.next_index hlast
    have huarten' := huarten.advance
    rw [← busWrite_uarten hw, ← hnext] at huarten'
    rw [hstep]
    refine h.advance (t := s.initWrite r x q.next) (busWrite_cfg r x s) (busWrite_mode r x s) ?_
      (fun p => (busWrite_leaves hw).2) (fun p heq _ => ?_) huarten'
    · rw [hindex]
      exact hnext.le
    · obtain rfl := InitPos.index_injective (heq.trans hindex)
      exact (busWrite_leaves (p := p) hw).1
  · exact initPoll_configured h hseq
  · exact initStep_last_configured h hseq

/-- Where INIT stands at its start, it has made none of its accesses. -/
theorem initIndex_of_phaseIn (h : ∀ q, s.phaseIn .init = .init q → False) : s.seq.initIndex = 0 := by
  unfold Seq.initIndex
  split
  next q hseq => exact (h q (phaseIn_run hseq)).elim
  next => rfl

theorem InitPos.index_pos (p : InitPos) : 0 < p.index := by
  cases p <;> decide

theorem execInit_configured (h : s.Configured) (hexec : execInit s = .next t) : t.Configured := by
  unfold execInit at hexec
  split at hexec <;> obtain rfl := Host.Outcome.next.inj hexec
  next q hph => exact initStep_configured h (seq_of_phaseIn s hph nofun)
  next hph =>
    obtain ⟨-, huarten⟩ := configured_iff.1 h
    have hindex := initIndex_of_phaseIn hph
    rw [hindex] at huarten
    refine initRead_configured (r := .rcgcUart) h nofun nofun (by rw [hindex]; exact le_rfl) (fun p heq _ => ?_) ?_
    · exact absurd (heq.trans hindex) p.index_pos.ne'
    · refine ⟨fun h => absurd h (by decide), fun h => huarten.enabled ?_⟩
      exact h.elim (fun ⟨hready, _⟩ => .inl ⟨hready, Nat.not_lt_zero _⟩) fun h => absurd h (by decide)

end Init

/-! ### Every step -/

section Agents

variable {s t u : State} {i : Instr}

theorem initIndex_of_other {op : Op} {ph : Phase} (hop : op ≠ .init) : (Seq.run op ph).initIndex = 0 := by
  cases op with
  | init => exact absurd rfl hop
  | _ => rfl

theorem eq_init_of_op {i : Instr} (h : i.op = .init) : i = .init := by
  cases i with
  | init => rfl
  | _ => cases h

/-- Only INIT changes MODE (R130). -/
theorem exec_mode (hi : i ≠ .init) (h : exec i s = .next t) : t.mode = s.mode ∧ t.cfg = s.cfg := by
  rcases exec_cases h with hf | ⟨r, a, rfl⟩ | ⟨rfl, -, -⟩ | ⟨a, max, -, hf⟩
  · exact ⟨hf.mode, hf.cfg⟩
  · exact ⟨rfl, rfl⟩
  · exact absurd rfl hi
  · exact ⟨hf.mode, hf.cfg⟩

/-- A command other than INIT changes nothing of the peripheral but the FIFOs (R102). -/
theorem exec_per (hok : s.cfg.ok = true) (hi : i ≠ .init) (h : exec i s = .next t) :
    ∃ rx tx, t.per = { s.per with rxq := rx, txq := tx } := by
  obtain ⟨u, hu, ht⟩ := exec_engineStep hok h
  rw [ht.line.per]
  cases hu with
  | none => exact ⟨s.per.rxq, s.per.txq, rfl⟩
  | receives => exact ⟨_, s.per.txq, recvRead_per s⟩
  | sends =>
    rcases sendWrite_per s with ⟨-, hper⟩ | ⟨-, hper⟩ <;> rw [hper]
    · exact ⟨s.per.rxq, _, rfl⟩
    · exact ⟨s.per.rxq, s.per.txq, rfl⟩
  | configures p r x hop => exact absurd (eq_init_of_op hop) hi

theorem exec_configured (h : s.Configured) (hok : s.cfg.ok = true) {ph : Phase} (hseq : s.seq = .run i.op ph)
    (hexec : exec i s = .next t) : t.Configured := by
  by_cases hi : i = .init
  · subst hi
    exact execInit_configured h hexec
  obtain ⟨hmode, hcfg⟩ := exec_mode hi hexec
  obtain ⟨rx, tx, hper⟩ := exec_per hok hi hexec
  obtain ⟨u, -, ht⟩ := exec_engineStep hok hexec
  have hop : i.op ≠ .init := fun hop => hi (eq_init_of_op hop)
  have hindex : t.seq.initIndex = s.seq.initIndex := by
    rw [hseq, initIndex_of_other hop]
    cases ht.comes with
    | ends h => rw [h]; rfl
    | stays h => rw [h, hseq, initIndex_of_other hop]
    | goes ph' h => rw [h, initIndex_of_other hop]
  exact h.congr (m := 0#32) hcfg hmode hindex (by rw [hper, BitVec.or_zero])

theorem lineStep_configured (e : LineStep) (h : s.Configured) : (s.lineStep e).Configured := by
  have hf := lineStep_frame e s
  have hindex := congrArg Seq.initIndex (lineStep_seq e s)
  rcases lineStep_cases e s with hl | ⟨b, -, -, -, hl⟩ | ⟨b, rest, -, -, -, hl⟩ | ⟨-, -, hl⟩
  · exact hl.symm ▸ h
  · exact h.congr (m := 0#32) hf.cfg hf.mode hindex (by rw [hl, BitVec.or_zero]; rfl)
  · exact h.congr (m := 0#32) hf.cfg hf.mode hindex (by rw [hl, BitVec.or_zero]; rfl)
  · exact h.congr hf.cfg hf.mode hindex (by rw [hl])

/-- An issue finds INIT at none of its accesses, and leaves it at none, or leaves SEQ alone (R90). -/
theorem issue_initIndex (w : Command) (s : State) : (s.issue w).seq.initIndex = s.seq.initIndex := by
  rcases issue_cases w s with ⟨-, h⟩ | ⟨-, -, h⟩ | ⟨-, -, -, h⟩ | ⟨-, -, _, -, -, -, h⟩ | ⟨-, hidle, i, -, -, h⟩ <;> rw [h]
  · rfl
  · rfl
  · rfl
  · rfl
  · rw [hidle]
    cases i <;> rfl

theorem issue_configured (w : Command) (h : s.Configured) : (s.issue w).Configured := by
  obtain ⟨hmode, -, hper, -, hcfg⟩ := issue_frame w s
  exact h.congr (m := 0#32) hcfg hmode (issue_initIndex w s) (by rw [hper, BitVec.or_zero])

/-- Settles O18, agent by agent; the invariant says that the command in CMD is the one SEQ is at. -/
theorem everyStepKeepsTheConfiguration : Obligations.EveryStepKeepsTheConfiguration := by
  intro s t hinv h hstep
  have htaken : s.takeTurn.Configured :=
    h.congr (m := 0#32) rfl rfl rfl (by rw [BitVec.or_zero]; rfl)
  obtain ⟨hok, ⟨-, i, hcur, hexec⟩ | ⟨-, -, rfl⟩ | ⟨e, -, rfl⟩ | ⟨w, -, rfl⟩⟩ := step_next_cases hstep
  · obtain ⟨-, ⟨op, ph, hseq⟩, hdecode⟩ := current_eq_some.1 hcur
    obtain ⟨j, hj, rfl⟩ := hinv.command op ph hseq
    obtain rfl := Except.ok.inj (hj.symm.trans hdecode)
    exact exec_configured htaken hok hseq hexec
  · exact htaken
  · exact lineStep_configured e htaken
  · exact issue_configured w htaken

end Agents

end Sys2Proof.Machine
end

section
/-! PROOF. The register interface, access by access (spec/40_register_interface.md R100 to R106, R115, R120 to
R123): reads and writes of the registers, and the line environment's steps. -/

namespace Sys2Proof.Machine

/-! ### DR and FR (R103 to R105) -/

/-- Settles O27, by what a DR read returns and leaves. -/
theorem readOfDrTakesTheHead : Obligations.ReadOfDrTakesTheHead := by
  refine fun s => ⟨fun b rest hq => ⟨?byte, ?rest⟩, fun hq => ?empty⟩
  case byte => rw [drByte_eq, State.drByte, hq]
  case rest => rw [busRead_per, if_pos rfl, hq, List.tail_cons]
  case empty => rw [busRead_per, if_pos rfl, hq, List.tail_nil, ← hq]

/-- Settles O28, by the two rules of a DR write. -/
theorem writeOfDrAppendsUnlessFull : Obligations.WriteOfDrAppendsUnlessFull :=
  fun _ v => ⟨fun hroom => busWrite_dr hroom v, fun hfull => busWrite_dr_full hfull v⟩

/-- The flags reach no bit of FR but theirs (R105). -/
theorem flagWord_other {k : Nat} (h4 : k ≠ 4) (h5 : k ≠ 5) (x : Word) (a b : Bool) :
    (flagWord x a b).getLsbD k = x.getLsbD k := by
  have hbit (j : Nat) : (1#32 <<< j).getLsbD k = (decide (j < 32) && decide (j = k)) := by
    rw [← BitVec.twoPow_eq, BitVec.getLsbD_twoPow]
  have hmask : (0x30#32).getLsbD k = false := by
    rw [show 0x30#32 = 1#32 <<< 4 ||| 1#32 <<< 5 by decide, BitVec.getLsbD_or, hbit, hbit]
    simp [h4.symm, h5.symm]
  have hrxfe : (if a then 0x10#32 else 0#32).getLsbD k = false := by
    cases a
    · exact BitVec.getLsbD_zero
    · exact (hbit 4).trans (by simp [h4.symm])
  have htxff : (if b then 0x20#32 else 0#32).getLsbD k = false := by
    cases b
    · exact BitVec.getLsbD_zero
    · exact (hbit 5).trans (by simp [h5.symm])
  rw [flagWord, BitVec.getLsbD_or, BitVec.getLsbD_or, hrxfe, htxff, Bool.or_false, Bool.or_false, BitVec.getLsbD_and,
    BitVec.getLsbD_not, hmask]
  by_cases hk : k < 32
  · simp [hk]
  · simp [BitVec.getLsbD_of_ge x k (by omega)]

/-- Settles O29, bit by bit of the flag word. -/
theorem readOfFrShowsTheFlags : Obligations.ReadOfFrShowsTheFlags := by
  intro s
  rw [busRead_fr]
  refine ⟨?rxfe, ?txff, fun k h4 h5 => flagWord_other h4 h5 _ _ _, rfl⟩
  case rxfe => rw [frWord_rxfe, State.rxfe, List.isEmpty_iff]
  case txff => rw [frWord_txff, State.txff, beq_iff_eq]

/-! ### The storage registers (R102, R106, R115) -/

section Stored

variable {r r' : Reg} {s : State} {v : Word}

/-- The bits of a storage register that the peripheral implements (R106). -/
def implementedBits : Reg → Word
  | .ibrd => 0x0000FFFF#32
  | .fbrd => 0x0000003F#32
  | .lcrh => 0x000000FF#32
  | _ => 0xFFFFFFFF#32

/-- A narrower register holds the low bits of the word written, and reads zeros above them. -/
theorem setWidth_setWidth_eq_and {n : Nat} (hn : n ≤ 32) (v : Word) :
    (v.setWidth n).setWidth 32 = v &&& BitVec.ofNat 32 (2 ^ n - 1) := by
  have hpow : 2 ^ n ≤ 2 ^ 32 := Nat.pow_le_pow_right (by decide) hn
  apply BitVec.eq_of_toNat_eq
  rw [BitVec.toNat_and, BitVec.toNat_setWidth, BitVec.toNat_setWidth, BitVec.toNat_ofNat,
    Nat.mod_eq_of_lt (show 2 ^ n - 1 < 2 ^ 32 by omega), Nat.and_two_pow_sub_one_eq_mod]
  exact Nat.mod_eq_of_lt ((Nat.mod_lt _ (Nat.two_pow_pos n)).trans_le hpow)

theorem and_all (v : Word) : v &&& 0xFFFFFFFF#32 = v := BitVec.and_allOnes

/-- A storage register reads as the word stored in it, masked to its implemented bits. -/
theorem stored_store_same (hdr : r ≠ .dr) (hfr : r ≠ .fr) (hpr : r ≠ .prGpio) (per : Periph) :
    (per.store r v).stored r = v &&& implementedBits r := by
  cases r with
  | dr => exact absurd rfl hdr
  | fr => exact absurd rfl hfr
  | prGpio => exact absurd rfl hpr
  | ibrd => exact setWidth_setWidth_eq_and (n := 16) (by decide) v
  | fbrd => exact setWidth_setWidth_eq_and (n := 6) (by decide) v
  | lcrh => exact setWidth_setWidth_eq_and (n := 8) (by decide) v
  | _ => exact (and_all v).symm

/-- A store leaves every other register's value, but that PR_GPIO reads through RCGC_GPIO (R41). -/
theorem stored_store_other (hne : r' ≠ r) (hgate : ¬ (r = .rcgcGpio ∧ r' = .prGpio)) (per : Periph) :
    (per.store r v).stored r' = per.stored r' := by
  cases r' with
  | prGpio =>
    cases r with
    | rcgcGpio => exact absurd ⟨rfl, rfl⟩ hgate
    | _ => rfl
  | _ => cases r <;> first | rfl | exact absurd rfl hne

/-- What a write of another register than DR leaves in the registers is what it stores there (R106). -/
theorem busWrite_stored (hdr : r ≠ .dr) : (s.busWrite r v).per.stored r' = (s.per.store r v).stored r' := by
  obtain ⟨q, q', hper, -⟩ := busWrite_per hdr v s
  rw [hper]
  cases r' <;> rfl

/-- Only a write of LCRH, or of CTL that changes UARTEN, reconfigures the UART (R115). -/
theorem reconfigures_eq_false (hlcrh : r ≠ .lcrh) (hctl : r = .ctl → v.getLsbD 0 = s.per.ctl.getLsbD 0) :
    s.per.reconfigures r v = false := by
  cases r with
  | lcrh => exact absurd rfl hlcrh
  | ctl => exact reconfigures_ctl (hctl rfl)
  | _ => rfl

end Stored

/-- Settles O30: a write stores the masked word in its register, keeps or empties each FIFO, and reaches nothing
else. -/
theorem storageRegistersHoldTheirImplementedBits : Obligations.StorageRegistersHoldTheirImplementedBits := by
  intro s v mask
  refine ⟨fun r hdr hfr hpr => ?same, fun r r' hdr hne hgate => ?other, fun r hr => ?readOnly, fun r hdr => ?fifos⟩
  case same =>
    rw [busRead_stored hdr hfr, busWrite_stored hdr, stored_store_same hdr hfr hpr]
    cases r <;> rfl
  case other => rw [busWrite_stored hdr, stored_store_other hne hgate]
  case readOnly =>
    rcases hr with rfl | rfl <;> rw [busWrite_store (by decide) rfl] <;> rfl
  case fifos =>
    obtain ⟨q, q', hper, hq, hq', hkept⟩ := busWrite_per hdr v s
    rw [hper]
    exact ⟨hq, hq', fun hlcrh hctl => hkept (reconfigures_eq_false hlcrh hctl)⟩

/-! ### The line environment (R120 to R123) -/

section Line

variable {s : State} {e : LineStep}

theorem lineStep_of_enabled (h : s.enabled e = true) : s.lineStep e = s.lineEffect e := if_pos h

theorem lineStep_of_disabled (h : ¬ s.enabled e = true) : s.lineStep e = s := if_neg h

theorem enabled_rxArrive {b : Byte} :
    s.enabled (.rxArrive b) = true ↔ s.per.ctl.getLsbD 0 = true ∧ s.per.rxq.length < s.depth :=
  Bool.and_eq_true_iff.trans (and_congr_right' decide_eq_true_iff)

theorem enabled_txDrain : s.enabled .txDrain = true ↔ s.per.ctl.getLsbD 0 = true ∧ s.per.txq ≠ [] := by
  rw [State.enabled, Bool.and_eq_true, Bool.not_eq_true', ← Bool.not_eq_true, List.isEmpty_iff]
  rfl

theorem enabled_clkReady :
    s.enabled .clkReady = true ↔
      s.per.rcgcGpio.getLsbD s.cfg.gpioClkBit.val = true ∧ s.per.prGpio.getLsbD s.cfg.gpioClkBit.val = false := by
  rw [State.enabled, Bool.and_eq_true, Bool.not_eq_true']

/-- A character arrives while the UART is enabled and RXQ has room (R120). -/
theorem lineStep_rxArrive (b : Byte) (hen : s.per.ctl.getLsbD 0 = true) (hroom : s.per.rxq.length < s.depth) :
    s.lineStep (.rxArrive b) = { s with
      per := { s.per with rxq := s.per.rxq ++ [b] }
      trace := .rxIn b :: s.trace } := lineStep_of_enabled (enabled_rxArrive.2 ⟨hen, hroom⟩)

/-- The head of TXQ leaves for the terminal while the UART is enabled (R121). -/
theorem lineStep_txDrain {b : Byte} {rest : List Byte} (hen : s.per.ctl.getLsbD 0 = true)
    (hq : s.per.txq = b :: rest) :
    s.lineStep .txDrain = { s with
      per := { s.per with txq := rest }
      trace := .txOut b :: s.trace } := by
  rw [lineStep_of_enabled (enabled_txDrain.2 ⟨hen, by simp [hq]⟩), State.lineEffect, hq]
  rfl

/-- The pin clock becomes ready once its gate is on (R122). -/
theorem lineStep_clkReady (hgate : s.per.rcgcGpio.getLsbD s.cfg.gpioClkBit.val = true)
    (hnot : s.per.prGpio.getLsbD s.cfg.gpioClkBit.val = false) :
    s.lineStep .clkReady = { s with per := { s.per with prGpio := s.per.prGpio ||| s.cfg.gpioClkMask } } :=
  lineStep_of_enabled (enabled_clkReady.2 ⟨hgate, hnot⟩)

/-- GPIO_CLK_BIT's mask has that bit alone (R41). -/
theorem gpioClkMask_bit (cfg : Params) (k : Nat) : cfg.gpioClkMask.getLsbD k = (k == cfg.gpioClkBit.val) := by
  rw [Params.gpioClkMask, ← BitVec.twoPow_eq, BitVec.getLsbD_twoPow, decide_eq_true cfg.gpioClkBit.isLt,
    Bool.true_and, Bool.eq_iff_iff, decide_eq_true_iff, beq_iff_eq, eq_comm]

end Line

/-- Settles O34, step by step. -/
theorem lineEnvironmentStepsWhenEnabled : Obligations.LineEnvironmentStepsWhenEnabled := by
  refine fun s => ⟨fun b => lineStep_rxArrive b, fun b hno => ?_, fun b rest => lineStep_txDrain, fun hno => ?_,
    fun hgate hnot => ⟨_, lineStep_clkReady hgate hnot, fun k _ => ?_⟩, fun hno => ?_⟩
  · exact lineStep_of_disabled (mt enabled_rxArrive.1 hno)
  · exact lineStep_of_disabled (mt enabled_txDrain.1 hno)
  · rw [BitVec.getLsbD_or, gpioClkMask_bit]
  · exact lineStep_of_disabled (mt enabled_clkReady.1 hno)

end Sys2Proof.Machine
end

section
/-! PROOF. RECV and SEND in the commands that use them (spec/40_register_interface.md R107 to R109, R114): the
first step, the polls, the echo, and the poll that never ends. -/

namespace Sys2Proof.Machine

/-! ### The polls (R107 to R109) -/

section Polls

variable {s : State} {i : Instr}

/-- A receive poll as a state: one read of FR, and DR is read next exactly when RXQ is not empty (R105, R108). -/
theorem recvPoll_state (op : Op) (s : State) :
    s.recvPoll op = { s with
      seq := .run op (if s.per.rxq = [] then .rxPoll else .rxRead)
      draws := s.draws + 1
      trace := .busRd (s.cfg.addr .fr) s.frWord :: s.trace } := by
  have hflag : (if s.rxfe then Phase.rxPoll else .rxRead) = if s.per.rxq = [] then .rxPoll else .rxRead := by
    simp [State.rxfe]
  rw [recvPoll_eq, hflag]
  rfl

/-- At RECV's poll every command that receives polls FR once (R108). -/
theorem exec_rxPoll (hop : i.op.receives = true) (hseq : s.seq = .run i.op .rxPoll) :
    exec i s = .next (s.recvPoll i.op) := by
  cases i with
  | rxchar => simp only [exec, execRxchar, phaseIn_run (op := .rxchar) hseq]; rfl
  | decdec => exact congrArg _ (decoderStep_rxPoll hseq)
  | dechex => exact congrArg _ (decoderStep_rxPoll hseq)
  | rdline a max => simp only [exec, execRdline, phaseIn_run (op := .rdline) hseq]; rfl
  | _ => cases hop

/-- At SEND's poll every command that sends polls FR once (R109). -/
theorem exec_txPoll (hop : i.op.sends = true) (hseq : s.seq = .run i.op .txPoll) :
    exec i s = .next (s.sendPoll i.op) := by
  cases i with
  | txchar c => simp only [exec, execTxchar, phaseIn_run (op := .txchar) hseq]; rfl
  | txstr a => exact exec_txstr_txPoll hseq
  | decdec => exact congrArg _ (decoderStep_txPoll hseq)
  | encdec n => exact congrArg _ (encoderStep_txPoll hseq)
  | dechex => exact congrArg _ (decoderStep_txPoll hseq)
  | enchex n => exact congrArg _ (encoderStep_txPoll hseq)
  | rdline a max => simp only [exec, execRdline, phaseIn_run (op := .rdline) hseq]; rfl
  | _ => cases hop

/-- Settles O35, by the two polls. -/
theorem pollsReadFrUntilTheFlagClears : Obligations.PollsReadFrUntilTheFlagClears := by
  refine fun s i => ⟨fun hi hseq => ?_, fun hi hseq => ?_⟩
  · have hop : i.op.receives = true := by rcases hi with rfl | rfl | rfl | ⟨a, max, rfl⟩ <;> rfl
    rw [exec_rxPoll hop hseq, recvPoll_state]
  · have hop : i.op.sends = true := by
      rcases hi with ⟨c, rfl⟩ | ⟨a, rfl⟩ | rfl | ⟨n, rfl⟩ | rfl | ⟨n, rfl⟩ | ⟨a, max, rfl⟩ <;> rfl
    rw [exec_txPoll hop hseq, sendPoll_state]

end Polls

/-! ### First steps, and the DR write (R109, R136, R138, R162, R181, R201) -/

section Steps

variable {s : State} {i : Instr}

theorem exec_rxchar_start (hseq : s.seq = .run .rxchar .start) : exec .rxchar s = .next (s.recvPoll .rxchar) := by
  simp only [exec, execRxchar, phaseIn_run hseq]

theorem exec_rdline_start {a : Word} {max : Half} (hseq : s.seq = .run .rdline .start) :
    exec (.rdline a max) s = .next (({ s with dp := s.dp.openLine a max } : State).recvPoll .rdline) := by
  simp only [exec, execRdline, phaseIn_run hseq]

theorem exec_txchar_start {c : Byte} (hseq : s.seq = .run .txchar .start) :
    exec (.txchar c) s = .next ((s.setCh c).sendPoll .txchar) := by
  simp only [exec, execTxchar, phaseIn_run hseq]

theorem exec_txchar_txWrite {c : Byte} (hseq : s.seq = .run .txchar .txWrite) :
    exec (.txchar c) s = .next (s.sendWrite.complete .txchar none) := by
  simp only [exec, execTxchar, phaseIn_run hseq]

/-- The commands that echo what they receive (R163, R182, R202). -/
def Echoes (i : Instr) : Prop := i = .decdec ∨ i = .dechex ∨ ∃ a max, i = .rdline a max

/-- After the echo a receiving command polls for the next character (R163, R182, R202). -/
theorem exec_echo (hi : Echoes i) (hseq : s.seq = .run i.op .txWrite) :
    exec i s = .next (s.sendWrite.goto i.op .rxPoll) := by
  rcases hi with rfl | rfl | ⟨a, max, rfl⟩
  · exact congrArg _ (decoderStep_txWrite hseq)
  · exact congrArg _ (decoderStep_txWrite hseq)
  · simp only [exec, execRdline, phaseIn_run (op := .rdline) hseq]; rfl

end Steps

/-- Settles O36: each command's first computation, then the poll. -/
theorem receivingCommandsStartWithAPoll : Obligations.ReceivingCommandsStartWithAPoll := by
  refine fun s => ⟨fun hseq => ?_, fun hseq => ?_, fun hseq => ?_, fun a max hseq => ?_⟩
  · rw [exec_rxchar_start hseq, recvPoll_state]
  · rw [exec, execDecdec, decoderStep_start hseq, recvPoll_state]
    rfl
  · rw [exec, execDechex, decoderStep_start hseq, recvPoll_state]
    rfl
  · rw [exec_rdline_start hseq, recvPoll_state]
    rfl

/-- Settles O38, by the send poll and the DR write. -/
theorem txcharSendsItsOperand : Obligations.TxcharSendsItsOperand := by
  refine fun s c => ⟨fun hseq => ?_, fun hseq hroom => ?_⟩
  · rw [exec_txchar_start hseq, sendPoll_state]
    rfl
  · rw [exec_txchar_txWrite hseq, sendWrite_room hroom]
    rfl

/-- Settles O42, by the DR write. -/
theorem echoReturnsToReceiving : Obligations.EchoReturnsToReceiving := by
  intro s i hi hseq hroom
  rw [exec_echo hi hseq, sendWrite_room hroom]
  rfl

/-! ### The poll that never ends (R114, R246) -/

section Hang

variable {s t : State} {i : Instr}

/-- The engine polls and only another agent can let it go on: RXQ is empty at RECV's poll, or TXQ is full at
SEND's (R108, R109). -/
def State.pollsInVain (s : State) (i : Instr) : Prop :=
  (i.op.receives = true ∧ s.seq = .run i.op .rxPoll ∧ s.per.rxq = []) ∨
  (i.op.sends = true ∧ s.seq = .run i.op .txPoll ∧ s.per.txq.length = s.depth)

/-- A poll in vain leaves everything but the draws and the events observed. -/
theorem exec_of_pollsInVain (h : s.pollsInVain i) :
    exec i s = .next { s with draws := s.draws + 1, trace := .busRd (s.cfg.addr .fr) s.frWord :: s.trace } := by
  rcases h with ⟨hop, hseq, hempty⟩ | ⟨hop, hseq, hfull⟩
  · rw [exec_rxPoll hop hseq, recvPoll_state, if_pos hempty, ← hseq]
  · rw [exec_txPoll hop hseq, sendPoll_state, if_pos hfull, ← hseq]

/-- With no other agent moving, a poll in vain is repeated for ever (R114). -/
theorem runs_of_pollsInVain (k : Nat) (halone : s.alone) (hdecode : decode s.cmd = .ok i) (h : s.pollsInVain i) :
    ∃ t, runs k s t ∧ t.seq = s.seq ∧ t.fault = none ∧ t.dp = s.dp ∧ t.per = s.per ∧ t.mem = s.mem ∧
      t.completions = s.completions ∧ t.trace.length = s.trace.length + k := by
  induction k generalizing s with
  | zero =>
    obtain ⟨-, hfault, -⟩ := halone
    exact ⟨s, rfl, rfl, hfault, rfl, rfl, rfl, rfl, rfl⟩
  | succ k ih =>
    obtain ⟨ph, hseq⟩ : ∃ ph, s.seq = .run i.op ph := h.elim (fun ⟨_, h, _⟩ => ⟨_, h⟩) fun ⟨_, h, _⟩ => ⟨_, h⟩
    obtain ⟨t, hrun, ht, hfault, hdp, hper, hmem, hdone, htrace⟩ :=
      ih (s := { s with draws := s.draws + 1, trace := .busRd (s.cfg.addr .fr) s.frWord :: s.trace })
        halone hdecode h
    refine ⟨t, runs_succ ?_ hrun, ht, hfault, hdp, hper, hmem, ?_, ?_⟩
    · rw [step_of_alone halone hdecode hseq, exec_of_pollsInVain h]
    · rw [hdone, completions_of_trace_cons (s := s) rfl]
      exact List.append_nil _
    · rw [htrace, List.length_cons]
      omega

/-- Settles O57: the command stands at a poll in vain. -/
theorem pollsHangWithoutTheLineEnvironment : Obligations.PollsHangWithoutTheLineEnvironment := by
  intro s i ph halone hdecode hseq hvain k
  refine runs_of_pollsInVain k halone hdecode (hvain.imp ?_ ?_)
  · rintro ⟨hop, rfl, hempty⟩
    exact ⟨hop, hseq, hempty⟩
  · rintro ⟨hop, rfl, hfull⟩
    exact ⟨hop, hseq, hfull⟩

end Hang

end Sys2Proof.Machine
end

section
/-! PROOF. A whole INIT (spec/41_uart_driver.md R133, R134, spec/70_reset_and_hazards.md R241): the registers as
far as it has come, whatever the schedule, and the runs in which it ends. -/

namespace Sys2Proof.Machine

/-! ### The registers after the first accesses of INIT -/

/-- The peripheral after the first `n` of INIT's twenty accesses, but for the FIFOs and PR_GPIO, which the other
agents and the flushes reach (R133). -/
def Periph.initialized (cfg : Params) (n : Nat) (p : Periph) : Periph := { p with
  rcgcUart := if InitPos.wrRcgcUart.index < n then p.rcgcUart ||| cfg.uartClkMask else p.rcgcUart
  rcgcGpio := if InitPos.wrRcgcGpio.index < n then p.rcgcGpio ||| cfg.gpioClkMask else p.rcgcGpio
  ctl := if InitPos.wrCtlOn.index < n then p.ctl ||| 1#32
    else if InitPos.wrCtlOff.index < n then p.ctl &&& 0xFFFFFFFE#32 else p.ctl
  ibrd := if InitPos.wrIbrd.index < n then BitVec.ofNat 16 cfg.ibrdVal else p.ibrd
  fbrd := if InitPos.wrFbrd.index < n then BitVec.ofNat 6 cfg.fbrdVal else p.fbrd
  lcrh := if InitPos.wrLcrh.index < n then 0x70#8 else p.lcrh
  afsel := if InitPos.wrAfsel.index < n then p.afsel ||| cfg.pins else p.afsel
  den := if InitPos.wrDen.index < n then p.den ||| cfg.pins else p.den
  pctl := if InitPos.wrPctl.index < n then (p.pctl &&& ~~~cfg.pctlMask) ||| cfg.pctlFunc else p.pctl
  amsel := if InitPos.wrAmsel.index < n then p.amsel &&& ~~~cfg.pins else p.amsel }

/-- From `p₀` on, INIT's first `n` accesses and whatever happens to the FIFOs and PR_GPIO lead to `p`. -/
def Periph.InitializedTo (p₀ : Periph) (cfg : Params) (n : Nat) (p : Periph) : Prop :=
  ∃ rx tx pr, p = { p₀.initialized cfg n with rxq := rx, txq := tx, prGpio := pr }

section Registers

variable {s : State} {cfg : Params} {p₀ : Periph} {q : InitPos} {r : Reg} {x : Word}

/-- An access that writes nothing leaves the registers as the accesses before it did. -/
theorem initialized_of_read (hw : s.initWrites q = none) :
    p₀.initialized cfg (q.index + 1) = p₀.initialized cfg q.index := by
  cases q <;> cases hw <;> rfl

theorem and_or_cancel_low (v : Word) : (v &&& 0xFFFFFFFE#32) ||| 1#32 = v ||| 1#32 := by
  have hmask : 0xFFFFFFFE#32 = ~~~1#32 := by decide
  rw [hmask]
  ext k hk
  simp only [BitVec.getElem_or, BitVec.getElem_and, BitVec.getElem_not]
  cases v[k] <;> cases (1#32)[k] <;> rfl

/-- A write of INIT, with `v` the value of the register it modifies, adds its access to those before it (R75,
R133). -/
theorem store_initialized (hw : s.initWrites q = some (r, x))
    (hheld : ∀ r', q.modifies = some r' → s.dp.v = s.per.stored r')
    (hper : p₀.InitializedTo s.cfg q.index s.per) (rx tx : List Byte) :
    p₀.InitializedTo s.cfg (q.index + 1) { s.per.store r x with rxq := rx, txq := tx } := by
  obtain ⟨rx', tx', pr, hper⟩ := hper
  refine ⟨rx, tx, pr, ?_⟩
  cases q <;> cases hw
  case wrRcgcUart | wrRcgcGpio | wrCtlOff | wrAfsel | wrDen | wrPctl | wrAmsel =>
    rw [hheld _ rfl, hper]
    rfl
  case wrCtlOn =>
    have hctl : s.dp.v ||| 1#32 = p₀.ctl ||| 1#32 := by
      rw [hheld _ rfl, hper]
      exact and_or_cancel_low p₀.ctl
    rw [hctl, hper]
    rfl
  case wrIbrd =>
    rw [(store_divisor s.per s.cfg.ibrdVal).1, hper]
    rfl
  case wrFbrd =>
    rw [(store_divisor s.per s.cfg.fbrdVal).2, hper]
    rfl
  case wrLcrh =>
    rw [hper]
    rfl

end Registers

/-! ### How far INIT has come -/

/-- Where an INIT that began at `s` stands after `n` accesses: at its start; before an access, with `v` the value of
the register that a write there modifies; or complete. -/
inductive InitPosition (s : State) (n : Nat) (t : State) : Prop where
  | starting (hn : n = 0) (hseq : t.seq = .run .init .start) (hmode : t.mode = s.mode)
      (hdone : t.completions = s.completions)
  | access (q : InitPos) (hn : n = q.index) (hseq : t.seq = .run .init (.init q))
      (hheld : ∀ r, q.modifies = some r → t.dp.v = t.per.stored r) (hmode : t.mode = s.mode)
      (hdone : t.completions = s.completions)
  | ended (hn : n = 20) (hseq : t.seq = .idle) (hmode : t.mode = .ready)
      (hdone : t.completions = s.completions ++ [(.init, none)])

/-- An INIT that began at `s`, without an issue since, has made `n` accesses and come to `t`. -/
structure InitRun (s : State) (n : Nat) (t : State) : Prop where
  unissued : t.unissued
  command : decode t.cmd = .ok .init
  mem : t.mem = s.mem
  cfg : t.cfg = s.cfg
  registers : s.per.InitializedTo s.cfg n t.per
  clock : t.per.prGpio = s.per.prGpio ∨ t.per.prGpio = s.per.prGpio ||| s.cfg.gpioClkMask
  ready : InitPos.pollPr.index < n → t.per.prGpio.getLsbD s.cfg.gpioClkBit.val = true
  position : InitPosition s n t

section Run

variable {s t u : State} {n : Nat} {q : InitPos}

/-- The other agents leave INIT where it stands (R20, R120 to R122). -/
theorem InitRun.of_agent {rx tx : List Byte} {m : Word} (h : InitRun s n t) (hu : u.unissued) (hcmd : u.cmd = t.cmd)
    (hmode : u.mode = t.mode) (hmem : u.mem = t.mem) (hcfg : u.cfg = t.cfg) (hunmoved : t.Unmoved u)
    (hper : u.per = { t.per with rxq := rx, txq := tx, prGpio := t.per.prGpio ||| m })
    (hm : m = 0#32 ∨ m = s.cfg.gpioClkMask) : InitRun s n u where
  unissued := hu
  command := by rw [hcmd]; exact h.command
  mem := hmem.trans h.mem
  cfg := hcfg.trans h.cfg
  registers := by
    obtain ⟨rx', tx', pr, hregs⟩ := h.registers
    exact ⟨rx, tx, t.per.prGpio ||| m, by rw [hper, hregs]⟩
  clock := by
    rw [hper]
    rcases hm with rfl | rfl
    · rw [BitVec.or_zero]
      exact h.clock
    · rcases h.clock with heq | heq <;> rw [heq]
      · exact .inr rfl
      · rw [BitVec.or_assoc, BitVec.or_self]
        exact .inr rfl
  ready hn := by rw [hper, BitVec.getLsbD_or, h.ready hn, Bool.true_or]
  position := by
    cases h.position with
    | starting hn hseq hm hdone =>
      exact .starting hn (hunmoved.seq.trans hseq) (hmode.trans hm) (hunmoved.completions.trans hdone)
    | access q hn hseq hheld hm hdone =>
      refine .access q hn (hunmoved.seq.trans hseq) (fun r hr => ?_) (hmode.trans hm)
        (hunmoved.completions.trans hdone)
      rw [hunmoved.dp, hheld r hr, hper]
      exact (stored_modified hr _ _ _ _).symm
    | ended hn hseq hm hdone =>
      exact .ended hn (hunmoved.seq.trans hseq) (hmode.trans hm) (hunmoved.completions.trans hdone)

theorem InitRun.takeTurn (h : InitRun s n t) : InitRun s n t.takeTurn :=
  h.of_agent (m := 0#32) h.unissued.takeTurn rfl rfl rfl rfl (takeTurn_unmoved t) (by rw [BitVec.or_zero]; rfl) (.inl rfl)

theorem InitRun.lineStep (h : InitRun s n t) (e : LineStep) : InitRun s n (t.lineStep e) := by
  have hf := lineStep_frame e t
  have keep {rx tx : List Byte} {m : Word}
      (hper : (t.lineStep e).per = { t.per with rxq := rx, txq := tx, prGpio := t.per.prGpio ||| m })
      (hm : m = 0#32 ∨ m = s.cfg.gpioClkMask) : InitRun s n (t.lineStep e) :=
    h.of_agent (hf.unissued h.unissued) hf.cmd hf.mode hf.mem hf.cfg (lineStep_unmoved e t) hper hm
  rcases lineStep_cases e t with hl | ⟨b, -, -, -, hl⟩ | ⟨b, rest, -, -, -, hl⟩ | ⟨-, -, hl⟩
  · exact hl.symm ▸ h
  · exact keep (by rw [hl, BitVec.or_zero]; rfl) (.inl rfl)
  · exact keep (by rw [hl, BitVec.or_zero]; rfl) (.inl rfl)
  · exact keep (by rw [hl]) (.inr (by rw [h.cfg]))

/-- An access of INIT before the last moves it on. -/
theorem InitRun.advance {n' : Nat} (h : InitRun s n t) (hf : t.Frame u) (hregs : s.per.InitializedTo s.cfg n' u.per)
    (hpr : u.per.prGpio = t.per.prGpio)
    (hready : InitPos.pollPr.index < n' → t.per.prGpio.getLsbD s.cfg.gpioClkBit.val = true)
    (hpos : InitPosition s n' u) : InitRun s n' u where
  unissued := hf.unissued h.unissued
  command := by rw [hf.cmd]; exact h.command
  mem := hf.mem.trans h.mem
  cfg := hf.cfg.trans h.cfg
  registers := hregs
  clock := by rw [hpr]; exact h.clock
  ready := by rw [hpr]; exact hready
  position := hpos

theorem initRead_completions (r : Reg) (next : InitPos) (s : State) : (s.initRead r next).completions = s.completions :=
  (busRead_quiet r s).completions

theorem initWrite_completions (r : Reg) (x : Word) (next : InitPos) (s : State) :
    (s.initWrite r x next).completions = s.completions := (busWrite_quiet r x s).completions

theorem store_prGpio (r : Reg) (x : Word) (p : Periph) : (p.store r x).prGpio = p.prGpio := by
  cases r <;> rfl

theorem busWrite_prGpio {r : Reg} {x : Word} (hw : s.initWrites q = some (r, x)) :
    (s.busWrite r x).per.prGpio = s.per.prGpio := by
  obtain ⟨rx, tx, hper, -⟩ := busWrite_per (initWrites_register hw).1 x s
  rw [hper]
  exact store_prGpio r x s.per

/-- INIT's first access, the read of RCGC_UART. -/
theorem InitRun.start (h : InitRun s n t) (hn : n = 0) (hmode : t.mode = s.mode)
    (hdone : t.completions = s.completions) : InitRun s (n + 1) (t.initRead .rcgcUart .wrRcgcUart) := by
  subst hn
  have hread := initRead_eq (r := .rcgcUart) (by decide) (by decide) .wrRcgcUart t
  refine h.advance (initRead_frame t _ _) ?_ (by rw [hread]; rfl) (fun h => absurd h (by decide))
    (.access .wrRcgcUart rfl rfl (fun r hr => ?_) (by rw [hread]; exact hmode)
      ((initRead_completions _ _ t).trans hdone))
  · rw [hread]
    exact h.registers
  · obtain rfl := Option.some.inj hr
    rw [hread]
    rfl

/-- An access of INIT after its first moves it on; only the readiness poll may be made again. -/
theorem InitRun.initStep (h : InitRun s n t) (hn : n = q.index) (hseq : t.seq = .run .init (.init q))
    (hheld : ∀ r, q.modifies = some r → t.dp.v = t.per.stored r) (hmode : t.mode = s.mode)
    (hdone : t.completions = s.completions) :
    InitRun s (n + 1) (t.initStep q) ∨
    (q = .pollPr ∧ t.per.prWord.getLsbD s.cfg.gpioClkBit.val = false ∧ InitRun s n (t.initStep q)) := by
  subst hn
  have hready (hq : q ≠ .pollPr) (hlt : InitPos.pollPr.index < q.index + 1) :
      t.per.prGpio.getLsbD s.cfg.gpioClkBit.val = true :=
    h.ready (lt_of_le_of_ne (Nat.le_of_lt_succ hlt) fun heq => hq (InitPos.index_injective heq.symm))
  rcases initStep_cases q t with ⟨r, hdr, hfr, ⟨hw, hpoll, hnext⟩, hstep⟩ | ⟨r, x, hw, ⟨hlast, hnext⟩, hstep⟩ | rfl | rfl
  · have hread := initRead_eq hdr hfr q.next t
    have hlast : q ≠ .wrAmsel := fun hq => by subst hq; cases hw
    rw [hstep]
    refine .inl (h.advance (initRead_frame t r _) ?_ (by rw [hread]; rfl) (hready hpoll)
      (.access q.next (InitPos.next_index hlast).symm rfl (fun r' hr' => ?_) (by rw [hread]; exact hmode)
        ((initRead_completions _ _ t).trans hdone)))
    · obtain ⟨rx, tx, pr, hregs⟩ := h.registers
      exact ⟨rx, tx, pr, by rw [hread, initialized_of_read hw]; exact hregs⟩
    · obtain rfl := Option.some.inj (hnext.symm.trans hr')
      rw [hread]
      rfl
  · obtain ⟨rx, tx, hper, -⟩ := busWrite_per (initWrites_register hw).1 x t
    have hpoll : q ≠ .pollPr := fun hq => by subst hq; cases hw
    rw [hstep]
    refine .inl (h.advance (initWrite_frame t r x _) ?_ (busWrite_prGpio hw) (hready hpoll)
      (.access q.next (InitPos.next_index hlast).symm rfl (fun r' hr' => ?_) ((busWrite_mode r x t).trans hmode)
        ((initWrite_completions _ _ _ t).trans hdone)))
    · show s.per.InitializedTo s.cfg _ (t.busWrite r x).per
      rw [hper, ← h.cfg]
      exact store_initialized hw hheld (h.cfg.symm ▸ h.registers) rx tx
    · exact nomatch hnext.symm.trans hr'
  · have hregs (n' : Nat) (hn' : s.per.initialized s.cfg n' = s.per.initialized s.cfg InitPos.pollPr.index) :
        s.per.InitializedTo s.cfg n' t.initPoll.per := by
      obtain ⟨rx, tx, pr, hregs⟩ := h.registers
      exact ⟨rx, tx, pr, by rw [initPoll_eq, hn']; exact hregs⟩
    have hdone' : t.initPoll.completions = s.completions := (busRead_quiet .prGpio t).completions.trans hdone
    have hseq' : t.initPoll.seq = .run .init
        (.init (if t.per.prWord.getLsbD s.cfg.gpioClkBit.val then .rdCtlOff else .pollPr)) := by
      rw [initPoll_eq, h.cfg]
      rfl
    cases hbit : t.per.prWord.getLsbD s.cfg.gpioClkBit.val with
    | true =>
      rw [hbit] at hseq'
      rw [Periph.prWord, BitVec.getLsbD_and, Bool.and_eq_true] at hbit
      exact .inl (h.advance ⟨rfl, rfl, rfl, rfl, rfl, rfl⟩ (hregs _ (initialized_of_read (s := s) rfl)) rfl
        (fun _ => hbit.1) (.access .rdCtlOff rfl hseq' nofun hmode hdone'))
    | false =>
      rw [hbit] at hseq'
      exact .inr ⟨rfl, rfl, h.advance ⟨rfl, rfl, rfl, rfl, rfl, rfl⟩ (hregs _ rfl) rfl h.ready
        (.access .pollPr rfl hseq' nofun hmode hdone')⟩
  · have hw : t.initWrites .wrAmsel = some (.amsel, t.dp.v &&& ~~~t.cfg.pins) := rfl
    obtain ⟨rx, tx, hper, -⟩ := busWrite_per (r := .amsel) nofun (t.dp.v &&& ~~~t.cfg.pins) t
    obtain ⟨hready', hidle, hdone'⟩ := initStep_last t
    refine .inl {
      unissued := h.unissued
      command := h.command
      mem := h.mem
      cfg := h.cfg
      registers := ?_
      clock := h.clock
      ready := hready nofun
      position := .ended rfl hidle hready' (hdone'.trans (by rw [hdone])) }
    show s.per.InitializedTo s.cfg _ (t.busWrite .amsel (t.dp.v &&& ~~~t.cfg.pins)).per
    rw [hper, ← h.cfg]
    exact store_initialized hw hheld (h.cfg.symm ▸ h.registers) rx tx

/-- One engine step of INIT. -/
theorem InitRun.exec (h : InitRun s n t) (hbusy : t.seq ≠ .idle) :
    ∃ u, exec .init t = .next u ∧
      (InitRun s (n + 1) u ∨
        (n = InitPos.pollPr.index ∧ t.per.prWord.getLsbD s.cfg.gpioClkBit.val = false ∧ InitRun s n u)) := by
  cases h.position with
  | starting hn hseq hmode hdone => exact ⟨_, exec_init_start hseq, .inl (h.start hn hmode hdone)⟩
  | access q hn hseq hheld hmode hdone =>
    refine ⟨_, exec_init_at hseq, (h.initStep hn hseq hheld hmode hdone).imp_right ?_⟩
    rintro ⟨rfl, hbit, hu⟩
    exact ⟨hn, hbit, hu⟩
  | ended hn hseq => exact absurd hseq hbusy

/-- INIT at its start has made no access. -/
theorem InitRun.initial (hs : s.unissued) (hcmd : decode s.cmd = .ok .init) (hseq : s.seq = .run .init .start) :
    InitRun s 0 s where
  unissued := hs
  command := hcmd
  mem := rfl
  cfg := rfl
  registers := ⟨s.per.rxq, s.per.txq, s.per.prGpio, rfl⟩
  clock := .inl rfl
  ready h := absurd h (Nat.not_lt_zero _)
  position := .starting rfl hseq rfl rfl

/-- Whatever the schedule, INIT is somewhere in its sequence of accesses. -/
theorem InitRun.of_runs {k : Nat} (hs : s.unissued) (hstarted : s.started .init) (hrun : runs k s t) :
    ∃ n, InitRun s n t := by
  obtain ⟨hseq, hcmd⟩ := hstarted
  refine runs_induction (P := fun t => ∃ n, InitRun s n t) ?_ ⟨0, .initial hs hcmd hseq⟩ hrun
  rintro u v ⟨n, hu⟩ hstep
  rcases step_unissued_cases hu.unissued hstep with ⟨i, hcur, hexec⟩ | ⟨-, rfl⟩ | ⟨e, rfl⟩
  · obtain ⟨-, ⟨op, ph, hrunning⟩, hdecode⟩ := current_eq_some.1 hcur
    obtain rfl : Instr.init = i := Except.ok.inj (hu.command.symm.trans hdecode)
    obtain ⟨w, hw, hprogress⟩ := hu.takeTurn.exec (by simp [hrunning])
    obtain rfl := Host.Outcome.next.inj (hw.symm.trans hexec)
    exact hprogress.elim (fun h => ⟨_, h⟩) fun ⟨_, _, h⟩ => ⟨n, h⟩
  · exact ⟨n, hu.takeTurn⟩
  · exact ⟨n, hu.takeTurn.lineStep e⟩

end Run

/-! ### The run to its end -/

section Ends

variable {s t u : State} {n : Nat}

/-- The FIFO is kept or emptied (R115). -/
def KeptOrEmptied (q q' : List Byte) : Prop := q' = q ∨ q' = []

theorem KeptOrEmptied.trans {q q' q'' : List Byte} (h : KeptOrEmptied q q') (h' : KeptOrEmptied q' q'') :
    KeptOrEmptied q q'' := by
  rcases h' with rfl | rfl
  · exact h
  · exact .inr rfl

/-- `t` has the peripheral of `s`, each FIFO kept or emptied, in PR_GPIO and the FIFOs. -/
structure State.Flushed (s t : State) : Prop where
  prGpio : t.per.prGpio = s.per.prGpio
  rxq : KeptOrEmptied s.per.rxq t.per.rxq
  txq : KeptOrEmptied s.per.txq t.per.txq

theorem State.Flushed.trans (h : s.Flushed t) (h' : t.Flushed u) : s.Flushed u :=
  ⟨h'.prGpio.trans h.prGpio, h.rxq.trans h'.rxq, h.txq.trans h'.txq⟩

theorem InitRun.position_ne_dr (h : InitRun s n t) (ph : Phase) (hph : ph = .rxRead ∨ ph = .txWrite) :
    t.seq ≠ .run .init ph := by
  rintro hseq
  cases h.position with
  | starting _ h => rcases hph with rfl | rfl <;> exact nomatch h.symm.trans hseq
  | access _ _ h => rcases hph with rfl | rfl <;> exact nomatch h.symm.trans hseq
  | ended _ h => exact nomatch h.symm.trans hseq

/-- An engine step of INIT keeps or empties each FIFO, and leaves PR_GPIO to the pin clock (R115, R122). -/
theorem InitRun.exec_flushed (h : InitRun s n t) (hexec : Machine.exec .init t = .next u) : t.Flushed u := by
  obtain ⟨hok, -, -⟩ := h.unissued
  obtain ⟨v, hv, hu⟩ := exec_engineStep hok hexec
  suffices hflushed : t.Flushed v by
    obtain ⟨hpr, hrx, htx⟩ := hflushed
    rw [← hu.line.per] at hpr hrx htx
    exact ⟨hpr, hrx, htx⟩
  cases hv with
  | none => exact ⟨rfl, .inl rfl, .inl rfl⟩
  | receives hseq => exact absurd hseq (h.position_ne_dr _ (.inl rfl))
  | sends hseq => exact absurd hseq (h.position_ne_dr _ (.inr rfl))
  | configures p r x _ _ hw =>
    obtain ⟨rx, tx, hper, hrx, htx, -⟩ := busWrite_per (initWrites_register hw).1 x t
    refine ⟨busWrite_prGpio hw, ?_, ?_⟩
    · rw [hper]
      exact hrx
    · rw [hper]
      exact htx

theorem InitRun.busy (h : InitRun s n t) (hn : n < 20) : t.seq ≠ .idle := by
  intro hidle
  cases h.position with
  | starting _ hseq => exact nomatch hseq.symm.trans hidle
  | access _ _ hseq => exact nomatch hseq.symm.trans hidle
  | ended h20 => omega

theorem InitRun.idle (h : InitRun s 20 t) : t.seq = .idle := by
  cases h.position with
  | starting hn => cases hn
  | access q hn =>
    have hlast : q.index ≤ 19 := q.index_le_last
    omega
  | ended _ hseq => exact hseq

/-- Once INIT has opened the gate, the readiness poll reads the pin clock's bit of PR_GPIO (R41, R133). -/
theorem InitRun.prWord_bit (h : InitRun s n t) (hn : InitPos.wrRcgcGpio.index < n) :
    t.per.prWord.getLsbD s.cfg.gpioClkBit.val = t.per.prGpio.getLsbD s.cfg.gpioClkBit.val := by
  obtain ⟨rx, tx, pr, hregs⟩ := h.registers
  have hgate : t.per.rcgcGpio = s.per.rcgcGpio ||| s.cfg.gpioClkMask := by
    rw [hregs]
    exact if_pos hn
  rw [Periph.prWord, BitVec.getLsbD_and, hgate, BitVec.getLsbD_or, gpioClkMask_bit, beq_self_eq_true, Bool.or_true,
    Bool.and_true]

/-- On the engine's turn INIT makes its next access, if the pin clock is ready by its poll. -/
theorem InitRun.step (h : InitRun s n t) (hn : n < 20) (hturn : t.turn = .engine)
    (hclock : n = InitPos.pollPr.index → t.per.prGpio.getLsbD s.cfg.gpioClkBit.val = true) :
    ∃ u, step t = .next u ∧ InitRun s (n + 1) u ∧ u.agenda = t.agenda.tail ∧ t.Flushed u := by
  obtain ⟨hok, hfault, -⟩ := h.unissued
  have hbusy := h.busy hn
  obtain ⟨op, ph, hseq⟩ : ∃ op ph, t.seq = .run op ph := by
    cases hs : t.seq with
    | idle => exact absurd hs hbusy
    | run op ph => exact ⟨op, ph, rfl⟩
  have htaken := h.takeTurn
  obtain ⟨u, hexec, hprogress⟩ := htaken.exec hbusy
  obtain ⟨hpr, hrx, htx⟩ := htaken.exec_flushed hexec
  refine ⟨u, ?_, ?_, ?_, hpr, hrx, htx⟩
  · rw [step_of_current hok hturn (current_eq_some.2 ⟨hfault, ⟨op, ph, hseq⟩, h.command⟩), hexec]
  · refine hprogress.resolve_right ?_
    rintro ⟨rfl, hbit, -⟩
    rw [htaken.prWord_bit (by decide)] at hbit
    exact nomatch hbit.symm.trans (hclock rfl)
  · rcases exec_cases hexec with hf | ⟨r, a, rfl⟩ | ⟨-, -, rfl⟩ | ⟨a, max, hi, -⟩
    · exact hf.agenda
    · rfl
    · exact busWrite_agenda _ _ _
    · cases hi

/-- With no other agent moving and the pin clock ready, INIT makes the rest of its twenty accesses and ends. -/
theorem InitRun.ends {m : Nat} (h : InitRun s n t) (hm : n + m = 20) (hagenda : t.agenda = [])
    (hclock : t.per.prGpio.getLsbD s.cfg.gpioClkBit.val = true) :
    ∃ u, runs m t u ∧ u.seq = .idle ∧ t.Flushed u := by
  induction m generalizing n t with
  | zero =>
    obtain rfl : n = 20 := hm
    exact ⟨t, rfl, h.idle, rfl, .inl rfl, .inl rfl⟩
  | succ m ih =>
    obtain ⟨v, hstep, hv, hagenda', hflushed⟩ := h.step (by omega) (turn_nil hagenda) fun _ => hclock
    rw [hagenda] at hagenda'
    obtain ⟨u, hrun, hidle, hflushed'⟩ := ih hv (by omega) hagenda' (by rw [hflushed.prGpio]; exact hclock)
    exact ⟨u, runs_succ hstep hrun, hidle, hflushed.trans hflushed'⟩

/-- With the engine's turns scheduled first, INIT comes to its readiness poll while it has none of them left. -/
theorem InitRun.before_poll {m : Nat} {rest : List Turn} (h : InitRun s n t) (hm : n + m = InitPos.pollPr.index)
    (hagenda : t.agenda = List.replicate m .engine ++ rest) :
    ∃ u, (∀ k v, runs k u v → runs (k + m) t v) ∧ InitRun s InitPos.pollPr.index u ∧ u.agenda = rest ∧ t.Flushed u := by
  induction m generalizing n t with
  | zero =>
    obtain rfl : n = InitPos.pollPr.index := hm
    exact ⟨t, fun _ _ => id, h, hagenda, rfl, .inl rfl, .inl rfl⟩
  | succ m ih =>
    have hpoll : InitPos.pollPr.index = 4 := rfl
    rw [List.replicate_succ, List.cons_append] at hagenda
    obtain ⟨v, hstep, hv, hagenda', hflushed⟩ := h.step (by omega) (turn_cons hagenda) fun _ => by omega
    rw [hagenda, List.tail_cons] at hagenda'
    obtain ⟨u, hruns, hu, hrest, hflushed'⟩ := ih hv (by omega) hagenda'
    exact ⟨u, fun k w hw => runs_succ hstep (hruns k w hw), hu, hrest, hflushed.trans hflushed'⟩

/-- The pin clock's turn makes it ready once INIT has opened its gate (R122). -/
theorem InitRun.clkReady {rest : List Turn} (h : InitRun s n t) (hn : InitPos.wrRcgcGpio.index < n)
    (hagenda : t.agenda = .line .clkReady :: rest) (hnot : t.per.prGpio.getLsbD s.cfg.gpioClkBit.val = false) :
    ∃ u, Machine.step t = .next u ∧ InitRun s n u ∧ u.agenda = rest ∧
      u.per.prGpio.getLsbD s.cfg.gpioClkBit.val = true := by
  obtain ⟨hok, -, -⟩ := h.unissued
  obtain ⟨rx, tx, pr, hregs⟩ := h.registers
  have hgate : t.per.rcgcGpio.getLsbD t.cfg.gpioClkBit.val = true := by
    have hopen : t.per.rcgcGpio = s.per.rcgcGpio ||| s.cfg.gpioClkMask := by
      rw [hregs]
      exact if_pos hn
    rw [hopen, h.cfg, BitVec.getLsbD_or, gpioClkMask_bit, beq_self_eq_true, Bool.or_true]
  have hline := lineStep_clkReady (s := t.takeTurn) hgate (h.cfg.symm ▸ hnot)
  refine ⟨_, step_of_line hok (turn_cons hagenda), h.takeTurn.lineStep .clkReady, ?_, ?_⟩
  · rw [hline]
    exact congrArg List.tail hagenda
  · rw [hline]
    show (t.per.prGpio ||| t.cfg.gpioClkMask).getLsbD s.cfg.gpioClkBit.val = true
    rw [h.cfg, BitVec.getLsbD_or, gpioClkMask_bit, beq_self_eq_true, Bool.or_true]

theorem or_mask_of_bit {x : Word} {cfg : Params} (h : x.getLsbD cfg.gpioClkBit.val = true) :
    x ||| cfg.gpioClkMask = x := by
  apply BitVec.eq_of_getLsbD_eq
  intro k hk
  rw [BitVec.getLsbD_or, gpioClkMask_bit]
  by_cases hbit : k = cfg.gpioClkBit.val
  · rw [hbit, h, Bool.true_or]
  · rw [beq_eq_false_iff_ne.2 hbit, Bool.or_false]

/-- The divisor's parts fit their registers in an admitted configuration (R132). -/
theorem divisor_fits {cfg : Params} (hok : cfg.ok = true) :
    (BitVec.ofNat 16 cfg.ibrdVal).toNat = cfg.ibrdVal ∧ (BitVec.ofNat 6 cfg.fbrdVal).toNat = cfg.fbrdVal := by
  simp only [Params.ok, Params.divisorOk, Bool.and_eq_true, decide_eq_true_eq] at hok
  obtain ⟨-, -, hle⟩ := hok
  have hfrac : cfg.fbrdVal < 64 := Nat.mod_lt _ (by decide)
  exact ⟨(BitVec.toNat_ofNat _ _).trans (Nat.mod_eq_of_lt (by omega)),
    (BitVec.toNat_ofNat _ _).trans (Nat.mod_eq_of_lt hfrac)⟩

/-- Settles O48: how far INIT has come along any schedule, and the runs of its twenty accesses. -/
theorem initConfiguresThePeripheral : Obligations.InitConfiguresThePeripheral := by
  intro s hs hstarted
  have hstart : InitRun s 0 s := by
    obtain ⟨hseq, hcmd⟩ := hstarted
    exact InitRun.initial hs hcmd hseq
  refine ⟨fun k t hrun => ?schedule, fun hagenda hclock => ?ready, fun hagenda hclock => ?waits⟩
  case schedule =>
    obtain ⟨n, h⟩ := InitRun.of_runs hs hstarted hrun
    obtain ⟨hok, hfault, -⟩ := h.unissued
    refine ⟨hfault, h.mem, fun hbusy => ?_, fun hidle => ?_⟩
    · cases h.position with
      | starting _ _ hmode hdone => exact ⟨hmode, hdone⟩
      | access _ _ _ _ hmode hdone => exact ⟨hmode, hdone⟩
      | ended _ hseq => exact absurd hseq hbusy
    · cases h.position with
      | starting _ hseq => exact nomatch hseq.symm.trans hidle
      | access _ _ hseq => exact nomatch hseq.symm.trans hidle
      | ended hn _ hmode hdone =>
        subst hn
        obtain ⟨hibrd, hfbrd⟩ := divisor_fits (h.cfg ▸ hok)
        obtain ⟨rx, tx, pr, hregs⟩ := h.registers
        have hclock : t.per.prGpio = s.per.prGpio ||| s.cfg.gpioClkMask := by
          refine h.clock.elim (fun heq => ?_) id
          rw [heq]
          exact (or_mask_of_bit (heq ▸ h.ready (by decide))).symm
        refine ⟨hmode, hdone, ?_, ?_, ?_, ?_, ?_, ?_, hclock, ?_, ?_, ?_, ?_⟩ <;> rw [hregs]
        exacts [hibrd, hfbrd, rfl, rfl, rfl, rfl, rfl, rfl, rfl, rfl]
  case ready =>
    obtain ⟨t, hrun, hidle, hflushed⟩ := hstart.ends (m := 20) rfl hagenda hclock
    exact ⟨t, hrun, hidle, hflushed.rxq, hflushed.txq⟩
  case waits =>
    obtain ⟨u, hruns, hu, hrest, hflushed⟩ := hstart.before_poll (m := 4) (rest := [.line .clkReady]) rfl hagenda
    obtain ⟨v, hstep, hv, hnone, hready⟩ :=
      hu.clkReady (by decide) hrest (by rw [hflushed.prGpio]; exact hclock)
    obtain ⟨t, hrun, hidle, -⟩ := hv.ends (m := 16) rfl hnone hready
    exact ⟨t, hruns 17 t (runs_succ hstep hrun), hidle⟩

end Ends

end Sys2Proof.Machine
end

section
/-! PROOF. Schedules (spec/40_register_interface.md R124): an engine step does not depend on the turns scheduled, so
that turns of the engine and of the line environment, chosen one after the other, are one schedule. -/

namespace Sys2Proof.Machine

/-! ### A step under another schedule -/

/-- The state with the turns scheduled. -/
def State.withAgenda (s : State) (a : List Turn) : State := { s with agenda := a }

section Agenda

variable (s : State) (a : List Turn)

@[simp] theorem phaseIn_withAgenda (op : Op) : (s.withAgenda a).phaseIn op = s.phaseIn op := rfl

theorem readDr_withAgenda : (s.withAgenda a).readDr = (s.readDr.1, s.readDr.2.withAgenda a) := by
  unfold State.readDr State.withAgenda
  dsimp only
  split <;> rfl

theorem busRead_withAgenda (r : Reg) :
    (s.withAgenda a).busRead r = ((s.busRead r).1, (s.busRead r).2.withAgenda a) := by
  cases r with
  | dr => simp only [State.busRead, State.readReg, readDr_withAgenda]; rfl
  | _ => rfl

@[simp] theorem recvRead_withAgenda : (s.withAgenda a).recvRead = s.recvRead.withAgenda a := by
  simp only [State.recvRead, busRead_withAgenda]
  rfl

theorem busWrite_withAgenda (r : Reg) (x : Word) :
    (s.withAgenda a).busWrite r x = (s.busWrite r x).withAgenda a := by
  by_cases hdr : r = .dr
  · subst hdr
    by_cases hroom : s.per.txq.length < s.depth
    · rw [busWrite_dr hroom, busWrite_dr (s := s.withAgenda a) hroom]
      rfl
    · rw [busWrite_dr_full hroom, busWrite_dr_full (s := s.withAgenda a) hroom]
      rfl
  · cases hre : s.per.reconfigures r x with
    | false =>
      rw [busWrite_store hdr hre, busWrite_store (s := s.withAgenda a) hdr hre]
      rfl
    | true =>
      rw [busWrite_reconfigure hdr hre, busWrite_reconfigure (s := s.withAgenda a) hdr hre]
      rfl

@[simp] theorem sendWrite_withAgenda : (s.withAgenda a).sendWrite = s.sendWrite.withAgenda a :=
  busWrite_withAgenda s a _ _

@[simp] theorem applyDecode_withAgenda (op : Op) (act : DecodeAct) :
    (s.withAgenda a).applyDecode op act = (s.applyDecode op act).withAgenda a := by
  cases act <;> rfl

@[simp] theorem applyLine_withAgenda (act : LineAct) :
    (s.withAgenda a).applyLine act = (s.applyLine act).withAgenda a := by
  cases act <;> rfl

theorem decoderStep_withAgenda (op : Op) (base : Word) (digit : Byte → Option Word) :
    (s.withAgenda a).decoderStep op base digit = (s.decoderStep op base digit).withAgenda a := by
  simp only [State.decoderStep, phaseIn_withAgenda]
  cases s.phaseIn op with
  | rxRead => simp only [recvRead_withAgenda, applyDecode_withAgenda]; rfl
  | txWrite => simp only [sendWrite_withAgenda]; rfl
  | _ => rfl

theorem encoderStep_withAgenda (op : Op) (base : Word) (char : Nibble → Byte) (n : Word) :
    (s.withAgenda a).encoderStep op base char n = (s.encoderStep op base char n).withAgenda a := by
  simp only [State.encoderStep, phaseIn_withAgenda]
  cases s.phaseIn op with
  | txWrite =>
    simp only [sendWrite_withAgenda]
    by_cases h0 : s.sendWrite.dp.dcnt = 0#4
    · rw [if_pos h0, if_pos (show (s.sendWrite.withAgenda a).dp.dcnt = 0#4 from h0)]
      rfl
    · rw [if_neg h0, if_neg (show (s.sendWrite.withAgenda a).dp.dcnt ≠ 0#4 from h0)]
      rfl
  | _ => rfl

theorem readStringByte_withAgenda : (s.withAgenda a).readStringByte = s.readStringByte.withAgenda a := by
  rcases readStringByte_cases s with ⟨hadm, h⟩ | ⟨hadm, hb, h⟩ | ⟨hadm, hb, h⟩ <;> rw [h]
  · exact readStringByte_refused (s := s.withAgenda a) hadm
  · exact readStringByte_terminator (s := s.withAgenda a) hadm hb
  · exact readStringByte_char (s := s.withAgenda a) hadm hb

theorem storeLineChar_withAgenda : (s.withAgenda a).storeLineChar = s.storeLineChar.withAgenda a := by
  rcases storeLineChar_cases s with ⟨hadm, h⟩ | ⟨hadm, h⟩ <;>
    rcases storeLineChar_cases (s.withAgenda a) with ⟨hadm', h'⟩ | ⟨hadm', h'⟩ <;> rw [h, h']
  · rfl
  · exact nomatch hadm.symm.trans hadm'
  · exact nomatch hadm.symm.trans hadm'
  · rfl

theorem terminateLine_withAgenda : (s.withAgenda a).terminateLine = s.terminateLine.withAgenda a := by
  rcases terminateLine_cases s with ⟨hadm, h⟩ | ⟨hadm, h⟩ <;>
    rcases terminateLine_cases (s.withAgenda a) with ⟨hadm', h'⟩ | ⟨hadm', h'⟩ <;> rw [h, h']
  · rfl
  · exact nomatch hadm.symm.trans hadm'
  · exact nomatch hadm.symm.trans hadm'
  · rfl

theorem initRead_withAgenda (r : Reg) (next : InitPos) :
    (s.withAgenda a).initRead r next = (s.initRead r next).withAgenda a := by
  simp only [State.initRead, busRead_withAgenda]
  rfl

theorem initWrite_withAgenda (r : Reg) (x : Word) (next : InitPos) :
    (s.withAgenda a).initWrite r x next = (s.initWrite r x next).withAgenda a := by
  simp only [State.initWrite, busWrite_withAgenda]
  rfl

theorem initStep_withAgenda (p : InitPos) : (s.withAgenda a).initStep p = (s.initStep p).withAgenda a := by
  cases p with
  | pollPr => rfl
  | wrAmsel =>
    exact congrArg (fun u : State => ({ u with mode := .ready } : State).complete .init none)
      (busWrite_withAgenda s a .amsel (s.dp.v &&& ~~~s.cfg.pins))
  | rdRcgcGpio | rdCtlOff | rdCtlOn | rdAfsel | rdDen | rdPctl | rdAmsel => exact initRead_withAgenda s a _ _
  | _ => exact initWrite_withAgenda s a _ _ _

/-- An engine step does not depend on the turns scheduled, and leaves them alone. -/
theorem exec_withAgenda (i : Instr) {t : State} (h : exec i s = .next t) :
    exec i (s.withAgenda a) = .next (t.withAgenda a) := by
  cases i with
  | init =>
    simp only [exec, execInit, phaseIn_withAgenda] at h ⊢
    split at h <;> obtain rfl := Host.Outcome.next.inj h
    · exact congrArg _ (initStep_withAgenda s a _)
    · exact congrArg _ (initRead_withAgenda s a _ _)
  | rxchar =>
    simp only [exec, execRxchar, phaseIn_withAgenda, recvRead_withAgenda] at h ⊢
    split at h <;> obtain rfl := Host.Outcome.next.inj h <;> rfl
  | txchar c =>
    simp only [exec, execTxchar, phaseIn_withAgenda, sendWrite_withAgenda] at h ⊢
    split at h <;> obtain rfl := Host.Outcome.next.inj h <;> rfl
  | txstr w =>
    simp only [exec, execTxstr, phaseIn_withAgenda, sendWrite_withAgenda, readStringByte_withAgenda] at h ⊢
    split at h <;> obtain rfl := Host.Outcome.next.inj h
    · rfl
    · rfl
    · rfl
    · exact congrArg _ (readStringByte_withAgenda { s with dp := { s.dp with ptr := w } } a)
  | decdec =>
    obtain rfl := Host.Outcome.next.inj h
    exact congrArg _ (decoderStep_withAgenda s a _ _ _)
  | encdec n =>
    obtain rfl := Host.Outcome.next.inj h
    exact congrArg _ (encoderStep_withAgenda s a _ _ _ n)
  | dechex =>
    obtain rfl := Host.Outcome.next.inj h
    exact congrArg _ (decoderStep_withAgenda s a _ _ _)
  | enchex n =>
    obtain rfl := Host.Outcome.next.inj h
    exact congrArg _ (encoderStep_withAgenda s a _ _ _ n)
  | rdline w max =>
    simp only [exec, execRdline, phaseIn_withAgenda, sendWrite_withAgenda, recvRead_withAgenda, applyLine_withAgenda,
      storeLineChar_withAgenda, terminateLine_withAgenda] at h ⊢
    split at h <;> obtain rfl := Host.Outcome.next.inj h <;> rfl

theorem lineStep_withAgenda (e : LineStep) : (s.withAgenda a).lineStep e = (s.lineStep e).withAgenda a := by
  by_cases hen : s.enabled e = true
  · rw [lineStep_of_enabled hen, lineStep_of_enabled (s := s.withAgenda a) hen]
    cases e with
    | txDrain =>
      obtain ⟨-, hne⟩ := enabled_txDrain.1 hen
      obtain ⟨b, rest, hq⟩ := List.exists_cons_of_ne_nil hne
      have hq' : (s.withAgenda a).per.txq = b :: rest := hq
      rw [State.lineEffect, State.lineEffect, hq, hq']
      rfl
    | _ => rfl
  · rw [lineStep_of_disabled hen, lineStep_of_disabled (s := s.withAgenda a) hen]

end Agenda

/-! ### Turns, one after the other -/

/-- Turns of the engine with a command in hand and of the line environment lead from one state to the other,
whatever is scheduled. -/
inductive State.Leads : State → State → Prop
  | refl (s : State) : s.Leads s
  | engine {s t u : State} {i : Instr} (hcur : s.current = some i) (hexec : exec i s = .next t) (h : t.Leads u) :
      s.Leads u
  | line {s u : State} (e : LineStep) (h : (s.lineStep e).Leads u) : s.Leads u

section Leads

variable {s t u : State} {i : Instr}

theorem State.Leads.trans (h : s.Leads t) (h' : t.Leads u) : s.Leads u := by
  induction h with
  | refl => exact h'
  | engine hcur hexec _ ih => exact .engine hcur hexec (ih h')
  | line e _ ih => exact .line e (ih h')

theorem exec_cfg (h : exec i s = .next t) : t.cfg = s.cfg := by
  rcases exec_cases h with hf | ⟨r, a, rfl⟩ | ⟨-, -, rfl⟩ | ⟨a, max, -, hf⟩
  · exact hf.cfg
  · rfl
  · exact busWrite_cfg _ _ _
  · exact hf.cfg

/-- Turns that lead from one state to another are a schedule without an issue, which leaves what is scheduled after
them (R124). -/
theorem State.Leads.schedule (h : s.Leads t) (hok : s.cfg.ok = true) :
    ∃ turns : List Turn, (∀ x ∈ turns, x.isIssue = false) ∧
      ∀ rest, runs turns.length (s.withAgenda (turns ++ rest)) (t.withAgenda rest) := by
  induction h with
  | refl s => exact ⟨[], nofun, fun rest => rfl⟩
  | @engine s t u i hcur hexec _ ih =>
    obtain ⟨turns, hissue, hruns⟩ := ih (exec_cfg hexec ▸ hok)
    refine ⟨.engine :: turns, List.forall_mem_cons.2 ⟨rfl, hissue⟩, fun rest => runs_succ ?_ (hruns rest)⟩
    rw [step_of_current (s := s.withAgenda (.engine :: turns ++ rest)) hok rfl hcur]
    exact exec_withAgenda s _ i hexec
  | @line s u e _ ih =>
    obtain ⟨turns, hissue, hruns⟩ := ih ((lineStep_frame e s).cfg.symm ▸ hok)
    refine ⟨.line e :: turns, List.forall_mem_cons.2 ⟨rfl, hissue⟩, fun rest => runs_succ ?_ (hruns rest)⟩
    rw [step_of_line (s := s.withAgenda (.line e :: turns ++ rest)) hok rfl]
    exact congrArg _ (lineStep_withAgenda s _ e)

/-- The invariants hold wherever such turns lead (R110, R111, R133). -/
theorem State.Leads.keeps (h : s.Leads t) (hok : s.cfg.ok = true) (hinv : s.Inv) (hconf : s.Configured) :
    t.Inv ∧ t.Configured := by
  induction h with
  | refl => exact ⟨hinv, hconf⟩
  | @engine s t u i hcur hexec _ ih =>
    obtain ⟨-, ⟨op, ph, hseq⟩, hdecode⟩ := current_eq_some.1 hcur
    obtain ⟨j, hj, rfl⟩ := hinv.command op ph hseq
    obtain rfl := Except.ok.inj (hj.symm.trans hdecode)
    exact ih (exec_cfg hexec ▸ hok) (exec_keeps_inv hinv hcur hexec) (exec_configured hconf hok hseq hexec)
  | @line s u e _ ih =>
    exact ih ((lineStep_frame e s).cfg.symm ▸ hok) (lineStep_keeps_inv e hinv) (lineStep_configured e hconf)

end Leads

/-! ### The polls, with the line environment's help (R108, R109, R120, R121) -/

/-- The command is in the engine's hand, in an admitted configuration and with the UART enabled. -/
structure State.Engaged (s : State) (i : Instr) : Prop where
  ok : s.cfg.ok = true
  fault : s.fault = none
  command : decode s.cmd = .ok i
  uarten : s.per.uarten = true

/-- Since `s` the engine has only polled and the line environment moved. -/
structure State.Waited (s t : State) : Prop where
  frame : s.Frame t
  dp : t.dp = s.dp
  sent : t.sent = s.sent
  uarten : t.per.uarten = s.per.uarten

section Polls

variable {s t u : State} {i : Instr}

theorem State.Waited.trans (h : s.Waited t) (h' : t.Waited u) : s.Waited u :=
  ⟨h.frame.trans h'.frame, h'.dp.trans h.dp, h'.sent.trans h.sent, h'.uarten.trans h.uarten⟩

theorem State.Engaged.frame (h : s.Engaged i) (hf : s.Frame t) (huarten : t.per.uarten = s.per.uarten) :
    t.Engaged i :=
  ⟨hf.cfg.symm ▸ h.ok, hf.fault.trans h.fault, hf.cmd.symm ▸ h.command, huarten.trans h.uarten⟩

theorem State.Engaged.current (h : s.Engaged i) {op : Op} {ph : Phase} (hseq : s.seq = .run op ph) :
    s.current = some i := current_eq_some.2 ⟨h.fault, ⟨op, ph, hseq⟩, h.command⟩

theorem lineStep_waited (e : LineStep) (s : State) : s.Waited (s.lineStep e) := by
  refine ⟨lineStep_frame e s, lineStep_dp e s, lineStep_sent e s, ?_⟩
  rcases lineStep_cases e s with h | ⟨b, -, -, -, h⟩ | ⟨b, rest, -, -, -, h⟩ | ⟨-, -, h⟩ <;> rw [h] <;> rfl

theorem recvPoll_waited (op : Op) (s : State) : s.Waited (s.recvPoll op) :=
  ⟨(State.Frame.refl s).recvPoll op, rfl, (busRead_fr_sameLine s).sent, rfl⟩

theorem sendPoll_waited (op : Op) (s : State) : s.Waited (s.sendPoll op) :=
  ⟨sendPoll_frame op s, rfl, sendPoll_sent op s, rfl⟩

/-- At SEND's poll a drain of TXQ, if it is full, lets the engine go on to the DR write (R109, R121). -/
theorem leads_txWrite (h : s.Engaged i) (hop : i.op.sends = true) (hseq : s.seq = .run i.op .txPoll) :
    ∃ t, s.Leads t ∧ t.seq = .run i.op .txWrite ∧ s.Waited t ∧ t.per.rxq = s.per.rxq := by
  have polls {u : State} (hu : u.Engaged i) (hat : u.seq = .run i.op .txPoll)
      (hroom : u.per.txq.length ≠ u.depth) : u.Leads (u.sendPoll i.op) ∧ (u.sendPoll i.op).seq = .run i.op .txWrite := by
    refine ⟨.engine (hu.current hat) (exec_txPoll hop hat) (.refl _), ?_⟩
    rw [sendPoll_state, if_neg hroom]
  by_cases hfull : s.per.txq.length = s.depth
  · have hpos := depth_pos s
    obtain ⟨b, rest, hq⟩ := List.exists_cons_of_length_pos (hfull ▸ hpos)
    have hwaited := lineStep_waited .txDrain s
    have hdrain := lineStep_txDrain h.uarten hq
    have hroom : (s.lineStep .txDrain).per.txq.length ≠ (s.lineStep .txDrain).depth := by
      rw [hdrain]
      show rest.length ≠ s.depth
      rw [← hfull, hq, List.length_cons]
      omega
    obtain ⟨hleads, hwrite⟩ := polls (h.frame hwaited.frame hwaited.uarten) ((lineStep_seq _ s).trans hseq) hroom
    exact ⟨_, .line .txDrain hleads, hwrite, hwaited.trans (sendPoll_waited _ _), by rw [hdrain]; rfl⟩
  · obtain ⟨hleads, hwrite⟩ := polls h hseq hfull
    exact ⟨_, hleads, hwrite, sendPoll_waited _ s, rfl⟩

/-- At RECV's poll the arrival of a CR, if RXQ is empty, lets the engine go on to the DR read (R108, R120). -/
theorem leads_rxRead (h : s.Engaged i) (hop : i.op.receives = true) (hseq : s.seq = .run i.op .rxPoll) :
    ∃ t, s.Leads t ∧ t.seq = .run i.op .rxRead ∧ s.Waited t ∧
      t.per.rxq = if s.per.rxq = [] then [charCR] else s.per.rxq := by
  have polls {u : State} (hu : u.Engaged i) (hat : u.seq = .run i.op .rxPoll) (hne : u.per.rxq ≠ []) :
      u.Leads (u.recvPoll i.op) ∧ (u.recvPoll i.op).seq = .run i.op .rxRead := by
    refine ⟨.engine (hu.current hat) (exec_rxPoll hop hat) (.refl _), ?_⟩
    rw [recvPoll_state, if_neg hne]
  by_cases hempty : s.per.rxq = []
  · have hroom : s.per.rxq.length < s.depth := by
      rw [hempty]
      exact depth_pos s
    have hwaited := lineStep_waited (.rxArrive charCR) s
    have harrived := lineStep_rxArrive charCR h.uarten hroom
    have hrxq : (s.lineStep (.rxArrive charCR)).per.rxq = [charCR] := by
      rw [harrived, hempty]
      rfl
    obtain ⟨hleads, hread⟩ := polls (h.frame hwaited.frame hwaited.uarten) ((lineStep_seq _ s).trans hseq)
      (by rw [hrxq]; exact List.cons_ne_nil _ _)
    exact ⟨_, .line _ hleads, hread, hwaited.trans (recvPoll_waited _ _), by rw [if_pos hempty]; exact hrxq⟩
  · obtain ⟨hleads, hread⟩ := polls h hseq hempty
    exact ⟨_, hleads, hread, recvPoll_waited _ s, by rw [if_neg hempty]; rfl⟩

end Polls

end Sys2Proof.Machine
end

section
/-! PROOF. The endless TXSTR (spec/41_uart_driver.md R140, spec/70_reset_and_hazards.md R246, R249): it never
completes, and with the line environment's help it never stands still. -/

namespace Sys2Proof.Machine

/-! ### One step of a TXSTR, wherever SEQ stands -/

section Step

variable {s t u : State} {a : Word}

/-- A TXSTR polls or writes where it sends, and reads the next byte everywhere else (R140). -/
theorem exec_txstr_cases (a : Word) (s : State) :
    (s.seq = .run .txstr .txPoll ∧ exec (.txstr a) s = .next (s.sendPoll .txstr)) ∨
    (s.seq = .run .txstr .txWrite ∧ exec (.txstr a) s = .next (s.sendWrite.advancePtr.goto .txstr .strRead)) ∨
    ∃ r, exec (.txstr a) s = .next ({ s with dp := r } : State).readStringByte := by
  simp only [exec, execTxstr]
  split
  next => exact .inr (.inr ⟨s.dp, rfl⟩)
  next hph => exact .inl ⟨seq_of_phaseIn s hph nofun, rfl⟩
  next hph => exact .inr (.inl ⟨seq_of_phaseIn s hph nofun, rfl⟩)
  next => exact .inr (.inr ⟨_, rfl⟩)

/-- Every address is admitted, and no byte of memory is the terminator (R249). -/
def State.noTerminator (s : State) : Prop :=
  (∀ x : Word, s.cfg.admits x = true) ∧ ∀ x : Word, s.byteAt x ≠ 0x00#8

theorem State.noTerminator.congr (h : s.noTerminator) (hmem : t.mem = s.mem) (hcfg : t.cfg = s.cfg) : t.noTerminator := by
  rw [State.noTerminator, hcfg]
  refine ⟨h.1, fun x => ?_⟩
  rw [State.byteAt, hmem]
  exact h.2 x

/-- Without a terminator the byte read is sent next (R140). -/
theorem readStringByte_noTerminator (h : s.noTerminator) (r : Datapath) :
    ({ s with dp := r } : State).readStringByte =
      (((({ s with dp := r } : State).record (.memRd r.ptr (s.byteAt r.ptr))).setCh (s.byteAt r.ptr)).goto .txstr
        .txPoll) :=
  readStringByte_char (s := { s with dp := r }) (h.1 r.ptr) (h.2 r.ptr)

/-- A step of a TXSTR without a terminator leaves it running, with nothing posted and no fault (R249). -/
theorem exec_txstr_runs_on (h : s.noTerminator) (hexec : exec (.txstr a) s = .next t) :
    s.Frame t ∧ t.seq ≠ .idle ∧ t.completions = s.completions := by
  rcases exec_txstr_cases a s with ⟨-, hstep⟩ | ⟨-, hstep⟩ | ⟨r, hstep⟩ <;>
    obtain rfl := Host.Outcome.next.inj (hstep.symm.trans hexec)
  · exact ⟨sendPoll_frame _ s, nofun, (busRead_quiet .fr s).completions⟩
  · exact ⟨((sendWrite_frame s).withDp _).goto _ _, nofun, (sendWrite_quiet s).completions⟩
  · rw [readStringByte_noTerminator h]
    refine ⟨⟨rfl, rfl, rfl, rfl, rfl, rfl⟩, nofun, ?_⟩
    exact (completions_of_trace_cons (s := s) rfl).trans (List.append_nil _)

end Step

/-! ### Whatever the schedule -/

/-- A TXSTR of `a` without a terminator that began at `s` runs on, unless an issue has halted it (R90, R249). -/
structure TxstrRunsOn (s : State) (a : Word) (t : State) : Prop where
  mem : t.mem = s.mem
  cfg : t.cfg = s.cfg
  command : decode t.cmd = .ok (.txstr a)
  busy : t.seq ≠ .idle
  completions : t.completions = s.completions
  admitted : ∀ x, t.fault ≠ some (.memRefused x)
  unissued : s.unissued → t.unissued

section Schedule

variable {s t u : State} {a : Word}

theorem TxstrRunsOn.frame (h : TxstrRunsOn s a t) (hf : t.Frame u) (hbusy : u.seq ≠ .idle)
    (hdone : u.completions = t.completions) : TxstrRunsOn s a u where
  mem := hf.mem.trans h.mem
  cfg := hf.cfg.trans h.cfg
  command := hf.cmd.symm ▸ h.command
  busy := hbusy
  completions := hdone.trans h.completions
  admitted := hf.fault.symm ▸ h.admitted
  unissued hs := hf.unissued (h.unissued hs)

theorem TxstrRunsOn.takeTurn (h : TxstrRunsOn s a t) : TxstrRunsOn s a t.takeTurn :=
  ⟨h.mem, h.cfg, h.command, h.busy, h.completions, h.admitted, fun hs => (h.unissued hs).takeTurn⟩

/-- Where the host issues nothing, no turn is the host's. -/
theorem turn_ne_host (h : s.unissued) (w : Command) : s.turn ≠ .host w := by
  obtain ⟨-, -, hagenda⟩ := h
  intro hturn
  cases ha : s.agenda with
  | nil => exact nomatch (turn_nil ha).symm.trans hturn
  | cons x rest =>
    have hx := hagenda x (by simp [ha])
    rw [← turn_cons ha, hturn] at hx
    cases hx

/-- An issue meets a busy engine: it raises CommandWhileBusy, or is ignored by a halted engine (R90). -/
theorem TxstrRunsOn.issue {w : Command} (h : TxstrRunsOn s a t) (hissue : ¬ s.unissued) :
    TxstrRunsOn s a (t.issue w) := by
  obtain ⟨-, -, -, hmem, hcfg⟩ := issue_frame w t
  have hseq := issue_seq_of_busy w h.busy
  have running (hcmd : (t.issue w).cmd = t.cmd) (hadmitted : ∀ x, (t.issue w).fault ≠ some (.memRefused x)) :
      TxstrRunsOn s a (t.issue w) :=
    ⟨hmem.trans h.mem, hcfg.trans h.cfg, hcmd.symm ▸ h.command, hseq.symm ▸ h.busy,
      (issue_completions w t).trans h.completions, hadmitted, fun hs => absurd hs hissue⟩
  by_cases hfault : t.fault = none
  · have hw := issue_of_busy (w := w) hfault h.busy
    exact running (by rw [hw]; rfl) (by rw [hw]; exact fun x => nofun)
  · have hw := issue_of_halted w hfault
    exact running (by rw [hw]; rfl) (by rw [hw]; exact h.admitted)

theorem TxstrRunsOn.step (hs : s.noTerminator) (h : TxstrRunsOn s a t) (hstep : step t = .next u) :
    TxstrRunsOn s a u := by
  have htaken := h.takeTurn
  obtain ⟨-, ⟨-, i, hcur, hexec⟩ | ⟨-, -, rfl⟩ | ⟨e, -, rfl⟩ | ⟨w, hturn, rfl⟩⟩ := step_next_cases hstep
  · obtain ⟨-, -, hdecode⟩ := current_eq_some.1 hcur
    obtain rfl := Except.ok.inj (hdecode.symm.trans h.command)
    obtain ⟨hf, hbusy, hdone⟩ := exec_txstr_runs_on (hs.congr htaken.mem htaken.cfg) hexec
    exact htaken.frame hf hbusy hdone
  · exact htaken
  · have hunmoved := lineStep_unmoved e t.takeTurn
    exact htaken.frame (lineStep_frame e _) (hunmoved.seq.symm ▸ htaken.busy) hunmoved.completions
  · exact htaken.issue fun hs => turn_ne_host (h.unissued hs) w hturn

end Schedule

/-! ### Character after character -/

section Sends

variable {s : State} {a : Word}

/-- A TXSTR with a character in CH sends it and comes to the read of the next byte (R109, R140). -/
theorem txstr_leads_char (h : s.Engaged (.txstr a))
    (hseq : s.seq = .run .txstr .txPoll ∨ s.seq = .run .txstr .txWrite) :
    ∃ t, s.Leads t ∧ t.seq = .run .txstr .strRead ∧ s.Frame t ∧ t.per.uarten = s.per.uarten ∧
      t.dp.ptr = s.dp.ptr + 1#32 ∧ t.sent = s.sent ++ [s.dp.ch] := by
  have writes {u : State} (hu : u.Engaged (.txstr a)) (hat : u.seq = .run .txstr .txWrite) (hw : s.Waited u) :
      u.Leads (u.sendWrite.advancePtr.goto .txstr .strRead) ∧
      s.Frame (u.sendWrite.advancePtr.goto .txstr .strRead) ∧
      (u.sendWrite.advancePtr.goto .txstr .strRead).per.uarten = s.per.uarten ∧
      (u.sendWrite.advancePtr.goto .txstr .strRead).dp.ptr = s.dp.ptr + 1#32 ∧
      (u.sendWrite.advancePtr.goto .txstr .strRead).sent = s.sent ++ [s.dp.ch] := by
    refine ⟨.engine (hu.current hat) (exec_txstr_txWrite hat) (.refl _),
      hw.frame.trans (((sendWrite_frame u).withDp _).goto _ _), ?_, ?_, ?_⟩
    · rw [← hw.uarten]
      show u.sendWrite.per.uarten = u.per.uarten
      rcases sendWrite_per u with ⟨-, hper⟩ | ⟨-, hper⟩
      · rw [hper]; rfl
      · rw [hper]
    · simp [State.advancePtr, hw.dp]
    · rw [← hw.sent, ← hw.dp]
      exact sendWrite_sent u
  rcases hseq with hpoll | hwrite
  · obtain ⟨u, hleads, hat, hw, -⟩ := leads_txWrite h rfl hpoll
    obtain ⟨hleads', hrest⟩ := writes (h.frame hw.frame hw.uarten) hat hw
    exact ⟨_, hleads.trans hleads', rfl, hrest⟩
  · obtain ⟨hleads, hrest⟩ := writes h hwrite ⟨.refl s, rfl, rfl, rfl⟩
    exact ⟨_, hleads, rfl, hrest⟩

/-- Wherever a TXSTR without a terminator stands, it can be led to send one more character (R249). -/
theorem noTerminator_leads_char (h : s.Engaged (.txstr a)) (hs : s.noTerminator) (hbusy : s.seq ≠ .idle) :
    ∃ t, s.Leads t ∧ t.Engaged (.txstr a) ∧ t.noTerminator ∧ t.seq ≠ .idle ∧ t.sent.length = s.sent.length + 1 := by
  obtain ⟨op, ph, hseq⟩ : ∃ op ph, s.seq = .run op ph := by
    cases hs : s.seq with
    | idle => exact absurd hs hbusy
    | run op ph => exact ⟨op, ph, rfl⟩
  have sends {u : State} (hleads : s.Leads u) (hf : s.Frame u) (huarten : u.per.uarten = s.per.uarten)
      (hsent : u.sent = s.sent) (hat : u.seq = .run .txstr .txPoll ∨ u.seq = .run .txstr .txWrite) :
      ∃ t, s.Leads t ∧ t.Engaged (.txstr a) ∧ t.noTerminator ∧ t.seq ≠ .idle ∧
        t.sent.length = s.sent.length + 1 := by
    obtain ⟨t, hleads', hread, hf', huarten', -, hsent'⟩ := txstr_leads_char (h.frame hf huarten) hat
    refine ⟨t, hleads.trans hleads', (h.frame hf huarten).frame hf' huarten', ?_, by simp [hread], ?_⟩
    · exact hs.congr (hf.trans hf').mem (hf.trans hf').cfg
    · rw [hsent', hsent, List.length_append, List.length_singleton]
  rcases exec_txstr_cases a s with ⟨hpoll, -⟩ | ⟨hwrite, -⟩ | ⟨r, hstep⟩
  · exact sends (.refl s) (.refl s) rfl rfl (.inl hpoll)
  · exact sends (.refl s) (.refl s) rfl rfl (.inr hwrite)
  · rw [readStringByte_noTerminator hs] at hstep
    exact sends (.engine (h.current hseq) hstep (.refl _)) ⟨rfl, rfl, rfl, rfl, rfl, rfl⟩ rfl
      (sent_of_silent (s := s) rfl rfl rfl) (.inl rfl)

theorem noTerminator_leads_chars (m : Nat) (h : s.Engaged (.txstr a)) (hs : s.noTerminator) (hbusy : s.seq ≠ .idle) :
    ∃ t, s.Leads t ∧ t.sent.length = s.sent.length + m := by
  induction m generalizing s with
  | zero => exact ⟨s, .refl s, rfl⟩
  | succ m ih =>
    obtain ⟨u, hleads, hu, hterm, hrunning, hsent⟩ := noTerminator_leads_char h hs hbusy
    obtain ⟨t, hleads', hsent'⟩ := ih hu hterm hrunning
    exact ⟨t, hleads.trans hleads', by omega⟩

end Sends

/-- Settles O59: along any schedule the TXSTR runs on, and turns that lead it to one more character can be given as
often as one likes. -/
theorem txstrWithoutATerminatorHangs : Obligations.TxstrWithoutATerminatorHangs := by
  rintro s hok ⟨⟨a, hcur⟩, hterm⟩
  obtain ⟨hfault, ⟨op, ph, hseq⟩, hcmd⟩ := current_eq_some.1 hcur
  have hbusy : s.seq ≠ .idle := by simp [hseq]
  refine ⟨fun k t hrun => ?hangs, fun huarten m => ?sends⟩
  case hangs =>
    have hstart : TxstrRunsOn s a s := ⟨rfl, rfl, hcmd, hbusy, rfl, by simp [hfault], id⟩
    have h : TxstrRunsOn s a t := runs_induction (fun _ _ => TxstrRunsOn.step hterm) hstart hrun
    refine ⟨h.busy, h.completions, h.admitted, fun hs => ?_⟩
    obtain ⟨-, hnone, -⟩ := h.unissued hs
    exact hnone
  case sends =>
    obtain ⟨t, hleads, hsent⟩ := noTerminator_leads_chars m ⟨hok, hfault, hcmd, huarten⟩ hterm hbusy
    obtain ⟨turns, hissue, hruns⟩ := hleads.schedule hok
    refine ⟨turns, hissue, t.withAgenda [], ?_, hsent.ge⟩
    have hrun := hruns []
    rwa [List.append_nil] at hrun

end Sys2Proof.Machine
end

section
/-! PROOF. Every command but an endless TXSTR can end (spec/40_register_interface.md R124,
spec/70_reset_and_hazards.md R246, R249): for each command, turns of the line environment among the engine's under
which it completes, or meets a refused address. -/

namespace Sys2Proof.Machine

/-! ### States from which the command can be led to its end -/

/-- Some turns without an issue lead to the command's completion, or to a refused address. -/
def State.CanEnd (s : State) : Prop := ∃ t, s.Leads t ∧ (t.seq = .idle ∨ ∃ a, t.fault = some (.memRefused a))

/-- The command runs, in a state that meets the invariants. -/
structure State.Serving (s : State) (i : Instr) : Prop where
  inv : s.Inv
  configured : s.Configured
  ok : s.cfg.ok = true
  fault : s.fault = none
  command : decode s.cmd = .ok i

section CanEnd

variable {s t : State} {i : Instr} {ph : Phase}

theorem State.CanEnd.of_idle (h : s.seq = .idle) : s.CanEnd := ⟨s, .refl s, .inl h⟩

theorem State.CanEnd.of_leads (hleads : s.Leads t) (h : t.CanEnd) : s.CanEnd := by
  obtain ⟨u, hu, hend⟩ := h
  exact ⟨u, hleads.trans hu, hend⟩

theorem State.Serving.of_leads (h : s.Serving i) (hleads : s.Leads t) (hfault : t.fault = none) (hcmd : t.cmd = s.cmd)
    (hcfg : t.cfg = s.cfg) : t.Serving i := by
  obtain ⟨hinv, hconf⟩ := hleads.keeps h.ok h.inv h.configured
  exact ⟨hinv, hconf, hcfg.symm ▸ h.ok, hfault, hcmd.symm ▸ h.command⟩

theorem State.Serving.of_frame (h : s.Serving i) (hleads : s.Leads t) (hf : s.Frame t) : t.Serving i :=
  h.of_leads hleads (hf.fault.trans h.fault) hf.cmd hf.cfg

theorem State.Serving.current (h : s.Serving i) (hseq : s.seq = .run i.op ph) : s.current = some i :=
  current_eq_some.2 ⟨h.fault, ⟨_, ph, hseq⟩, h.command⟩

/-- While another command than INIT runs, the UART is enabled (R123, R130, R133). -/
theorem State.Serving.engaged (h : s.Serving i) (hi : i.op ≠ .init) (hseq : s.seq = .run i.op ph) : s.Engaged i := by
  refine ⟨h.ok, h.fault, h.command, h.configured.enabled (.inl ⟨h.inv.ready _ ph hseq hi, ?_⟩)⟩
  rw [initPast_iff, hseq, initIndex_of_other hi]
  exact Nat.not_lt_zero _

/-- An engine step leaves the command running, from where it is to be led on, or meets a refused address. -/
theorem State.Serving.exec (h : s.Serving i) (hseq : s.seq = .run i.op ph) (hexec : Machine.exec i s = .next t)
    (hnext : t.Serving i → t.CanEnd) : s.CanEnd := by
  have hleads : s.Leads t := .engine (h.current hseq) hexec (.refl t)
  rcases exec_cases hexec with hf | ⟨r, a, rfl⟩ | ⟨-, -, rfl⟩ | ⟨a, max, -, hf⟩
  · exact .of_leads hleads (hnext (h.of_frame hleads hf))
  · exact ⟨_, hleads, .inr ⟨a, rfl⟩⟩
  · exact .of_leads hleads (.of_idle rfl)
  · have hfault : t.fault = s.fault := hf.fault
    exact .of_leads hleads (hnext (h.of_leads hleads (hfault.trans h.fault) hf.cmd hf.cfg))

/-- At SEND's poll the command can be led to the DR write (R109, R121). -/
theorem State.Serving.txPoll (h : s.Serving i) (hop : i.op.sends = true) (hseq : s.seq = .run i.op .txPoll)
    (hnext : ∀ t : State, t.Serving i → t.seq = .run i.op .txWrite → s.Waited t → t.per.rxq = s.per.rxq → t.CanEnd) :
    s.CanEnd := by
  have hi : i.op ≠ .init := fun hi => by rw [hi] at hop; cases hop
  obtain ⟨t, hleads, hat, hw, hrxq⟩ := leads_txWrite (h.engaged hi hseq) hop hseq
  exact .of_leads hleads (hnext t (h.of_frame hleads hw.frame) hat hw hrxq)

/-- At RECV's poll the command can be led to the DR read, of a CR if RXQ is empty (R108, R120). -/
theorem State.Serving.rxPoll (h : s.Serving i) (hop : i.op.receives = true) (hseq : s.seq = .run i.op .rxPoll)
    (hnext : ∀ t : State, t.Serving i → t.seq = .run i.op .rxRead →
      (t.per.rxq = if s.per.rxq = [] then [charCR] else s.per.rxq) → t.CanEnd) : s.CanEnd := by
  have hi : i.op ≠ .init := fun hi => by rw [hi] at hop; cases hop
  obtain ⟨t, hleads, hat, hw, hrxq⟩ := leads_rxRead (h.engaged hi hseq) hop hseq
  exact .of_leads hleads (hnext t (h.of_frame hleads hw.frame) hat hrxq)

/-- A step that ends in a receive poll leaves the command at the poll or at the DR read. -/
theorem recvPoll_seq (op : Op) (s : State) :
    (s.recvPoll op).seq = .run op .rxPoll ∨ (s.recvPoll op).seq = .run op .rxRead := by
  rw [recvPoll_state]
  split
  · exact .inl rfl
  · exact .inr rfl

end CanEnd

/-! ### RXCHAR, TXCHAR and the encoders -/

section Simple

variable {s : State} {i : Instr} {ph : Phase}

theorem rxchar_canEnd (h : s.Serving .rxchar) (hseq : s.seq = .run .rxchar ph) : s.CanEnd := by
  have reads {u : State} (hu : u.Serving .rxchar) (hat : u.seq = .run .rxchar .rxRead) : u.CanEnd :=
    hu.exec hat (by simp only [exec, execRxchar, phaseIn_run hat]; rfl) fun _ => .of_idle rfl
  have polls {u : State} (hu : u.Serving .rxchar) (hat : u.seq = .run .rxchar .rxPoll) : u.CanEnd :=
    hu.rxPoll rfl hat fun t ht hread _ => reads ht hread
  have hlegal := h.inv.legal _ ph hseq
  cases ph with
  | start =>
    exact h.exec hseq (exec_rxchar_start hseq) fun ht => (recvPoll_seq .rxchar s).elim (polls ht) (reads ht)
  | rxPoll => exact polls h hseq
  | rxRead => exact reads h hseq
  | _ => cases hlegal

theorem txchar_canEnd {c : Byte} (h : s.Serving (.txchar c)) (hseq : s.seq = .run .txchar ph) : s.CanEnd := by
  have writes {u : State} (hu : u.Serving (.txchar c)) (hat : u.seq = .run .txchar .txWrite) : u.CanEnd :=
    hu.exec hat (exec_txchar_txWrite hat) fun _ => .of_idle rfl
  have polls {u : State} (hu : u.Serving (.txchar c)) (hat : u.seq = .run .txchar .txPoll) : u.CanEnd :=
    hu.txPoll rfl hat fun t ht hwrite _ _ => writes ht hwrite
  have hlegal := h.inv.legal _ ph hseq
  cases ph with
  | start => exact h.exec hseq (exec_txchar_start hseq) fun ht => (sendPoll_seq .txchar _).elim (polls ht) (writes ht)
  | txPoll => exact polls h hseq
  | txWrite => exact writes h hseq
  | _ => cases hlegal

/-- An encoder sends the digits left in its buffer, one fewer after each (R165). -/
theorem encoder_canEnd_sending {n : Word} {base : Nat} {char : Nibble → Byte} (hi : Encoder i n base char) (left : Nat)
    (h : s.Serving i) (hleft : s.dp.dcnt.toNat = left)
    (hseq : s.seq = .run i.op .txPoll ∨ s.seq = .run i.op .txWrite) : s.CanEnd := by
  have hsends : i.op.sends = true := by cases hi <;> rfl
  induction left using Nat.strong_induction_on generalizing s with
  | _ left ih =>
    have writes {u : State} (hu : u.Serving i) (hat : u.seq = .run i.op .txWrite) (hdp : u.dp = s.dp) : u.CanEnd := by
      refine hu.exec hat ((hi.exec_eq u).trans (congrArg _ (encoderStep_txWrite hat))) fun ht => ?_
      split at ht
      next => exact .of_idle (by rw [if_pos ‹_›]; rfl)
      next hne =>
        rw [if_neg hne]
        have hpos : s.dp.dcnt.toNat ≠ 0 := fun h0 => hne (by
          rw [sendWrite_dp, hdp]
          exact BitVec.eq_of_toNat_eq h0)
        have hnext : (u.sendWrite.dp.popDigit char).dcnt.toNat = left - 1 := by
          rw [Datapath.popDigit_dcnt_toNat char hne, sendWrite_dp, hdp, hleft]
        exact ih (left - 1) (by omega) ht hnext (.inl rfl)
    rcases hseq with hpoll | hwrite
    · exact h.txPoll hsends hpoll fun t ht hat hw _ => writes ht hat hw.dp
    · exact writes h hwrite rfl

theorem encoder_canEnd {n : Word} {base : Nat} {char : Nibble → Byte} (hi : Encoder i n base char) (h : s.Serving i)
    (hseq : s.seq = .run i.op ph) : s.CanEnd := by
  have hlegal := h.inv.legal _ ph hseq
  cases ph with
  | start =>
    refine h.exec hseq ((hi.exec_eq s).trans (congrArg _ (encoderStep_start hseq))) fun ht => ?_
    exact encoder_canEnd_sending hi _ ht rfl (sendPoll_seq _ _)
  | txPoll => exact encoder_canEnd_sending hi _ h rfl (.inl hseq)
  | txWrite => exact encoder_canEnd_sending hi _ h rfl (.inr hseq)
  | _ => cases hi <;> cases hlegal

end Simple

/-! ### The decoders and RDLINE -/

section Receiving

variable {s : State} {i : Instr} {ph : Phase}

/-- After the echo the command is at its next poll, with RXQ as it was. -/
theorem echo_canEnd (hi : Echoes i) (h : s.Serving i)
    (hseq : s.seq = .run i.op .txPoll ∨ s.seq = .run i.op .txWrite)
    (hnext : ∀ t : State, t.Serving i → t.seq = .run i.op .rxPoll → t.per.rxq = s.per.rxq → t.CanEnd) : s.CanEnd := by
  have hsends : i.op.sends = true := by rcases hi with rfl | rfl | ⟨a, max, rfl⟩ <;> rfl
  have writes {u : State} (hu : u.Serving i) (hat : u.seq = .run i.op .txWrite) (hrxq : u.per.rxq = s.per.rxq) :
      u.CanEnd := by
    refine hu.exec hat (exec_echo hi hat) fun ht => hnext _ ht rfl ?_
    rw [← hrxq]
    show u.sendWrite.per.rxq = u.per.rxq
    rcases sendWrite_per u with ⟨-, hper⟩ | ⟨-, hper⟩ <;> rw [hper]
  rcases hseq with hpoll | hwrite
  · exact h.txPoll hsends hpoll fun t ht hat _ hrxq => writes ht hat hrxq
  · exact writes h hwrite rfl

/-- What an echoing command does with the head of RXQ can be led to its end if the character is CR, or if the
command can be led to its end from the next poll. -/
def ReadsOn (i : Instr) : Prop :=
  ∀ (s : State) (b : Byte) (rest : List Byte), s.Serving i → s.seq = .run i.op .rxRead → s.per.rxq = b :: rest →
    (b = charCR ∨ ∀ t : State, t.Serving i → t.seq = .run i.op .rxPoll → t.per.rxq = rest → t.CanEnd) → s.CanEnd

/-- The characters waiting are read one by one, and after them a CR that arrives (R162, R181, R201). -/
theorem rxPoll_canEnd (hreads : ReadsOn i) (hop : i.op.receives = true) (h : s.Serving i)
    (hseq : s.seq = .run i.op .rxPoll) : s.CanEnd := by
  induction hq : s.per.rxq generalizing s with
  | nil =>
    refine h.rxPoll hop hseq fun t ht hat hrxq => ?_
    rw [if_pos hq] at hrxq
    exact hreads t _ _ ht hat hrxq (.inl rfl)
  | cons b rest ih =>
    refine h.rxPoll hop hseq fun t ht hat hrxq => ?_
    rw [if_neg (by simp [hq]), hq] at hrxq
    exact hreads t _ _ ht hat hrxq (.inr fun u hu hpoll hrest => ih hu hpoll hrest)

theorem rxRead_canEnd (hreads : ReadsOn i) (hop : i.op.receives = true) (h : s.Serving i)
    (hseq : s.seq = .run i.op .rxRead) : s.CanEnd := by
  obtain ⟨b, rest, hq⟩ := List.exists_cons_of_ne_nil (h.inv.rxReady _ hseq)
  exact hreads s b rest h hseq hq (.inr fun t ht hpoll _ => rxPoll_canEnd hreads hop ht hpoll)

theorem decoder_readsOn {base : Word} {digit : Byte → Option Word} (hi : Echoes i)
    (hstep : ∀ s, exec i s = .next (s.decoderStep i.op base digit)) : ReadsOn i := by
  intro s b rest h hseq hq hnext
  have hch : s.recvRead.dp.ch = b := by rw [recvRead_cons hq]; rfl
  have hrxq : s.recvRead.per.rxq = rest := by rw [recvRead_per, hq]; rfl
  refine h.exec hseq ((hstep s).trans (congrArg _ (decoderStep_rxRead hseq))) fun ht => ?_
  rw [hch] at ht ⊢
  rcases decodeChar_cases base digit b s.recvRead.dp with ⟨-, hact⟩ | ⟨hne, d, -, hact⟩ | ⟨hne, -, -, -, hact⟩ |
    ⟨hne, -, -, hact⟩ <;> rw [hact] at ht ⊢
  · exact .of_idle rfl
  · exact echo_canEnd hi ht (.inl rfl) fun t ht' hat hkept =>
      hnext.resolve_left hne t ht' hat (hkept.trans hrxq)
  · exact echo_canEnd hi ht (.inl rfl) fun t ht' hat hkept =>
      hnext.resolve_left hne t ht' hat (hkept.trans hrxq)
  · exact hnext.resolve_left hne _ ht rfl hrxq

theorem decoder_canEnd {base : Word} {digit : Byte → Option Word} (hi : i = .decdec ∨ i = .dechex)
    (hstep : ∀ s, exec i s = .next (s.decoderStep i.op base digit)) (h : s.Serving i)
    (hseq : s.seq = .run i.op ph) : s.CanEnd := by
  have hechoes : Echoes i := hi.imp_right .inl
  have hop : i.op.receives = true := by rcases hi with rfl | rfl <;> rfl
  have hreads := decoder_readsOn hechoes hstep
  have hlegal := h.inv.legal _ ph hseq
  cases ph with
  | start =>
    exact h.exec hseq ((hstep s).trans (congrArg _ (decoderStep_start hseq))) fun ht =>
      (recvPoll_seq _ _).elim (rxPoll_canEnd hreads hop ht) (rxRead_canEnd hreads hop ht)
  | rxPoll => exact rxPoll_canEnd hreads hop h hseq
  | rxRead => exact rxRead_canEnd hreads hop h hseq
  | txPoll => exact echo_canEnd hechoes h (.inl hseq) fun t ht hat _ => rxPoll_canEnd hreads hop ht hat
  | txWrite => exact echo_canEnd hechoes h (.inr hseq) fun t ht hat _ => rxPoll_canEnd hreads hop ht hat
  | _ => rcases hi with rfl | rfl <;> cases hlegal

theorem exec_rdline_rxRead {a : Word} {max : Half} (hseq : s.seq = .run .rdline .rxRead) :
    exec (.rdline a max) s =
      .next (s.recvRead.applyLine (lineChar s.recvRead.dp.ch s.recvRead.dp.len s.recvRead.dp.maxl)) := by
  simp only [exec, execRdline, phaseIn_run hseq]

/-- RDLINE's terminator ends the command, or meets a refused address (R201). -/
theorem lineTerm_canEnd {a : Word} {max : Half} (h : s.Serving (.rdline a max)) (hseq : s.seq = .run .rdline .lineTerm) :
    s.CanEnd := by
  refine h.exec hseq (exec_rdline_lineTerm hseq) fun ht => ?_
  rcases terminateLine_cases s with ⟨-, hterm⟩ | ⟨-, hterm⟩
  · exact ⟨_, .refl _, .inr ⟨_, by rw [hterm]; rfl⟩⟩
  · exact .of_idle (by rw [hterm]; rfl)

/-- RDLINE's store leads to the echo, or meets a refused address (R201). -/
theorem lineStore_canEnd {a : Word} {max : Half} (h : s.Serving (.rdline a max))
    (hseq : s.seq = .run .rdline .lineStore)
    (hnext : ∀ t : State, t.Serving (.rdline a max) → t.seq = .run .rdline .rxPoll → t.per.rxq = s.per.rxq → t.CanEnd) :
    s.CanEnd := by
  refine h.exec hseq (exec_rdline_lineStore hseq) fun ht => ?_
  rcases storeLineChar_cases s with ⟨-, hstore⟩ | ⟨-, hstore⟩ <;> rw [hstore] at ht ⊢
  · exact ⟨_, .refl _, .inr ⟨_, rfl⟩⟩
  · exact echo_canEnd (.inr (.inr ⟨a, max, rfl⟩)) ht (.inl rfl) hnext

theorem rdline_readsOn (a : Word) (max : Half) : ReadsOn (.rdline a max) := by
  intro s b rest h hseq hq hnext
  have hch : s.recvRead.dp.ch = b := by rw [recvRead_cons hq]; rfl
  have hrxq : s.recvRead.per.rxq = rest := by rw [recvRead_per, hq]; rfl
  refine h.exec hseq (exec_rdline_rxRead hseq) fun ht => ?_
  rw [hch] at ht ⊢
  have polls (hne : b ≠ charCR) {u : State} (hkept : u.per.rxq = rest) (t : State) (ht' : t.Serving (.rdline a max))
      (hat : t.seq = .run .rdline .rxPoll) (h' : t.per.rxq = u.per.rxq) : t.CanEnd :=
    hnext.resolve_left hne t ht' hat (h'.trans hkept)
  rcases lineChar_cases b s.recvRead.dp.len s.recvRead.dp.maxl with ⟨-, hact⟩ | ⟨hb, -, hact⟩ | ⟨hb, -, hact⟩ |
    ⟨hne, -, -, hact⟩ | ⟨hne, -, -, hact⟩ <;> rw [hact] at ht ⊢
  · exact lineTerm_canEnd ht rfl
  · exact echo_canEnd (.inr (.inr ⟨a, max, rfl⟩)) ht (.inl rfl) (polls (by rw [hb]; decide) hrxq)
  · exact hnext.resolve_left (by rw [hb]; decide) _ ht rfl hrxq
  · exact lineStore_canEnd ht rfl (polls hne hrxq)
  · exact hnext.resolve_left hne _ ht rfl hrxq

theorem rdline_canEnd {a : Word} {max : Half} (h : s.Serving (.rdline a max)) (hseq : s.seq = .run .rdline ph) :
    s.CanEnd := by
  have hechoes : Echoes (.rdline a max) := .inr (.inr ⟨a, max, rfl⟩)
  have hreads := rdline_readsOn a max
  have polls (t : State) (ht : t.Serving (.rdline a max)) (hat : t.seq = .run .rdline .rxPoll) : t.CanEnd :=
    rxPoll_canEnd hreads rfl ht hat
  have hlegal := h.inv.legal _ ph hseq
  cases ph with
  | start =>
    exact h.exec hseq (exec_rdline_start hseq) fun ht =>
      (recvPoll_seq _ _).elim (polls _ ht) (rxRead_canEnd hreads rfl ht)
  | rxPoll => exact polls s h hseq
  | rxRead => exact rxRead_canEnd hreads rfl h hseq
  | txPoll => exact echo_canEnd hechoes h (.inl hseq) fun t ht hat _ => polls t ht hat
  | txWrite => exact echo_canEnd hechoes h (.inr hseq) fun t ht hat _ => polls t ht hat
  | lineStore => exact lineStore_canEnd h hseq fun t ht hat _ => polls t ht hat
  | lineTerm => exact lineTerm_canEnd h hseq
  | _ => cases hlegal

end Receiving

/-! ### TXSTR -/

section Txstr

variable {s t : State} {a x : Word} {ph : Phase}

/-- TXSTR comes to its end at the address: MEM_OK refuses it, or the terminator stands there (R66, R140). -/
def State.stopsAt (s : State) (x : Word) : Prop := s.cfg.admits x = false ∨ s.byteAt x = 0x00#8

theorem State.stopsAt.frame (h : s.stopsAt x) (hf : s.Frame t) : t.stopsAt x := by
  rw [State.stopsAt, State.byteAt, hf.cfg, hf.mem]
  exact h

/-- TXSTR's read of a byte ends the command, meets a refused address, or leads to the sending of the byte, which
does not stand where the command stops (R140). -/
theorem readStringByte_canEnd {r : Datapath} (h : s.Serving (.txstr a)) (hseq : s.seq = .run .txstr ph)
    (hexec : Machine.exec (.txstr a) s = .next ({ s with dp := r } : State).readStringByte) (hstop : s.stopsAt x)
    (hnext : r.ptr ≠ x → ∀ t : State, t.Serving (.txstr a) → t.seq = .run .txstr .txPoll → t.stopsAt x →
      t.dp.ptr = r.ptr → t.CanEnd) : s.CanEnd := by
  refine h.exec hseq hexec fun ht => ?_
  rcases readStringByte_cases { s with dp := r } with ⟨-, hread⟩ | ⟨-, -, hread⟩ | ⟨hadm, hb, hread⟩ <;>
    rw [hread] at ht ⊢
  · exact ⟨_, .refl _, .inr ⟨_, rfl⟩⟩
  · exact .of_idle rfl
  · refine hnext ?_ _ ht rfl hstop rfl
    rintro rfl
    rcases hstop with hrefused | hterm
    · exact nomatch hrefused.symm.trans hadm
    · exact hb hterm

/-- TXSTR's sending of a character leads to the read of the next byte (R109, R140). -/
theorem sendStringByte_canEnd (h : s.Serving (.txstr a))
    (hseq : s.seq = .run .txstr .txPoll ∨ s.seq = .run .txstr .txWrite) (hstop : s.stopsAt x)
    (hnext : ∀ t : State, t.Serving (.txstr a) → t.seq = .run .txstr .strRead → t.stopsAt x →
      t.dp.ptr = s.dp.ptr + 1#32 → t.CanEnd) : s.CanEnd := by
  have hengaged : s.Engaged (.txstr a) := hseq.elim (h.engaged nofun) (h.engaged nofun)
  obtain ⟨t, hleads, hat, hf, -, hptr, -⟩ := txstr_leads_char hengaged hseq
  exact .of_leads hleads (hnext t (h.of_frame hleads hf) hat (hstop.frame hf) hptr)

/-- PTR comes to every address, so TXSTR at the read of the next byte comes to one at which it stops (R68). -/
theorem strRead_canEnd (h : s.Serving (.txstr a)) (hseq : s.seq = .run .txstr .strRead) (hstop : s.stopsAt x) :
    s.CanEnd := by
  induction hn : (x - s.dp.ptr).toNat generalizing s with
  | zero =>
    have hptr : s.dp.ptr = x := by bv_omega
    exact readStringByte_canEnd h hseq (exec_txstr_strRead hseq) hstop fun hne => absurd hptr hne
  | succ n ih =>
    refine readStringByte_canEnd h hseq (exec_txstr_strRead hseq) hstop fun _ t ht hat hstop' hptr => ?_
    refine sendStringByte_canEnd ht (.inl hat) hstop' fun u hu hread hstop'' hptr' => ih hu hread hstop'' ?_
    bv_omega

/-- A TXSTR that is not endless has an address at which it stops, and comes to it (R140, R249). -/
theorem txstr_canEnd (h : s.Serving (.txstr a)) (hseq : s.seq = .run .txstr ph) (hend : ¬ s.endless) : s.CanEnd := by
  obtain ⟨x, hstop⟩ : ∃ x, s.stopsAt x := by
    by_contra hno
    refine hend ⟨⟨a, h.current hseq⟩, fun x => ?_, fun x hb => hno ⟨x, .inr hb⟩⟩
    exact Bool.of_not_eq_false fun hadm => hno ⟨x, .inl hadm⟩
  have reads (t : State) (ht : t.Serving (.txstr a)) (hat : t.seq = .run .txstr .strRead) (hstop' : t.stopsAt x) :
      t.CanEnd := strRead_canEnd ht hat hstop'
  have sends {t : State} (ht : t.Serving (.txstr a)) (hat : t.seq = .run .txstr .txPoll ∨ t.seq = .run .txstr .txWrite)
      (hstop' : t.stopsAt x) : t.CanEnd :=
    sendStringByte_canEnd ht hat hstop' fun u hu hread hu' _ => reads u hu hread hu'
  have hlegal := h.inv.legal _ ph hseq
  cases ph with
  | start =>
    exact readStringByte_canEnd h hseq (exec_txstr_start hseq) hstop fun _ t ht hat hstop' _ =>
      sends ht (.inl hat) hstop'
  | strRead => exact reads s h hseq hstop
  | txPoll => exact sends h (.inl hseq) hstop
  | txWrite => exact sends h (.inr hseq) hstop
  | _ => cases hlegal

end Txstr

/-! ### INIT -/

section Init

variable {s : State} {q : InitPos} {ph : Phase}

/-- At the poll the port's clock is gated on (R133). -/
theorem State.Serving.gpioGate (h : s.Serving .init) (hseq : s.seq = .run .init (.init .pollPr)) :
    s.per.rcgcGpio.getLsbD s.cfg.gpioClkBit.val = true := by
  have hgate := h.configured.gpioClock (.inr ⟨.pollPr, hseq, by decide⟩)
  have hbit := congrArg (fun w : Word => w.getLsbD s.cfg.gpioClkBit.val) hgate
  simpa [gpioClkMask_bit] using hbit

/-- INIT's poll passes once the port's clock is ready (R122, R133). -/
theorem pollPr_ready_canEnd (h : s.Serving .init) (hseq : s.seq = .run .init (.init .pollPr))
    (hready : s.per.prGpio.getLsbD s.cfg.gpioClkBit.val = true)
    (hnext : ∀ t : State, t.Serving .init → t.seq = .run .init (.init .rdCtlOff) → t.CanEnd) : s.CanEnd := by
  have hbit : s.per.prWord.getLsbD s.cfg.gpioClkBit.val = true := by
    rw [Periph.prWord, BitVec.getLsbD_and, hready, h.gpioGate hseq]
    rfl
  refine h.exec hseq ((exec_init_at hseq).trans (congrArg _ (initPoll_eq s))) fun ht => hnext _ ht ?_
  rw [if_pos hbit]
  rfl

/-- At INIT's poll the port's clock can be made ready, and the poll passed (R122, R133). -/
theorem pollPr_canEnd (h : s.Serving .init) (hseq : s.seq = .run .init (.init .pollPr))
    (hnext : ∀ t : State, t.Serving .init → t.seq = .run .init (.init .rdCtlOff) → t.CanEnd) : s.CanEnd := by
  cases hready : s.per.prGpio.getLsbD s.cfg.gpioClkBit.val with
  | true => exact pollPr_ready_canEnd h hseq hready hnext
  | false =>
    have hleads : s.Leads (s.lineStep .clkReady) := .line .clkReady (.refl _)
    refine .of_leads hleads (pollPr_ready_canEnd (h.of_frame hleads (lineStep_frame _ s))
      ((lineStep_seq _ s).trans hseq) ?_ hnext)
    rw [lineStep_clkReady (h.gpioGate hseq) hready]
    show (s.per.prGpio ||| s.cfg.gpioClkMask).getLsbD s.cfg.gpioClkBit.val = true
    rw [BitVec.getLsbD_or, gpioClkMask_bit, beq_self_eq_true, Bool.or_true]

/-- INIT makes its accesses in their order and completes with the last (R133). -/
theorem initPos_canEnd (left : Nat) (h : s.Serving .init) (hseq : s.seq = .run .init (.init q))
    (hleft : q.index + left = InitPos.wrAmsel.index) : s.CanEnd := by
  induction left generalizing s q with
  | zero =>
    obtain rfl : q = .wrAmsel := InitPos.index_injective hleft
    exact h.exec hseq (exec_init_at hseq) fun _ => .of_idle rfl
  | succ left ih =>
    have hlast : q ≠ .wrAmsel := by
      rintro rfl
      omega
    have hnext : q.next.index + left = InitPos.wrAmsel.index := by
      rw [InitPos.next_index hlast]
      omega
    rcases initStep_cases q s with ⟨r, -, -, -, hstep⟩ | ⟨r, x, -, -, hstep⟩ | rfl | rfl
    · exact h.exec hseq ((exec_init_at hseq).trans (congrArg _ hstep)) fun ht => ih ht rfl hnext
    · exact h.exec hseq ((exec_init_at hseq).trans (congrArg _ hstep)) fun ht => ih ht rfl hnext
    · exact pollPr_canEnd h hseq fun t ht hat => ih ht hat hnext
    · exact absurd rfl hlast

theorem init_canEnd (h : s.Serving .init) (hseq : s.seq = .run .init ph) : s.CanEnd := by
  have hlegal := h.inv.legal _ ph hseq
  cases ph with
  | start => exact h.exec hseq (exec_init_start hseq) fun ht => initPos_canEnd (q := .wrRcgcUart) 18 ht rfl rfl
  | init q =>
    obtain ⟨left, hleft⟩ := Nat.exists_eq_add_of_le q.index_le_last
    exact initPos_canEnd left h hseq hleft.symm
  | _ => cases hlegal

end Init

theorem State.Serving.canEnd {s : State} {i : Instr} {ph : Phase} (h : s.Serving i) (hseq : s.seq = .run i.op ph)
    (hend : ¬ s.endless) : s.CanEnd := by
  cases i with
  | init => exact init_canEnd h hseq
  | rxchar => exact rxchar_canEnd h hseq
  | txchar c => exact txchar_canEnd h hseq
  | txstr a => exact txstr_canEnd h hseq hend
  | decdec => exact decoder_canEnd (.inl rfl) (fun _ => rfl) h hseq
  | encdec n => exact encoder_canEnd (Encoder.decimal n) h hseq
  | dechex => exact decoder_canEnd (.inr rfl) (fun _ => rfl) h hseq
  | enchex n => exact encoder_canEnd (Encoder.hexadecimal n) h hseq
  | rdline a max => exact rdline_canEnd h hseq

/-- Settles O58: for each command its own turns lead to its end, and turns chosen one after the other are one
schedule. -/
theorem everyCommandButAnEndlessTxstrCanEnd : Obligations.EveryCommandButAnEndlessTxstrCanEnd := by
  intro s op ph hinv hconf hok hfault hseq hend
  obtain ⟨i, hi, rfl⟩ := hinv.command op ph hseq
  have hserving : s.Serving i := ⟨hinv, hconf, hok, hfault, hi⟩
  obtain ⟨t, hleads, hlast⟩ := hserving.canEnd hseq hend
  obtain ⟨turns, hissue, hruns⟩ := hleads.schedule hok
  refine ⟨turns, hissue, t.withAgenda [], ?_, hlast⟩
  have hrun := hruns []
  rwa [List.append_nil] at hrun

end Sys2Proof.Machine
end

section
/-! PROOF. The divisor of the baud rate (spec/41_uart_driver.md R132): its rounding, its two parts, and the
registers that hold them. -/

namespace Sys2Proof

section Divisor

variable {p : Params}

/-- A configuration is admitted only with a baud rate of at least 1 (R132). -/
theorem Params.baud_pos (hok : p.ok = true) : 0 < p.baud := by
  simp only [Params.ok, Params.divisorOk, Bool.and_eq_true, decide_eq_true_eq] at hok
  obtain ⟨-, ⟨⟨hbaud, -⟩, -⟩, -⟩ := hok
  exact hbaud

theorem Params.div64_nearest (h : p.rounding = .nearest) : p.div64 = (8 * p.busClkHz + p.baud) / (2 * p.baud) := by
  rw [Params.div64, h]

theorem Params.div64_truncate (h : p.rounding = .truncate) : p.div64 = 4 * p.busClkHz / p.baud := by
  rw [Params.div64, h]

end Divisor

/-- Settles O33: both roundings are quotients rounded down, of which DIV64 modulo 64 is the fraction. -/
theorem divisorsAreRoundedToNearest : Obligations.DivisorsAreRoundedToNearest := by
  intro p hok
  have hbaud := p.baud_pos hok
  obtain ⟨hibrd, hfbrd⟩ := Machine.divisor_fits hok
  refine ⟨fun h => ?nearest, fun h => ?truncate, Nat.div_add_mod' p.div64 64,
    Nat.le_of_lt_succ (Nat.mod_lt _ (by decide)), ?integer, ?fraction⟩
  case nearest =>
    rw [Params.div64_nearest h]
    exact ⟨Nat.mul_div_le _ _, Nat.lt_mul_div_succ _ (Nat.mul_pos Nat.two_pos hbaud)⟩
  case truncate =>
    rw [Params.div64_truncate h]
    exact ⟨Nat.mul_div_le _ _, Nat.lt_mul_div_succ _ hbaud⟩
  case integer => rwa [BitVec.setWidth_ofNat_of_le (by decide)]
  case fraction => rwa [BitVec.setWidth_ofNat_of_le (by decide)]

end Sys2Proof
end

section
/-! PROOF. A whole RXCHAR and a whole TXCHAR (spec/41_uart_driver.md R136 to R138): the DR access that ends each, how
far each has come along any schedule, and the two accesses that suffice where no other agent moves. -/

namespace Sys2Proof.Machine

/-! ### Nothing observed -/

section Since

variable {s t : State} {chars : List Byte} {posts : List (Op × Option Word)}

theorem State.Since.no_sent (h : s.Since t [] posts) : t.sent = s.sent := by rw [h.sent, List.append_nil]

theorem State.Since.no_completions (h : s.Since t chars []) : t.completions = s.completions := by
  rw [h.completions, List.append_nil]

/-- A receive poll is neither seen nor posted (R107, R125). -/
theorem State.Since.recvPoll (h : s.Since t chars posts) (op : Op) : s.Since (t.recvPoll op) chars posts :=
  h.silent rfl rfl (if_neg (addr_fr_ne_addr_dr t.cfg)) rfl rfl

end Since

/-! ### RXCHAR (R136, R137) -/

section Rxchar

variable {s t u v : State}

/-- RXCHAR's last step reads DR and completes with the byte read, zero-extended (R136, R137). -/
theorem exec_rxchar_rxRead (hseq : s.seq = .run .rxchar .rxRead) :
    exec .rxchar s = .next (s.recvRead.complete .rxchar (some (s.drByte.setWidth 32))) := by
  simp only [exec, execRxchar, phaseIn_run hseq, recvRead_dp]

theorem drByte_cons {b : Byte} {rest : List Byte} (hq : s.per.rxq = b :: rest) : s.drByte = b := by
  rw [State.drByte, hq]

theorem exec_rxchar_polls (hseq : s.seq = .run .rxchar .start ∨ s.seq = .run .rxchar .rxPoll) :
    exec .rxchar s = .next (s.recvPoll .rxchar) :=
  hseq.elim exec_rxchar_start (exec_rxPoll (i := .rxchar) rfl)

/-- How far an RXCHAR that began at `s` has come: it polls for a character, it reads one, or it has ended with the
one it received. -/
inductive RxcharProgress (s t : State) : Prop where
  | polling (hseq : t.seq = .run .rxchar .start ∨ t.seq = .run .rxchar .rxPoll) (hobs : s.Since t [] [])
  | reading (hseq : t.seq = .run .rxchar .rxRead) (hobs : s.Since t [] [])
  | ended (b : Byte) (hseq : t.seq = .idle) (hsent : t.sent = s.sent) (hreceived : t.received = s.received ++ [b])
      (hdone : t.completions = s.completions ++ [(.rxchar, some (b.setWidth 32))])

theorem RxcharProgress.unmoved (h : RxcharProgress s t) (hu : t.Unmoved u) : RxcharProgress s u := by
  cases h with
  | polling hseq hobs => exact .polling (by rwa [hu.seq]) (hobs.unmoved hu)
  | reading hseq hobs => exact .reading (hu.seq.trans hseq) (hobs.unmoved hu)
  | ended b hseq hsent hreceived hdone =>
    exact .ended b (hu.seq.trans hseq) (hu.sent.trans hsent) (hu.received.trans hreceived) (hu.completions.trans hdone)

theorem RxcharProgress.sent (h : RxcharProgress s t) : t.sent = s.sent := by
  cases h with
  | polling _ hobs => exact hobs.no_sent
  | reading _ hobs => exact hobs.no_sent
  | ended _ _ hsent => exact hsent

theorem RxcharProgress.since_of_busy (h : RxcharProgress s t) (hbusy : t.seq ≠ .idle) : s.Since t [] [] := by
  cases h with
  | polling _ hobs => exact hobs
  | reading _ hobs => exact hobs
  | ended _ hseq => exact absurd hseq hbusy

theorem RxcharProgress.received_of_idle (h : RxcharProgress s t) (hidle : t.seq = .idle) :
    ∃ b : Byte, t.received = s.received ++ [b] ∧
      t.completions = s.completions ++ [(.rxchar, some (b.setWidth 32))] := by
  cases h with
  | polling hseq => exact hseq.elim (nomatch hidle.symm.trans ·) (nomatch hidle.symm.trans ·)
  | reading hseq => exact nomatch hidle.symm.trans hseq
  | ended b _ _ hreceived hdone => exact ⟨b, hreceived, hdone⟩

/-- RXCHAR's last step posts the byte it reads (R91, R136). -/
theorem rxchar_read_completions (hobs : s.Since u [] []) :
    (u.recvRead.complete .rxchar (some (u.drByte.setWidth 32))).completions =
      s.completions ++ [(.rxchar, some (u.drByte.setWidth 32))] := by
  rw [completions_of_trace_cons (State.complete_trace u.recvRead _ _), completions_of_trace_cons (recvRead_trace u),
    hobs.no_completions]
  simp [Event.completion]

/-- RXCHAR's last step receives one character and ends the command with it (R136, R137). -/
theorem rxchar_read_ends (hobs : s.Since u [] []) :
    RxcharProgress s (u.recvRead.complete .rxchar (some (u.drByte.setWidth 32))) := by
  refine .ended u.drByte rfl ?sent ?received (rxchar_read_completions hobs)
  case sent => rw [complete_sent, recvRead_sent, hobs.no_sent]
  case received =>
    rw [received_of_silent (State.complete_trace u.recvRead _ _) rfl rfl, recvRead_received, hobs.received]

/-- An engine step of RXCHAR moves it on (R136). -/
theorem RxcharProgress.exec (h : RxcharProgress s u) (hne : u.seq ≠ .idle) (hexec : exec .rxchar u = .next v) :
    u.Frame v ∧ RxcharProgress s v := by
  have next_eq {w : State} (hw : Machine.exec .rxchar u = .next w) : w = v :=
    Host.Outcome.next.inj (hw.symm.trans hexec)
  cases h with
  | polling hseq hobs =>
    obtain rfl := next_eq (exec_rxchar_polls hseq)
    exact ⟨(State.Frame.refl u).recvPoll _, (recvPoll_seq .rxchar u).elim
      (fun hat => .polling (.inr hat) (hobs.recvPoll _)) fun hat => .reading hat (hobs.recvPoll _)⟩
  | reading hseq hobs =>
    obtain rfl := next_eq (exec_rxchar_rxRead hseq)
    exact ⟨(recvRead_frame u).complete _ _, rxchar_read_ends hobs⟩
  | ended _ hseq => exact absurd hseq hne

end Rxchar

/-- Settles O37: the DR read takes the head of RXQ, whatever its upper bits are. -/
theorem rxcharReturnsTheReceivedCharacter : Obligations.RxcharReturnsTheReceivedCharacter := by
  intro s b rest hseq hq
  refine ⟨Config.drUpperDraw s.draws ++ b, lowByte_append _ b, ?_⟩
  rw [exec_rxchar_rxRead hseq, drByte_cons hq, recvRead_cons hq]
  rfl

/-- Settles O49: the progress of RXCHAR along any schedule, and its poll and read with the engine alone. -/
theorem rxcharCompletesWithACharacterWaiting : Obligations.RxcharCompletesWithACharacterWaiting := by
  rintro s hs ⟨hseq, hcmd⟩
  refine ⟨fun k t hrun => ?schedule, fun b rest hagenda hq => ?ends⟩
  case schedule =>
    obtain ⟨hat, hprogress⟩ := runOf_induction (P := RxcharProgress s) (fun _ _ hu h => h.unmoved hu)
      (fun _ _ _ h => h.exec) hs hcmd (.polling (.inl hseq) (.refl s)) hrun
    obtain ⟨-, hfault, -⟩ := hat.unissued
    refine ⟨hfault, hat.mode, hat.mem, hprogress.sent, fun hbusy => ?_, hprogress.received_of_idle⟩
    have hobs := hprogress.since_of_busy hbusy
    exact ⟨hobs.received, hobs.no_completions⟩
  case ends =>
    obtain ⟨hok, hfault, -⟩ := hs
    have halone : s.alone := ⟨hok, hfault, hagenda⟩
    have hread : (s.recvPoll .rxchar).seq = .run .rxchar .rxRead := by
      rw [recvPoll_state]
      exact congrArg _ (if_neg (by simp [hq]))
    have hfirst := (step_of_alone halone hcmd hseq).trans (exec_rxchar_start hseq)
    have hlast := (step_of_alone (s := s.recvPoll .rxchar) halone hcmd hread).trans (exec_rxchar_rxRead hread)
    refine ⟨_, runs_succ hfirst (runs_succ hlast rfl), rfl, ?per, ?done⟩
    case per =>
      rw [State.complete_per, recvRead_per, recvPoll_state, hq]
      rfl
    case done =>
      have hbyte : (s.recvPoll .rxchar).drByte = b := drByte_cons (rest := rest) hq
      rw [rxchar_read_completions ((State.Since.refl s).recvPoll .rxchar), hbyte]

/-! ### TXCHAR (R138) -/

section Txchar

variable {s t u v : State} {c : Byte}

/-- How far a TXCHAR of `c` that began at `s` has come: it has yet to start, it sends the character in CH, or it
has ended. -/
inductive TxcharProgress (s : State) (c : Byte) (t : State) : Prop where
  | starting (hseq : t.seq = .run .txchar .start) (hobs : s.Since t [] [])
  | sending (hseq : t.seq = .run .txchar .txPoll ∨ t.seq = .run .txchar .txWrite) (hch : t.dp.ch = c)
      (hobs : s.Since t [] [])
  | ended (hseq : t.seq = .idle) (hobs : s.Since t [c] [(.txchar, none)])

theorem TxcharProgress.unmoved (h : TxcharProgress s c t) (hu : t.Unmoved u) : TxcharProgress s c u := by
  cases h with
  | starting hseq hobs => exact .starting (hu.seq.trans hseq) (hobs.unmoved hu)
  | sending hseq hch hobs => exact .sending (by rwa [hu.seq]) (by rwa [hu.dp]) (hobs.unmoved hu)
  | ended hseq hobs => exact .ended (hu.seq.trans hseq) (hobs.unmoved hu)

theorem TxcharProgress.received (h : TxcharProgress s c t) : t.received = s.received := by
  cases h <;> exact State.Since.received ‹_›

theorem TxcharProgress.since_of_busy (h : TxcharProgress s c t) (hbusy : t.seq ≠ .idle) : s.Since t [] [] := by
  cases h with
  | starting _ hobs => exact hobs
  | sending _ _ hobs => exact hobs
  | ended hseq => exact absurd hseq hbusy

theorem TxcharProgress.since_of_idle (h : TxcharProgress s c t) (hidle : t.seq = .idle) :
    s.Since t [c] [(.txchar, none)] := by
  cases h with
  | starting hseq => exact nomatch hidle.symm.trans hseq
  | sending hseq => exact hseq.elim (nomatch hidle.symm.trans ·) (nomatch hidle.symm.trans ·)
  | ended _ hobs => exact hobs

/-- An engine step of TXCHAR moves it on (R138). -/
theorem TxcharProgress.exec (h : TxcharProgress s c u) (hne : u.seq ≠ .idle) (hexec : exec (.txchar c) u = .next v) :
    u.Frame v ∧ TxcharProgress s c v := by
  have next_eq {w : State} (hw : Machine.exec (.txchar c) u = .next w) : w = v :=
    Host.Outcome.next.inj (hw.symm.trans hexec)
  cases h with
  | starting hseq hobs =>
    obtain rfl := next_eq (exec_txchar_start hseq)
    have hlatched : s.Since (u.setCh c) [] [] := ⟨hobs.sent, hobs.received, hobs.completions⟩
    exact ⟨((State.Frame.refl u).withDp _).sendPoll _, .sending (sendPoll_seq _ _) rfl (hlatched.sendPoll _)⟩
  | sending hseq hch hobs =>
    rcases hseq with hpoll | hwrite
    · obtain rfl := next_eq (exec_txPoll (i := .txchar c) rfl hpoll)
      exact ⟨sendPoll_frame _ u, .sending (sendPoll_seq _ u) hch (hobs.sendPoll _)⟩
    · obtain rfl := next_eq (exec_txchar_txWrite hwrite)
      exact ⟨(sendWrite_frame u).complete _ _, .ended rfl (hch ▸ hobs.sendWrite.complete .txchar none)⟩
  | ended hseq => exact absurd hseq hne

end Txchar

/-- Settles O50: the progress of TXCHAR along any schedule, and its poll and write with the engine alone. -/
theorem txcharCompletesWithRoom : Obligations.TxcharCompletesWithRoom := by
  rintro s c hs ⟨hseq, hcmd⟩
  refine ⟨fun k t hrun => ?schedule, fun hagenda hroom => ?ends⟩
  case schedule =>
    obtain ⟨hat, hprogress⟩ := runOf_induction (P := TxcharProgress s c) (fun _ _ hu h => h.unmoved hu)
      (fun _ _ _ h => h.exec) hs hcmd (.starting hseq (.refl s)) hrun
    obtain ⟨-, hfault, -⟩ := hat.unissued
    refine ⟨hfault, hat.mode, hat.mem, hprogress.received, fun hbusy => ?_, fun hidle => ?_⟩
    · have hobs := hprogress.since_of_busy hbusy
      exact ⟨hobs.no_sent, hobs.no_completions⟩
    · have hobs := hprogress.since_of_idle hidle
      exact ⟨hobs.sent, hobs.completions⟩
  case ends =>
    obtain ⟨hok, hfault, -⟩ := hs
    have halone : s.alone := ⟨hok, hfault, hagenda⟩
    have hwrite : ((s.setCh c).sendPoll .txchar).seq = .run .txchar .txWrite := by
      rw [sendPoll_state]
      exact congrArg _ (if_neg hroom.ne)
    have hfirst := (step_of_alone halone hcmd hseq).trans (exec_txchar_start hseq)
    have hlast := (step_of_alone (s := (s.setCh c).sendPoll .txchar) halone hcmd hwrite).trans
      (exec_txchar_txWrite hwrite)
    rw [sendWrite_room (s := (s.setCh c).sendPoll .txchar) hroom] at hlast
    exact ⟨_, runs_succ hfirst (runs_succ hlast rfl), rfl, rfl⟩

end Sys2Proof.Machine
end

section
/-! PROOF. The codecs character by character (spec/42_decimal_codec.md R160 to R165, spec/43_hex_codec.md R180 to
R185): the digit classes, the accumulator's two operations, the decoder's table, and the encoder's next digit. -/

namespace Sys2Proof.Machine

/-! ### The digit classes (R161, R180) -/

section Classes

variable {c : Byte} {d : Word}

/-- A run of consecutive characters, by their places: the character at place `k` counts from the character `b`. -/
theorem char_class_iff {b k₀ k₁ : Nat} (hk : k₀ ≤ k₁) (hb : b + k₁ < 256) :
    (BitVec.ofNat 8 (b + k₀) ≤ c ∧ c ≤ BitVec.ofNat 8 (b + k₁) ∧ d = (c - BitVec.ofNat 8 b).setWidth 32) ↔
      ∃ k, k₀ ≤ k ∧ k ≤ k₁ ∧ c = BitVec.ofNat 8 (b + k) ∧ d = BitVec.ofNat 32 k := by
  have hfirst : (BitVec.ofNat 8 (b + k₀)).toNat = b + k₀ := Nat.mod_eq_of_lt (by omega)
  have hlast : (BitVec.ofNat 8 (b + k₁)).toNat = b + k₁ := Nat.mod_eq_of_lt (by omega)
  have hzero : (BitVec.ofNat 8 b).toNat = b := Nat.mod_eq_of_lt (by omega)
  rw [BitVec.le_def, BitVec.le_def, hfirst, hlast]
  constructor
  · rintro ⟨hlo, hhi, rfl⟩
    refine ⟨c.toNat - b, by omega, by omega, ?_, ?_⟩
    · rw [Nat.add_sub_cancel' (by omega), BitVec.ofNat_toNat, BitVec.setWidth_eq]
    · apply BitVec.eq_of_toNat_eq
      rw [BitVec.toNat_setWidth, BitVec.toNat_sub_of_le (by rw [BitVec.le_def]; omega), hzero, BitVec.toNat_ofNat]
  · rintro ⟨k, hlo, hhi, rfl, rfl⟩
    have hat : (BitVec.ofNat 8 (b + k)).toNat = b + k := Nat.mod_eq_of_lt (by omega)
    refine ⟨by omega, by omega, ?_⟩
    apply BitVec.eq_of_toNat_eq
    rw [BitVec.toNat_setWidth, BitVec.toNat_sub_of_le (by rw [BitVec.le_def]; omega), hzero, hat, BitVec.toNat_ofNat,
      Nat.add_sub_cancel_left]

theorem digit10_eq_some :
    digit10 c = some d ↔ 0x30#8 ≤ c ∧ c ≤ 0x39#8 ∧ d = (c - 0x30#8).setWidth 32 := by
  unfold digit10
  split
  next h => simp [h, eq_comm]
  next h => exact ⟨nofun, fun ⟨hlo, hhi, _⟩ => absurd ⟨hlo, hhi⟩ h⟩

/-- The three runs of characters of DIGIT16 do not overlap. -/
theorem digit16_eq_some :
    digit16 c = some d ↔
      (0x30#8 ≤ c ∧ c ≤ 0x39#8 ∧ d = (c - 0x30#8).setWidth 32) ∨
      (0x41#8 ≤ c ∧ c ≤ 0x46#8 ∧ d = (c - 0x37#8).setWidth 32) ∨
      (0x61#8 ≤ c ∧ c ≤ 0x66#8 ∧ d = (c - 0x57#8).setWidth 32) := by
  unfold digit16
  split
  next h =>
    have hupper : ¬ 0x41#8 ≤ c := by bv_omega
    have hlower : ¬ 0x61#8 ≤ c := by bv_omega
    simp [h, hupper, hlower, eq_comm]
  next hdecimal =>
    split
    next h =>
      have hhigh : ¬ c ≤ 0x39#8 := by bv_omega
      have hlower : ¬ 0x61#8 ≤ c := by bv_omega
      simp [h, hhigh, hlower, eq_comm]
    next hupper =>
      split
      next h =>
        have hhigh : ¬ c ≤ 0x39#8 := by bv_omega
        have hupper' : ¬ c ≤ 0x46#8 := by bv_omega
        simp [h, hhigh, hupper', eq_comm]
      next hlower =>
        refine ⟨nofun, ?_⟩
        rintro (⟨hlo, hhi, -⟩ | ⟨hlo, hhi, -⟩ | ⟨hlo, hhi, -⟩)
        · exact absurd ⟨hlo, hhi⟩ hdecimal
        · exact absurd ⟨hlo, hhi⟩ hupper
        · exact absurd ⟨hlo, hhi⟩ hlower

end Classes

/-- Settles O41: each class is its runs of consecutive characters, and CR and BS lie below them all. -/
theorem digitClassesAreThoseOfTheSpec : Obligations.DigitClassesAreThoseOfTheSpec := by
  intro c d
  have hdecimal := char_class_iff (c := c) (d := d) (b := 0x30) (k₀ := 0) (k₁ := 9) (by decide) (by decide)
  have hupper := char_class_iff (c := c) (d := d) (b := 0x37) (k₀ := 10) (k₁ := 15) (by decide) (by decide)
  have hlower := char_class_iff (c := c) (d := d) (b := 0x57) (k₀ := 10) (k₁ := 15) (by decide) (by decide)
  simp only [Nat.zero_le, true_and] at hdecimal
  refine ⟨digit10_eq_some.trans hdecimal, ?hexadecimal, ?controls⟩
  case hexadecimal =>
    refine (digit16_eq_some.trans (or_congr hdecimal (or_congr hupper hlower))).trans (or_congr_right ?_)
    constructor
    · rintro (⟨k, hlo, hhi, hc, hd⟩ | ⟨k, hlo, hhi, hc, hd⟩)
      · exact ⟨k, hlo, hhi, hd, .inl hc⟩
      · exact ⟨k, hlo, hhi, hd, .inr hc⟩
    · rintro ⟨k, hlo, hhi, hd, hc | hc⟩
      · exact .inl ⟨k, hlo, hhi, hc, hd⟩
      · exact .inr ⟨k, hlo, hhi, hc, hd⟩
  case controls =>
    rintro (rfl | rfl)
    · exact ⟨rfl, rfl⟩
    · exact ⟨rfl, rfl⟩

/-! ### The accumulator (R160) -/

/-- Without the wrap the quotient is the old value; a wrapped sum lies below `a * b`, and its quotient below `a`. -/
theorem div_of_wrapped_append {a b d m : Nat} (hd : d < b) (hb : b < m) :
    (a * b + d) % m / b = a ↔ a * b + d < m := by
  constructor
  · intro h
    by_contra hwrap
    have hlt : (a * b + d) % m < a * b := by
      have := Nat.mod_eq_sub_mod (not_lt.1 hwrap)
      have := Nat.mod_le (a * b + d - m) m
      omega
    have := Nat.div_lt_of_lt_mul (show (a * b + d) % m < b * a by rwa [Nat.mul_comm b a])
    omega
  · intro h
    rw [Nat.mod_eq_of_lt h, Nat.add_comm, Nat.add_mul_div_right d a (by omega), Nat.div_eq_of_lt hd, Nat.zero_add]

/-- Settles O60: the undo divides what the append left, which is the sum exactly where it did not wrap. -/
theorem undoRestoresUnlessWrapped : Obligations.UndoRestoresUnlessWrapped := by
  intro r base d _ hd
  have hsum : (r.acc * base + d).toNat = (r.acc.toNat * base.toNat + d.toNat) % 2 ^ 32 := by
    rw [BitVec.toNat_add, BitVec.toNat_mul, Nat.mod_add_mod]
  refine ⟨?acc, BitVec.add_sub_cancel r.cnt 1#32⟩
  rw [← div_of_wrapped_append hd base.isLt, ← hsum, ← BitVec.toNat_udiv]
  exact BitVec.toNat_inj.symm

/-! ### The two decoders as one family -/

/-- The command decodes numbers in the base, whose digits have the values `digit` (R162, R181). -/
inductive Decoder : Instr → Word → (Byte → Option Word) → Prop where
  | decimal : Decoder .decdec 10#32 digit10
  | hexadecimal : Decoder .dechex 16#32 digit16

section Family

variable {i : Instr} {base : Word} {digit : Byte → Option Word} {s : State}

theorem Decoder.of_cases
    (h : (i = .decdec ∧ base = 10#32 ∧ digit = digit10) ∨ (i = .dechex ∧ base = 16#32 ∧ digit = digit16)) :
    Decoder i base digit := by
  rcases h with ⟨rfl, rfl, rfl⟩ | ⟨rfl, rfl, rfl⟩
  · exact .decimal
  · exact .hexadecimal

theorem Decoder.exec_eq (h : Decoder i base digit) (s : State) :
    exec i s = .next (s.decoderStep i.op base digit) := by
  cases h <;> rfl

theorem Decoder.receives (h : Decoder i base digit) : i.op.receives = true := by
  cases h <;> rfl

theorem Decoder.sends (h : Decoder i base digit) : i.op.sends = true := by
  cases h <;> rfl

theorem Decoder.echoes (h : Decoder i base digit) : Echoes i := by
  cases h
  · exact .inl rfl
  · exact .inr (.inl rfl)

/-- Neither CR nor BS is a digit (R161, R180). -/
theorem Decoder.digit_control (h : Decoder i base digit) : digit charCR = none ∧ digit charBS = none := by
  cases h <;> exact ⟨rfl, rfl⟩

theorem Decoder.exec_start (h : Decoder i base digit) (hseq : s.seq = .run i.op .start) :
    exec i s = .next (({ s with dp := s.dp.clearAcc } : State).recvPoll i.op) :=
  (h.exec_eq s).trans (congrArg _ (decoderStep_start hseq))

/-- A decoder's DR read acts on the byte it latches (R163). -/
theorem Decoder.exec_rxRead (h : Decoder i base digit) (hseq : s.seq = .run i.op .rxRead) :
    exec i s = .next (s.recvRead.applyDecode i.op (decodeChar base digit s.drByte { s.dp with ch := s.drByte })) := by
  rw [h.exec_eq, decoderStep_rxRead hseq, recvRead_dp]

end Family

/-! ### The decoder's table (R163, R182) -/

section Table

variable {base : Word} {digit : Byte → Option Word} {c : Byte} {d : Word} {r : Datapath}

theorem decodeChar_cr (hc : c = charCR) : decodeChar base digit c r = .finish := if_pos hc

theorem decodeChar_digit (hc : c ≠ charCR) (hd : digit c = some d) :
    decodeChar base digit c r = .echo (r.append base d) := by
  simp [decodeChar, hc, hd]

theorem decodeChar_backspace (hc : c = charBS) (hd : digit c = none) (hcnt : r.cnt ≠ 0#32) :
    decodeChar base digit c r = .echo (r.undo base) := by
  subst hc
  simp [decodeChar, hd, hcnt, show charBS ≠ charCR by decide]

theorem decodeChar_other (hc : c ≠ charCR) (hd : digit c = none) (h : c ≠ charBS ∨ r.cnt = 0#32) :
    decodeChar base digit c r = .ignore := by
  have hrow : ¬ (c = charBS ∧ r.cnt ≠ 0#32) := by tauto
  simp [decodeChar, hc, hd, hrow]

end Table

/-- Settles O40: the DR read takes the head of RXQ, and the rest of the step is its row of the table. -/
theorem decodersFollowTheirTable : Obligations.DecodersFollowTheirTable := by
  intro s c rest i base digit hcases hseq hq read
  have hi := Decoder.of_cases hcases
  obtain ⟨hcr, hbs⟩ := hi.digit_control
  have hstep := hi.exec_rxRead hseq
  rw [drByte_cons hq, recvRead_cons hq] at hstep
  refine ⟨?finish, fun d hd => ?digit, ?backspace, fun hc hd hrow => ?other⟩
  case finish =>
    intro hc
    rw [decodeChar_cr hc] at hstep
    exact hstep
  case digit =>
    have hc : c ≠ charCR := by
      rintro rfl
      exact nomatch hcr.symm.trans hd
    rw [decodeChar_digit hc hd] at hstep
    exact hstep
  case backspace =>
    intro hc hcnt
    rw [decodeChar_backspace (r := { s.dp with ch := c }) hc (hc ▸ hbs) hcnt] at hstep
    exact hstep
  case other =>
    rw [decodeChar_other (r := { s.dp with ch := c }) hc hd hrow] at hstep
    exact hstep

/-! ### The encoder's next digit (R165, R185) -/

/-- Settles O44: after the DR write an encoder completes, or takes the next digit from the buffer. -/
theorem encodersSendDigitAfterDigit : Obligations.EncodersSendDigitAfterDigit := by
  intro s n i char hcases hseq hroom wrote
  obtain ⟨base, hi⟩ : ∃ base, Encoder i n base char := by
    rcases hcases with ⟨rfl, rfl⟩ | ⟨rfl, rfl⟩
    · exact ⟨_, .decimal n⟩
    · exact ⟨_, .hexadecimal n⟩
  have hstep := (hi.exec_eq s).trans (congrArg _ (encoderStep_txWrite hseq))
  rw [sendWrite_room hroom] at hstep
  refine ⟨fun h0 => ?last, fun hlt hne => ?next⟩
  case last => exact hstep.trans (congrArg _ (if_pos h0))
  case next =>
    have hpop : s.dp.popDigit char =
        { s.dp with dcnt := s.dp.dcnt - 1#4, ch := char s.dp.dbuf[(s.dp.dcnt - 1#4).toNat] } :=
      congrArg (fun c => ({ s.dp with dcnt := s.dp.dcnt - 1#4, ch := c } : Datapath)) (Datapath.popDigit_ch hlt)
    rw [hstep, ← hpop]
    exact congrArg _ (if_neg hne)

end Sys2Proof.Machine
end

section
/-! PROOF. A whole command that receives and sends (spec/40_register_interface.md R107 to R109, R124, R125): what
the engine has received, sent and posted since a state, and its polls and echo where no other agent moves. -/

namespace Sys2Proof.Machine

/-! ### The observation since a state, received characters included (R125) -/

/-- Since `s` the engine has received `heard`, sent `said` and posted `posts`. -/
structure State.Observed (s t : State) (heard said : List Byte) (posts : List (Op × Option Word)) : Prop where
  received : t.received = s.received ++ heard
  sent : t.sent = s.sent ++ said
  completions : t.completions = s.completions ++ posts

section Observed

variable {s t u : State} {heard said : List Byte} {posts : List (Op × Option Word)} {e : Event}

theorem State.Observed.refl (s : State) : s.Observed s [] [] [] :=
  ⟨(List.append_nil _).symm, (List.append_nil _).symm, (List.append_nil _).symm⟩

theorem State.Observed.congr (h : s.Observed t heard said posts) (hreceived : u.received = t.received)
    (hsent : u.sent = t.sent) (hdone : u.completions = t.completions) : s.Observed u heard said posts :=
  ⟨hreceived.trans h.received, hsent.trans h.sent, hdone.trans h.completions⟩

theorem State.Observed.unmoved (h : s.Observed t heard said posts) (hu : t.Unmoved u) :
    s.Observed u heard said posts := h.congr hu.received hu.sent hu.completions

/-- The polls read FR, which is neither seen nor posted (R107, R125). -/
theorem State.Observed.recvPoll (h : s.Observed t heard said posts) (op : Op) :
    s.Observed (t.recvPoll op) heard said posts :=
  have hline := busRead_fr_sameLine t
  h.congr hline.received hline.sent (busRead_quiet .fr t).completions

theorem State.Observed.sendPoll (h : s.Observed t heard said posts) (op : Op) :
    s.Observed (t.sendPoll op) heard said posts :=
  have hline := busRead_fr_sameLine t
  h.congr hline.received hline.sent (busRead_quiet .fr t).completions

/-- RECV's last step receives the byte it latches (R108). -/
theorem State.Observed.recvRead (h : s.Observed t heard said posts) :
    s.Observed t.recvRead (heard ++ [t.drByte]) said posts where
  received := by rw [recvRead_received, h.received, List.append_assoc]
  sent := (recvRead_sent t).trans h.sent
  completions := (recvRead_quiet t).completions.trans h.completions

/-- SEND's last step sends CH (R109). -/
theorem State.Observed.sendWrite (h : s.Observed t heard said posts) :
    s.Observed t.sendWrite heard (said ++ [t.dp.ch]) posts where
  received := (sendWrite_received t).trans h.received
  sent := by rw [sendWrite_sent, h.sent, List.append_assoc]
  completions := (sendWrite_quiet t).completions.trans h.completions

/-- A completion adds itself (R91). -/
theorem State.Observed.complete (h : s.Observed t heard said posts) (op : Op) (res : Option Word) :
    s.Observed (t.complete op res) heard said (posts ++ [(op, res)]) where
  received := (received_of_silent (State.complete_trace t op res) rfl rfl).trans h.received
  sent := (complete_sent op res t).trans h.sent
  completions := by
    rw [completions_of_trace_cons (State.complete_trace t op res), h.completions, List.append_assoc]
    rfl

end Observed

/-! ### Where the engine comes with no other agent moving -/

/-- The engine, moving alone, comes from `s` to `t` and posts nothing on the way. -/
structure State.Reaches (s t : State) : Prop where
  frame : s.Frame t
  completions : t.completions = s.completions
  run : ∃ k, runs k s t

section Reaches

variable {s t u : State} {i : Instr}

theorem runs_trans {j k : Nat} (h : runs j s t) (h' : runs k t u) : runs (j + k) s u := by
  induction j generalizing s with
  | zero =>
    cases h
    rwa [Nat.zero_add]
  | succ j ih =>
    simp only [runs, Host.Core.run] at h
    split at h
    next v hv =>
      rw [Nat.add_right_comm]
      exact runs_succ hv (ih h)
    next => cases h
    next => cases h

theorem State.Reaches.trans (h : s.Reaches t) (h' : t.Reaches u) : s.Reaches u := by
  obtain ⟨j, hj⟩ := h.run
  obtain ⟨k, hk⟩ := h'.run
  exact ⟨h.frame.trans h'.frame, h'.completions.trans h.completions, j + k, runs_trans hj hk⟩

theorem reaches_of_exec (halone : s.alone) (hdecode : decode s.cmd = .ok i) {op : Op} {ph : Phase}
    (hseq : s.seq = .run op ph) (hexec : exec i s = .next t) (hf : s.Frame t) (hdone : t.completions = s.completions) :
    s.Reaches t :=
  ⟨hf, hdone, 1, runs_succ ((step_of_alone halone hdecode hseq).trans hexec) rfl⟩

/-- With a character waiting the receive poll goes on to the DR read (R108). -/
theorem recvPoll_rxRead (op : Op) (hq : s.per.rxq ≠ []) : (s.recvPoll op).seq = .run op .rxRead := by
  rw [recvPoll_state, if_neg hq]

/-- With room in TXQ the send poll goes on to the DR write (R109). -/
theorem sendPoll_txWrite (op : Op) (hroom : s.per.txq.length < s.depth) : (s.sendPoll op).seq = .run op .txWrite := by
  rw [sendPoll_state, if_neg hroom.ne]

theorem recvPoll_reaches (hop : i.op.receives = true) (halone : s.alone) (hdecode : decode s.cmd = .ok i)
    (hseq : s.seq = .run i.op .rxPoll) : s.Reaches (s.recvPoll i.op) :=
  reaches_of_exec halone hdecode hseq (exec_rxPoll hop hseq) ((State.Frame.refl s).recvPoll _)
    (busRead_quiet .fr s).completions

theorem sendPoll_reaches (hop : i.op.sends = true) (halone : s.alone) (hdecode : decode s.cmd = .ok i)
    (hseq : s.seq = .run i.op .txPoll) : s.Reaches (s.sendPoll i.op) :=
  reaches_of_exec halone hdecode hseq (exec_txPoll hop hseq) (sendPoll_frame _ s) (busRead_quiet .fr s).completions

/-- With room in TXQ the character in CH is echoed, and the command polls for the next one (R163, R182, R202). -/
theorem echo_reaches (hi : Echoes i) (hop : i.op.sends = true) (halone : s.alone) (hdecode : decode s.cmd = .ok i)
    (hseq : s.seq = .run i.op .txPoll) (hroom : s.per.txq.length < s.depth) :
    ∃ t, s.Reaches t ∧ t.seq = .run i.op .rxPoll ∧ t.dp = s.dp ∧
      t.per = { s.per with txq := s.per.txq ++ [s.dp.ch] } := by
  have hpolled := sendPoll_reaches hop halone hdecode hseq
  have hat := sendPoll_txWrite i.op hroom
  have hwrote : (s.sendPoll i.op).Reaches ((s.sendPoll i.op).sendWrite.goto i.op .rxPoll) :=
    reaches_of_exec (hpolled.frame.alone halone) hdecode hat (exec_echo hi hat) ((sendWrite_frame _).goto _ _)
      (sendWrite_quiet _).completions
  refine ⟨_, hpolled.trans hwrote, rfl, by simp, ?_⟩
  rw [sendWrite_room (s := s.sendPoll i.op) hroom]
  rfl

end Reaches

end Sys2Proof.Machine
end

section
/-! PROOF. A whole DECDEC and a whole DECHEX (spec/42_decimal_codec.md R162 to R164, spec/43_hex_codec.md R181 to
R183): the source's accumulator wherever the run stands, and that it ends where a line and room for its echo wait. -/

namespace Sys2Proof.Machine

/-! ### The accumulator of the source -/

/-- ACC and CNT hold the value and the digit count of the source's accumulator (R160). -/
structure Datapath.Accumulates (r : Datapath) (line : Word × Word × List Byte) : Prop where
  acc : r.acc = line.1
  cnt : r.cnt = line.2.1

section Accumulator

variable {base : Word} {digit : Byte → Option Word} {line : Word × Word × List Byte} {r : Datapath} {c : Byte}

theorem codecLine_concat (cs : List Byte) :
    codecLine base digit (cs ++ [c]) = codecChar base digit (codecLine base digit cs) c := by
  rw [codecLine, codecLine, List.foldl_concat]

/-- A character adds at most itself to the echo. -/
theorem codecChar_length_le : (codecChar base digit line c).2.2.length ≤ line.2.2.length + 1 := by
  unfold codecChar
  split
  · simp
  · split <;> simp

/-- Before CR a decoder does with a character what the source's accumulator does: both take it and echo it, or both
leave it (R160, R162, R181). -/
theorem decodeChar_codecChar (hc : c ≠ charCR) (h : r.Accumulates line) :
    (∃ r', decodeChar base digit c r = .echo r' ∧ r'.ch = r.ch ∧ r'.Accumulates (codecChar base digit line c) ∧
      (codecChar base digit line c).2.2 = line.2.2 ++ [c]) ∨
    (decodeChar base digit c r = .ignore ∧ codecChar base digit line c = line) := by
  cases hd : digit c with
  | some d =>
    have hline : codecChar base digit line c = (line.1 * base + d, line.2.1 + 1#32, line.2.2 ++ [c]) := by
      simp [codecChar, hd]
    rw [hline]
    exact .inl ⟨_, decodeChar_digit hc hd, rfl, ⟨by rw [← h.acc]; rfl, by rw [← h.cnt]; rfl⟩, rfl⟩
  | none =>
    by_cases hrow : c = charBS ∧ r.cnt ≠ 0#32
    · have hline : codecChar base digit line c = (line.1 / base, line.2.1 - 1#32, line.2.2 ++ [c]) := by
        simp only [codecChar, hd]
        exact if_pos (h.cnt ▸ hrow)
      rw [hline]
      exact .inl ⟨_, decodeChar_backspace hrow.1 hd hrow.2, rfl, ⟨by rw [← h.acc]; rfl, by rw [← h.cnt]; rfl⟩, rfl⟩
    · refine .inr ⟨decodeChar_other hc hd (by tauto), ?_⟩
      simp only [codecChar, hd]
      exact if_neg (h.cnt ▸ hrow)

end Accumulator

/-! ### Whatever the schedule -/

section Progress

variable {i : Instr} {base : Word} {digit : Byte → Option Word} {s t u v : State}

/-- How far a decoder that began at `s` has come, with `cs` received before CR: it has yet to start; it receives the
next character, with `cs` echoed; it echoes the last of `cs`, which stands in CH; or it has ended at CR. -/
inductive DecoderProgress (i : Instr) (base : Word) (digit : Byte → Option Word) (s t : State) : Prop where
  | starting (hseq : t.seq = .run i.op .start) (hobs : s.Observed t [] [] [])
  | receiving (cs : List Byte) (hcr : charCR ∉ cs) (hseq : t.seq = .run i.op .rxPoll ∨ t.seq = .run i.op .rxRead)
      (hacc : t.dp.Accumulates (codecLine base digit cs)) (hobs : s.Observed t cs (codecLine base digit cs).2.2 [])
  | echoing (cs said : List Byte) (hcr : charCR ∉ cs) (hseq : t.seq = .run i.op .txPoll ∨ t.seq = .run i.op .txWrite)
      (hacc : t.dp.Accumulates (codecLine base digit cs)) (hecho : (codecLine base digit cs).2.2 = said ++ [t.dp.ch])
      (hobs : s.Observed t cs said [])
  | ended (cs : List Byte) (hcr : charCR ∉ cs) (hseq : t.seq = .idle)
      (hobs : s.Observed t (cs ++ [charCR]) (codecLine base digit cs).2.2 [(i.op, some (codecLine base digit cs).1)])

theorem DecoderProgress.unmoved (h : DecoderProgress i base digit s t) (hu : t.Unmoved u) :
    DecoderProgress i base digit s u := by
  cases h with
  | starting hseq hobs => exact .starting (hu.seq.trans hseq) (hobs.unmoved hu)
  | receiving cs hcr hseq hacc hobs =>
    exact .receiving cs hcr (by rwa [hu.seq]) (by rwa [hu.dp]) (hobs.unmoved hu)
  | echoing cs said hcr hseq hacc hecho hobs =>
    exact .echoing cs said hcr (by rwa [hu.seq]) (by rwa [hu.dp]) (by rwa [hu.dp]) (hobs.unmoved hu)
  | ended cs hcr hseq hobs => exact .ended cs hcr (hu.seq.trans hseq) (hobs.unmoved hu)

/-- The DR read ends the command at CR, and moves the accumulator on with any other byte (R163, R182). -/
theorem DecoderProgress.read {cs : List Byte} (hcr : charCR ∉ cs) (hacc : u.dp.Accumulates (codecLine base digit cs))
    (hobs : s.Observed u cs (codecLine base digit cs).2.2 []) :
    DecoderProgress i base digit s
      (u.recvRead.applyDecode i.op (decodeChar base digit u.drByte { u.dp with ch := u.drByte })) := by
  have hread := hobs.recvRead
  have hacc' : ({ u.dp with ch := u.drByte } : Datapath).Accumulates (codecLine base digit cs) := ⟨hacc.acc, hacc.cnt⟩
  by_cases hc : u.drByte = charCR
  · rw [decodeChar_cr hc, applyDecode_finish, recvRead_dp, hacc.acc]
    exact .ended cs hcr rfl ((hc ▸ hread).complete i.op _)
  · have hcr' : charCR ∉ cs ++ [u.drByte] := by
      simpa [hcr] using fun h => hc h.symm
    have hline := codecLine_concat (base := base) (digit := digit) (c := u.drByte) cs
    rcases decodeChar_codecChar hc hacc' with ⟨r, hact, hch, hnext, hecho⟩ | ⟨hact, hsame⟩
    · rw [hact, applyDecode_echo]
      exact .echoing _ _ hcr' (.inl rfl) (hline ▸ hnext) (by rw [hline, hecho]; exact congrArg (_ ++ [·]) hch.symm)
        (hread.congr rfl rfl rfl)
    · rw [hact, applyDecode_ignore]
      refine .receiving _ hcr' (.inl rfl) ?_ ?_
      · rw [hline, hsame, State.goto_dp, recvRead_dp]
        exact hacc'
      · rw [hline, hsame]
        exact hread.congr rfl rfl rfl

/-- An engine step of a decoder moves it on (R162, R181). -/
theorem DecoderProgress.exec (hi : Decoder i base digit) (h : DecoderProgress i base digit s u) (hne : u.seq ≠ .idle)
    (hexec : exec i u = .next v) : u.Frame v ∧ DecoderProgress i base digit s v := by
  have next_eq {w : State} (hw : Machine.exec i u = .next w) : w = v := Host.Outcome.next.inj (hw.symm.trans hexec)
  cases h with
  | starting hseq hobs =>
    obtain rfl := next_eq (hi.exec_start hseq)
    have hcleared : s.Observed ({ u with dp := u.dp.clearAcc } : State) [] [] [] := hobs.congr rfl rfl rfl
    exact ⟨((State.Frame.refl u).withDp _).recvPoll _,
      .receiving [] List.not_mem_nil (recvPoll_seq _ _) ⟨rfl, rfl⟩ (hcleared.recvPoll _)⟩
  | receiving cs hcr hseq hacc hobs =>
    rcases hseq with hpoll | hread
    · obtain rfl := next_eq (exec_rxPoll hi.receives hpoll)
      exact ⟨(State.Frame.refl u).recvPoll _, .receiving cs hcr (recvPoll_seq _ u) hacc (hobs.recvPoll _)⟩
    · obtain rfl := next_eq (hi.exec_rxRead hread)
      exact ⟨(recvRead_frame u).applyDecode _ _, .read hcr hacc hobs⟩
  | echoing cs said hcr hseq hacc hecho hobs =>
    rcases hseq with hpoll | hwrite
    · obtain rfl := next_eq (exec_txPoll hi.sends hpoll)
      exact ⟨sendPoll_frame _ u, .echoing cs said hcr (sendPoll_seq _ u) hacc hecho (hobs.sendPoll _)⟩
    · obtain rfl := next_eq (exec_echo hi.echoes hwrite)
      refine ⟨(sendWrite_frame u).goto _ _, .receiving cs hcr (.inl rfl) ?_ ?_⟩
      · rwa [State.goto_dp, sendWrite_dp]
      · rw [hecho]
        exact hobs.sendWrite.congr rfl rfl rfl
  | ended _ _ hseq => exact absurd hseq hne

/-- Whatever the schedule, a decoder's run stands somewhere in its progress. -/
theorem Decoder.progress (hi : Decoder i base digit) (hs : s.unissued) (hstarted : s.started i) {k : Nat}
    (hrun : runs k s t) : s.RunOf i t ∧ DecoderProgress i base digit s t := by
  obtain ⟨hseq, hcmd⟩ := hstarted
  exact runOf_induction (fun _ _ hu h => h.unmoved hu) (fun _ _ _ h => h.exec hi) hs hcmd
    (.starting hseq (.refl s)) hrun

/-- A decoder that has ended received a line and its CR, echoed what the accumulator accepts of it, and posted the
value. -/
theorem DecoderProgress.of_idle (h : DecoderProgress i base digit s t) (hidle : t.seq = .idle) :
    ∃ cs, charCR ∉ cs ∧ s.Observed t (cs ++ [charCR]) (codecLine base digit cs).2.2
      [(i.op, some (codecLine base digit cs).1)] := by
  cases h with
  | starting hseq => exact nomatch hidle.symm.trans hseq
  | receiving _ _ hseq => exact hseq.elim (nomatch hidle.symm.trans ·) (nomatch hidle.symm.trans ·)
  | echoing _ _ _ hseq => exact hseq.elim (nomatch hidle.symm.trans ·) (nomatch hidle.symm.trans ·)
  | ended cs hcr _ hobs => exact ⟨cs, hcr, hobs⟩

/-- A decoder that has not ended has echoed what the accumulator accepts of the characters received, or has the last
of it still to send. -/
theorem DecoderProgress.of_busy (h : DecoderProgress i base digit s t) (hbusy : t.seq ≠ .idle) :
    ∃ cs said, charCR ∉ cs ∧ s.Observed t cs said [] ∧
      (said = (codecLine base digit cs).2.2 ∨ said = (codecLine base digit cs).2.2.dropLast) := by
  cases h with
  | starting _ hobs => exact ⟨[], [], List.not_mem_nil, hobs, .inl rfl⟩
  | receiving cs hcr _ _ hobs => exact ⟨cs, _, hcr, hobs, .inl rfl⟩
  | echoing cs said hcr _ _ hecho hobs => exact ⟨cs, said, hcr, hobs, .inr (by rw [hecho, List.dropLast_concat])⟩
  | ended _ _ hseq => exact absurd hseq hbusy

end Progress

/-! ### With no other agent moving -/

section Alone

variable {i : Instr} {base : Word} {digit : Byte → Option Word} {line : Word × Word × List Byte} {s u : State}
  {q rest : List Byte}

/-- With room for one echo a decoder takes a character other than CR into the accumulator, echoes what the accumulator
accepts, and polls for the next (R162, R181). -/
theorem Decoder.takes_char (hi : Decoder i base digit) (halone : u.alone) (hdecode : decode u.cmd = .ok i)
    (hseq : u.seq = .run i.op .rxRead) (hacc : u.dp.Accumulates line) {c : Byte} (hc : c ≠ charCR)
    (hrxq : u.per.rxq = c :: rest) (htxq : u.per.txq = q ++ line.2.2) (hroom : u.per.txq.length < u.depth) :
    ∃ v, u.Reaches v ∧ v.seq = .run i.op .rxPoll ∧ v.dp.Accumulates (codecChar base digit line c) ∧
      v.per = { u.per with rxq := rest, txq := q ++ (codecChar base digit line c).2.2 } := by
  have hexec := hi.exec_rxRead hseq
  rw [drByte_cons hrxq] at hexec
  have hread : u.recvRead.per = { u.per with rxq := rest } := by rw [recvRead_per, hrxq]; rfl
  have hacc' : ({ u.dp with ch := c } : Datapath).Accumulates line := ⟨hacc.acc, hacc.cnt⟩
  rcases decodeChar_codecChar (base := base) (digit := digit) hc hacc' with ⟨r, hact, hch, hnext, hecho⟩ | ⟨hact, hsame⟩
  · rw [hact, applyDecode_echo] at hexec
    have htaken := reaches_of_exec halone hdecode hseq hexec (((recvRead_frame u).withDp r).goto _ _)
      (recvRead_quiet u).completions
    have hdepth : u.recvRead.depth = u.depth := depth_congr (by rw [hread]; rfl) (recvRead_cfg u)
    obtain ⟨v, hv, hat, hdp, hper⟩ := echo_reaches hi.echoes hi.sends (htaken.frame.alone halone)
      (htaken.frame.cmd ▸ hdecode) rfl (show u.recvRead.per.txq.length < u.recvRead.depth by rwa [hdepth, hread])
    refine ⟨v, htaken.trans hv, hat, hdp ▸ hnext, ?_⟩
    rw [hper, hecho, ← List.append_assoc, ← htxq]
    show { u.recvRead.per with txq := u.recvRead.per.txq ++ [r.ch] } = _
    rw [hread, hch]
  · rw [hact, applyDecode_ignore] at hexec
    have hleft := reaches_of_exec halone hdecode hseq hexec ((recvRead_frame u).goto _ _) (recvRead_quiet u).completions
    rw [hsame, ← htxq]
    exact ⟨_, hleft, rfl, by rwa [State.goto_dp, recvRead_dp, drByte_cons hrxq], hread⟩

/-- With a line ended by CR waiting and room for its echo a decoder ends, and leaves the characters after the CR in
RXQ (R162, R181). -/
theorem Decoder.ends_line (hi : Decoder i base digit) (cs : List Byte) (halone : u.alone)
    (hdecode : decode u.cmd = .ok i) (hcr : charCR ∉ cs) (hseq : u.seq = .run i.op .rxRead) (hacc : u.dp.Accumulates line)
    (hrxq : u.per.rxq = cs ++ charCR :: rest) (htxq : u.per.txq = q ++ line.2.2)
    (hroom : u.per.txq.length + cs.length ≤ u.depth) :
    ∃ k t, runs k u t ∧ t.seq = .idle ∧
      t.completions = u.completions ++ [(i.op, some (cs.foldl (codecChar base digit) line).1)] ∧
      t.per = { u.per with rxq := rest, txq := q ++ (cs.foldl (codecChar base digit) line).2.2 } := by
  induction cs generalizing u line with
  | nil =>
    have hexec := hi.exec_rxRead hseq
    rw [drByte_cons hrxq, decodeChar_cr rfl, applyDecode_finish] at hexec
    refine ⟨1, _, runs_succ ((step_of_alone halone hdecode hseq).trans hexec) rfl, rfl, ?_, ?_⟩
    · rw [completions_of_trace_cons (State.complete_trace _ _ _), (recvRead_quiet u).completions, recvRead_dp, hacc.acc]
      rfl
    · rw [State.complete_per, recvRead_per, hrxq, List.foldl_nil, ← htxq]
      rfl
  | cons c cs ih =>
    obtain ⟨hc, hcr'⟩ := not_or.1 (mt List.mem_cons.2 hcr)
    rw [htxq, List.length_append, List.length_cons] at hroom
    obtain ⟨v, hv, hpoll, hacc', hper⟩ := hi.takes_char (rest := cs ++ charCR :: rest) halone hdecode hseq hacc
      (Ne.symm hc) hrxq htxq (by rw [htxq, List.length_append]; omega)
    have hreached := hv.trans (recvPoll_reaches hi.receives (hv.frame.alone halone) (hv.frame.cmd ▸ hdecode) hpoll)
    have hat : (v.recvPoll i.op).seq = .run i.op .rxRead := recvPoll_rxRead i.op (by simp [hper])
    have hper' : (v.recvPoll i.op).per =
        { u.per with rxq := cs ++ charCR :: rest, txq := q ++ (codecChar base digit line c).2.2 } := hper
    have hdepth : (v.recvPoll i.op).depth = u.depth := depth_congr (by rw [hper']; rfl) hreached.frame.cfg
    have hgrown : (codecChar base digit line c).2.2.length ≤ line.2.2.length + 1 := codecChar_length_le
    obtain ⟨k, t, hrun, hidle, hdone, ht⟩ := ih (hreached.frame.alone halone) (hreached.frame.cmd ▸ hdecode) hcr' hat
      hacc' (by rw [hper']) (by rw [hper']) (by rw [hdepth, hper', List.length_append]; omega)
    obtain ⟨j, hj⟩ := hreached.run
    exact ⟨j + k, t, runs_trans hj hrun, hidle, by rw [hdone, hreached.completions, List.foldl_cons],
      by rw [ht, hper', List.foldl_cons]⟩

/-- A decoder started with a line ended by CR waiting ends with the accumulator's value. -/
theorem Decoder.ends (hi : Decoder i base digit) (hs : s.unissued) (hstarted : s.started i) {cs : List Byte}
    (hagenda : s.agenda = []) (hcr : charCR ∉ cs) (hrxq : s.per.rxq = cs ++ charCR :: rest)
    (hroom : s.per.txq.length + cs.length ≤ s.depth) :
    ∃ k t, runs k s t ∧ t.seq = .idle ∧
      t.completions = s.completions ++ [(i.op, some (codecLine base digit cs).1)] ∧
      t.per = { s.per with rxq := rest, txq := s.per.txq ++ (codecLine base digit cs).2.2 } := by
  obtain ⟨hok, hfault, -⟩ := hs
  obtain ⟨hseq, hdecode⟩ := hstarted
  have halone : s.alone := ⟨hok, hfault, hagenda⟩
  have hfirst : s.Reaches (({ s with dp := s.dp.clearAcc } : State).recvPoll i.op) :=
    reaches_of_exec halone hdecode hseq (hi.exec_start hseq) (((State.Frame.refl s).withDp _).recvPoll _)
      (busRead_quiet .fr { s with dp := s.dp.clearAcc }).completions
  obtain ⟨k, t, hrun, hidle, hdone, hper⟩ := hi.ends_line (line := (0#32, 0#32, [])) (q := s.per.txq) cs
    (hfirst.frame.alone halone) hdecode hcr (recvPoll_rxRead i.op (by simp [hrxq])) ⟨rfl, rfl⟩ hrxq
    (List.append_nil _).symm hroom
  obtain ⟨j, hj⟩ := hfirst.run
  exact ⟨j + k, t, runs_trans hj hrun, hidle, by rw [hdone, hfirst.completions]; rfl, hper⟩

end Alone

/-- Settles O52: the progress of a decoder along any schedule, and its run with the engine alone. -/
theorem decodersRefineTheAccumulator : Obligations.DecodersRefineTheAccumulator := by
  intro s i base digit hcases hs hstarted
  have hi := Decoder.of_cases hcases
  refine ⟨fun k t hrun => ?schedule, fun cs rest hagenda hcr hrxq hroom => ?ends⟩
  case schedule =>
    obtain ⟨hat, hprogress⟩ := hi.progress hs hstarted hrun
    obtain ⟨-, hfault, -⟩ := hat.unissued
    refine ⟨hfault, hat.mode, hat.mem, ?_⟩
    by_cases hidle : t.seq = .idle
    · obtain ⟨cs, hcr, hobs⟩ := hprogress.of_idle hidle
      exact ⟨cs, hcr, fun hbusy => absurd hidle hbusy,
        fun _ => ⟨hobs.received.trans (List.append_assoc _ _ _).symm, hobs.sent, hobs.completions⟩⟩
    · obtain ⟨cs, said, hcr, hobs, hsaid⟩ := hprogress.of_busy hidle
      refine ⟨cs, hcr, fun _ => ⟨hobs.received, ?_, ?_⟩, fun h => absurd h hidle⟩
      · rw [hobs.completions, List.append_nil]
      · exact hsaid.imp (by rintro rfl; exact hobs.sent) (by rintro rfl; exact hobs.sent)
  case ends =>
    obtain ⟨k, t, hrun, hidle, -, hper⟩ := hi.ends hs hstarted hagenda hcr hrxq hroom
    exact ⟨k, t, hrun, hidle, hper⟩

end Sys2Proof.Machine
end

section
/-! PROOF. A whole ENCDEC and a whole ENCHEX, and the round trip (spec/42_decimal_codec.md R165 to R167,
spec/43_hex_codec.md R184 to R186): the characters sent are those of the source's recursive emitter, and a decoder
makes the number of them again. -/

namespace Sys2Proof.Machine

/-! ### The recursive emitter (R166) -/

/-- With a bound that allows for all digits, the recursive emitter gives the digits' characters, most significant
first. -/
theorem emitDigits_eq {base : Nat} (hb : 2 ≤ base) (char : Nat → Byte) {k n : Nat} (hk : 1 ≤ k) (hn : n < base ^ k) :
    emitDigits base char k n = ((digitList base n).map char).reverse := by
  induction k generalizing n with
  | zero => omega
  | succ k ih =>
    rw [emitDigits]
    split
    next hlt => simp [digitList_of_div_eq_zero hb (Nat.div_eq_of_lt hlt), Nat.mod_eq_of_lt hlt]
    next hge =>
      have hquot : n / base ≠ 0 := (Nat.div_pos (not_lt.1 hge) (by omega)).ne'
      have hk' : 1 ≤ k := Nat.one_le_iff_ne_zero.2 fun h0 => hge (by simpa [h0] using hn)
      rw [ih hk' (Nat.div_lt_of_lt_mul (by rwa [← Nat.pow_succ'])), digitList_of_div_ne_zero hb hquot, List.map_cons,
        List.reverse_cons]

section Emitter

variable {n : Word}

theorem digitChars_congr {base : Nat} {char : Nibble → Byte} {char' : Nat → Byte} (hb : 2 ≤ base)
    (h : ∀ d < base, char' d = char (BitVec.ofNat 4 d)) :
    ((digitList base n.toNat).map char').reverse = digitChars base char n :=
  congrArg List.reverse (List.map_congr_left fun d hd => h d (digitList_lt_base hb hd))

theorem decimalChars_eq (n : Word) : decimalChars n = digitChars 10 decChar n := by
  rw [decimalChars, emitDigits_eq (by decide) _ (by decide) (n.isLt.trans (by decide))]
  exact digitChars_congr (by decide) (by decide)

theorem hexChars_eq (n : Word) : hexChars n = digitChars 16 hexChar n := by
  rw [hexChars, emitDigits_eq (by decide) _ (by decide) (n.isLt.trans_le (by decide))]
  exact digitChars_congr (by decide) (by decide)

end Emitter

/-! ### Whatever the schedule -/

section Run

variable {i : Instr} {n : Word} {base : Nat} {char : Nibble → Byte} {s t u v : State}

theorem Encoder.op_eq (hi : Encoder i n base char) : i.op = .encdec ∨ i.op = .enchex := by
  cases hi
  · exact .inl rfl
  · exact .inr rfl

theorem Encoder.sends (hi : Encoder i n base char) : i.op.sends = true := by
  cases hi <;> rfl

/-- Since `s` an encoder has received nothing, has only added to what was sent, and has posted its completion if it
has ended. -/
structure EncoderObserved (i : Instr) (s t : State) : Prop where
  received : t.received = s.received
  sent : s.sent <+: t.sent
  completions : t.completions = s.completions ++ if t.seq = .idle then [(i.op, none)] else []

theorem EncoderObserved.unmoved (h : EncoderObserved i s t) (hu : t.Unmoved u) : EncoderObserved i s u :=
  ⟨hu.received.trans h.received, hu.sent ▸ h.sent, by rw [hu.completions, hu.seq, h.completions]⟩

/-- The one access of DR an encoder makes is SEND's write. -/
theorem EncoderObserved.encoderStep (hi : Encoder i n base char) (h : EncoderObserved i s u) (hbusy : u.seq ≠ .idle)
    (hread : u.seq ≠ .run i.op .rxRead) :
    EncoderObserved i s (u.encoderStep i.op (BitVec.ofNat 32 base) char n) := by
  obtain ⟨w, haccess, hline, -⟩ := encoderStep_engineStep u i.op (BitVec.ofNat 32 base) char n
  have hdone := h.completions
  rw [if_neg hbusy, List.append_nil] at hdone
  have hresult (r : Datapath) : r.result i.op = none := by cases hi <;> rfl
  obtain ⟨hreceived, hsent⟩ : w.received = u.received ∧ u.sent <+: w.sent := by
    cases haccess with
    | none => exact ⟨rfl, List.prefix_rfl⟩
    | receives hseq => exact absurd hseq hread
    | sends => exact ⟨sendWrite_received u, by rw [sendWrite_sent]; exact List.prefix_append _ _⟩
    | configures _ _ _ hop => cases hi <;> cases hop
  refine ⟨hline.received.trans (hreceived.trans h.received), hline.sent ▸ h.sent.trans hsent, ?_⟩
  rcases (encoderStep_endsStep hi.op_eq (BitVec.ofNat 32 base) char n).posts hbusy with ⟨hseq, hposts⟩ | ⟨hseq, hposts⟩
  · rw [if_neg hseq, hposts, hdone, List.append_nil]
  · rw [if_pos hseq, hposts, hdone, hresult]

theorem EncoderProgress.not_receiving {before : List Byte} (h : EncoderProgress i n base char before u) :
    u.seq ≠ .run i.op .rxRead := fun hread => by
  cases h with
  | starting hseq => exact nomatch hread.symm.trans hseq
  | sending hseq => exact hseq.elim (nomatch hread.symm.trans ·) (nomatch hread.symm.trans ·)
  | ended hseq => exact nomatch hread.symm.trans hseq

/-- Whatever the schedule, an encoder's run stands somewhere in its progress. -/
theorem Encoder.progress (hi : Encoder i n base char) (hs : s.unissued) (hstarted : s.started i) {k : Nat}
    (hrun : runs k s t) : s.RunOf i t ∧ EncoderProgress i n base char s.sent t ∧ EncoderObserved i s t := by
  obtain ⟨hseq, hcmd⟩ := hstarted
  refine runOf_induction (P := fun u => EncoderProgress i n base char s.sent u ∧ EncoderObserved i s u)
    (fun u v hu ⟨hp, hobs⟩ => ⟨hp.congr hu.seq hu.dp hu.sent, hobs.unmoved hu⟩) (fun u v _ ⟨hp, hobs⟩ hbusy hexec => ?_)
    hs hcmd ⟨.starting hseq rfl, rfl, List.prefix_rfl, by simp [hseq]⟩ hrun
  rw [hi.exec_eq] at hexec
  obtain rfl := Host.Outcome.next.inj hexec
  obtain ⟨hf, hp'⟩ := hp.encoderStep hi hbusy
  exact ⟨hf, hp', hobs.encoderStep hi hbusy hp.not_receiving⟩

/-- What has been sent is the first part of what was sent before and the characters of the encoder's operand. -/
theorem EncoderProgress.sent_prefix {before : List Byte} (h : EncoderProgress i n base char before t) :
    t.sent <+: before ++ digitChars base char n := by
  cases h with
  | starting _ hsent => exact hsent ▸ List.prefix_append _ _
  | sending _ _ hsent => exact hsent ▸ List.prefix_append _ _
  | ended _ hsent => exact hsent ▸ List.prefix_rfl

theorem sent_take {before sent chars : List Byte} (hgrown : before <+: sent) (hprefix : sent <+: before ++ chars) :
    ∃ m, sent = before ++ chars.take m := by
  obtain ⟨said, rfl⟩ := hgrown
  have hsaid : said <+: chars := (List.prefix_append_right_inj before).1 hprefix
  exact ⟨said.length, congrArg (before ++ ·) (List.prefix_iff_eq_take.1 hsaid)⟩

end Run

/-! ### With no other agent moving -/

section Alone

variable {i : Instr} {n : Word} {base : Nat} {char : Nibble → Byte} {s u : State}

/-- With room in TXQ for CH and the next digit's character, an encoder writes CH and comes to the write of the next
(R165, R185). -/
theorem Encoder.sends_char (hi : Encoder i n base char) (halone : u.alone) (hdecode : decode u.cmd = .ok i)
    (hseq : u.seq = .run i.op .txWrite) (hne : u.dp.dcnt ≠ 0#4) (hroom : u.per.txq.length + 1 < u.depth) :
    ∃ v, u.Reaches v ∧ v.seq = .run i.op .txWrite ∧ v.dp = u.dp.popDigit char ∧
      v.per = { u.per with txq := u.per.txq ++ [u.dp.ch] } := by
  have hexec := (hi.exec_eq u).trans (congrArg _ (encoderStep_txWrite hseq))
  rw [sendWrite_dp, if_neg hne, sendWrite_room (by omega)] at hexec
  have hwrote := reaches_of_exec halone hdecode hseq hexec ⟨rfl, rfl, rfl, rfl, rfl, rfl⟩
    (completions_of_trace_cons (s := u) rfl |>.trans (List.append_nil _))
  have hpolled := sendPoll_reaches hi.sends (hwrote.frame.alone halone) hdecode rfl
  refine ⟨_, hwrote.trans hpolled, sendPoll_txWrite i.op ?_, rfl, rfl⟩
  show (u.per.txq ++ [u.dp.ch]).length < u.depth
  rwa [List.length_append]

/-- With the engine alone and room in TXQ an encoder at its DR write sends CH and the digits left in the buffer, and
ends (R165, R185). -/
theorem Encoder.sends_rest (hi : Encoder i n base char) (rest : List Byte) (halone : u.alone)
    (hdecode : decode u.cmd = .ok i) (hseq : u.seq = .run i.op .txWrite) (hfits : u.dp.dcnt.toNat ≤ 10)
    (hrest : u.dp.toSend char = rest) (hroom : u.per.txq.length + rest.length < u.depth) :
    ∃ k t, runs k u t ∧ t.seq = .idle ∧ t.per = { u.per with txq := u.per.txq ++ u.dp.ch :: rest } := by
  induction rest generalizing u with
  | nil =>
    have h0 : u.dp.dcnt = 0#4 := by
      by_contra hne
      exact List.cons_ne_nil _ _ ((Datapath.toSend_popDigit char hne hfits).trans hrest)
    have hexec := (hi.exec_eq u).trans (congrArg _ (encoderStep_txWrite hseq))
    rw [sendWrite_dp, if_pos h0, sendWrite_room hroom] at hexec
    exact ⟨1, _, runs_succ ((step_of_alone halone hdecode hseq).trans hexec) rfl, rfl, rfl⟩
  | cons c rest ih =>
    have hne : u.dp.dcnt ≠ 0#4 := fun h0 => nomatch hrest.symm.trans (Datapath.toSend_of_dcnt_zero char h0)
    obtain ⟨hch, hnext⟩ := List.cons.inj ((Datapath.toSend_popDigit char hne hfits).trans hrest)
    have hpop := Datapath.popDigit_dcnt_toNat char hne
    rw [List.length_cons] at hroom
    obtain ⟨v, hv, hat, hdp, hper⟩ := hi.sends_char halone hdecode hseq hne (by omega)
    have hdepth : v.depth = u.depth := depth_congr (by rw [hper]; rfl) hv.frame.cfg
    obtain ⟨k, t, hrun, hidle, ht⟩ := ih (hv.frame.alone halone) (hv.frame.cmd ▸ hdecode) hat (by rw [hdp]; omega)
      (hdp ▸ hnext) (by rw [hdepth, hper, List.length_append, List.length_singleton]; omega)
    obtain ⟨j, hj⟩ := hv.run
    refine ⟨j + k, t, runs_trans hj hrun, hidle, ?_⟩
    rw [ht, hper, hdp, hch, List.append_assoc]
    rfl

/-- An encoder started with room in TXQ for all its characters ends. -/
theorem Encoder.ends (hi : Encoder i n base char) (hs : s.unissued) (hstarted : s.started i) (hagenda : s.agenda = [])
    (hroom : s.per.txq.length + (digitChars base char n).length ≤ s.depth) :
    ∃ k t, runs k s t ∧ t.seq = .idle ∧
      t.per = { s.per with txq := s.per.txq ++ digitChars base char n } := by
  obtain ⟨hok, hfault, -⟩ := hs
  obtain ⟨hseq, hdecode⟩ := hstarted
  have halone : s.alone := ⟨hok, hfault, hagenda⟩
  obtain ⟨-, hfits, -⟩ := Datapath.loadNumber_spec hi.base_eq n s.dp
  have hne := hi.loaded_dcnt_ne_zero s.dp
  have hpop := Datapath.popDigit_dcnt_toNat char hne
  have hchars := (Datapath.toSend_popDigit char hne hfits).trans (Datapath.toSend_loadNumber hi.base_eq char n s.dp)
  have hexec := (hi.exec_eq s).trans (congrArg _ (encoderStep_start (base := BitVec.ofNat 32 base) (char := char)
    (n := n) hseq))
  generalize s.dp.loadNumber (BitVec.ofNat 32 base) n = r at *
  have hfirst := reaches_of_exec halone hdecode hseq hexec ⟨rfl, rfl, rfl, rfl, rfl, rfl⟩
    (busRead_quiet .fr { s with dp := r.popDigit char }).completions
  rw [← hchars, List.length_cons] at hroom
  obtain ⟨k, t, hrun, hidle, hper⟩ := hi.sends_rest _ (hfirst.frame.alone halone) hdecode
    (sendPoll_txWrite i.op (s := { s with dp := r.popDigit char }) (show s.per.txq.length < s.depth by omega))
    (show (r.popDigit char).dcnt.toNat ≤ 10 by omega) rfl hroom
  obtain ⟨j, hj⟩ := hfirst.run
  exact ⟨j + k, t, runs_trans hj hrun, hidle, hchars ▸ hper⟩

end Alone

/-- Settles O53: the progress of an encoder along any schedule, and its run with the engine alone; the digits it sends
are the recursive emitter's. -/
theorem encodersAgreeWithTheRecursiveEmitter : Obligations.EncodersAgreeWithTheRecursiveEmitter := by
  intro s n i chars hcases hs hstarted
  obtain ⟨base, char, hi, rfl⟩ : ∃ base char, Encoder i n base char ∧ chars = digitChars base char n := by
    rcases hcases with ⟨rfl, rfl⟩ | ⟨rfl, rfl⟩
    · exact ⟨_, _, .decimal n, decimalChars_eq n⟩
    · exact ⟨_, _, .hexadecimal n, hexChars_eq n⟩
  refine ⟨fun k t hrun => ?schedule, hi.ends hs hstarted⟩
  case schedule =>
    obtain ⟨hat, hprogress, hobs⟩ := hi.progress hs hstarted hrun
    obtain ⟨-, hfault, -⟩ := hat.unissued
    have hdone := hobs.completions
    refine ⟨hfault, hat.mode, hat.mem, hobs.received, fun hbusy => ⟨sent_take hobs.sent hprogress.sent_prefix, ?_⟩,
      fun hidle => ⟨hi.sent_of_ended hs hstarted hrun hidle, ?_⟩⟩
    · rwa [if_neg hbusy, List.append_nil] at hdone
    · rwa [if_pos hidle] at hdone

/-! ### The round trip (R167, R186) -/

/-- The digit class of the decoder gives each of the encoder's digit characters its value. -/
def Inverts (base : Nat) (char : Nibble → Byte) (digit : Byte → Option Word) : Prop :=
  ∀ d < base, digit (char (BitVec.ofNat 4 d)) = some (BitVec.ofNat 32 d)

theorem digit10_inverts : Inverts 10 decChar digit10 := by
  unfold Inverts
  decide

theorem digit16_inverts : Inverts 16 hexChar digit16 := by
  unfold Inverts
  decide

section RoundTrip

variable {base : Nat} {char : Nibble → Byte} {digit : Byte → Option Word}

/-- The accumulator over the characters of digits, most significant first, holds the number they write, modulo 2^32,
and echoes them all. -/
theorem codecLine_digits (h : Inverts base char digit) (ds : List Nat) (hds : ∀ d ∈ ds, d < base) :
    codecLine (BitVec.ofNat 32 base) digit (ds.map fun d => char (BitVec.ofNat 4 d)).reverse =
      (BitVec.ofNat 32 (Nat.ofDigits base ds), BitVec.ofNat 32 ds.length,
        (ds.map fun d => char (BitVec.ofNat 4 d)).reverse) := by
  induction ds with
  | nil => rfl
  | cons d ds ih =>
    rw [List.map_cons, List.reverse_cons, codecLine_concat, ih fun x hx => hds x (List.mem_cons_of_mem d hx), codecChar,
      h d (hds d List.mem_cons_self), Nat.ofDigits_cons, List.length_cons]
    simp [BitVec.ofNat_add, BitVec.ofNat_mul, BitVec.mul_comm, BitVec.add_comm]

theorem ofDigits_digitList (base n : Nat) : Nat.ofDigits base (digitList base n) = n := by
  by_cases hn : n = 0
  · simp [hn, digitList_zero]
  · rw [digitList_of_ne_zero base hn, Nat.ofDigits_digits]

/-- A decoder's accumulator makes the number of its characters again, and echoes them all. -/
theorem codecLine_digitChars (hb : 2 ≤ base) (h : Inverts base char digit) (n : Word) :
    (codecLine (BitVec.ofNat 32 base) digit (digitChars base char n)).1 = n ∧
    (codecLine (BitVec.ofNat 32 base) digit (digitChars base char n)).2.2 = digitChars base char n := by
  rw [digitChars, codecLine_digits h _ fun d => digitList_lt_base hb, ofDigits_digitList, BitVec.ofNat_toNat,
    BitVec.setWidth_eq]
  exact ⟨rfl, rfl⟩

/-- CR is no digit's character, so it ends none of an encoder's outputs early. -/
theorem cr_not_mem_digitChars {i : Instr} {n : Word} (hi : Encoder i n base char) : charCR ∉ digitChars base char n :=
  fun hcr => by
    rcases hi.digitChars_range hcr with ⟨h, -⟩ | ⟨-, h, -⟩ <;> exact absurd h (by decide)

end RoundTrip

/-- Settles O54: a decoder that has received the encoder's characters and CR stands at the end of that line, whose
value and echo the accumulator gives. -/
theorem decodingUndoesEncoding : Obligations.DecodingUndoesEncoding := by
  intro s t k n enc dec chars hcases hs hstarted hrun hidle hsent u hu hdec
  obtain ⟨base, char, digit, he, hd, hinv⟩ : ∃ base char digit, Encoder enc n base char ∧
      Decoder dec (BitVec.ofNat 32 base) digit ∧ Inverts base char digit := by
    rcases hcases with ⟨rfl, rfl⟩ | ⟨rfl, rfl⟩
    · exact ⟨10, _, _, .decimal n, .decimal, digit10_inverts⟩
    · exact ⟨16, _, _, .hexadecimal n, .hexadecimal, digit16_inverts⟩
  obtain rfl : chars = digitChars base char n :=
    List.append_cancel_left (hsent.symm.trans (he.sent_of_ended hs hstarted hrun hidle))
  obtain ⟨hvalue, hecho⟩ := codecLine_digitChars he.two_le_base hinv n
  refine ⟨fun j v hrun' hidle' hreceived => ?ended, fun rest hagenda hrxq hroom => ?ends⟩
  case ended =>
    obtain ⟨-, hprogress⟩ := hd.progress hu hdec hrun'
    obtain ⟨cs, -, hobs⟩ := hprogress.of_idle hidle'
    obtain rfl : cs = digitChars base char n := by
      have hline := hobs.received.symm.trans hreceived
      rw [List.append_assoc] at hline
      exact List.append_cancel_right (List.append_cancel_left hline)
    rw [hvalue, hecho] at hobs
    exact ⟨hobs.sent, hobs.completions⟩
  case ends =>
    obtain ⟨j, v, hrun', hidle', hdone, hper⟩ := hd.ends hu hdec hagenda (cr_not_mem_digitChars he) hrxq hroom
    rw [hvalue] at hdone
    rw [hecho] at hper
    exact ⟨j, v, hrun', hidle', hdone, hper⟩

end Sys2Proof.Machine
end

section
/-! PROOF. The line editor character by character (spec/44_line_editor.md R200 to R203): RDLINE's table, the line that
its registers and its buffer hold, and what a character and a store make of it. -/

namespace Sys2Proof.Machine

/-! ### The table (R202) -/

section Table

variable {c : Byte} {len maxl : Half}

theorem lineChar_cr (hc : c = charCR) : lineChar c len maxl = .terminate := if_pos hc

theorem lineChar_backspace (hc : c = charBS) (hlen : len ≠ 0#16) : lineChar c len maxl = .erase := by
  subst hc
  simp [lineChar, hlen, show charBS ≠ charCR by decide]

theorem lineChar_backspace_empty (hc : c = charBS) (hlen : len = 0#16) : lineChar c len maxl = .drop := by
  subst hc
  simp [lineChar, hlen, show charBS ≠ charCR by decide]

theorem lineChar_room (hcr : c ≠ charCR) (hbs : c ≠ charBS) (hlen : len < maxl) : lineChar c len maxl = .store := by
  simp [lineChar, hcr, hbs, hlen]

theorem lineChar_full (hcr : c ≠ charCR) (hbs : c ≠ charBS) (hlen : ¬ len < maxl) : lineChar c len maxl = .drop := by
  simp [lineChar, hcr, hbs, hlen]

end Table

/-- RDLINE's DR read acts on the byte it latches (R201, R202). -/
theorem exec_rdline_reads {s : State} {a : Word} {max : Half} (hseq : s.seq = .run .rdline .rxRead) :
    exec (.rdline a max) s = .next (s.recvRead.applyLine (lineChar s.drByte s.dp.len s.dp.maxl)) := by
  rw [exec_rdline_rxRead hseq, recvRead_dp]

/-- Settles O45: the DR read takes the head of RXQ, and the rest of the step is its row of the table. -/
theorem rdlineFollowsItsTable : Obligations.RdlineFollowsItsTable := by
  intro s a max c rest hseq hq read
  have hstep := exec_rdline_reads (a := a) (max := max) hseq
  rw [drByte_cons hq, recvRead_cons hq] at hstep
  refine ⟨fun hc => ?cr, fun hc hlen => ?backspace, fun hc hlen => ?empty, fun hcr hbs hlen => ?room,
    fun hcr hbs hlen => ?full⟩
  case cr =>
    rw [lineChar_cr hc] at hstep
    exact hstep
  case backspace =>
    rw [lineChar_backspace hc hlen] at hstep
    exact hstep
  case empty =>
    rw [lineChar_backspace_empty hc hlen] at hstep
    exact hstep
  case room =>
    rw [lineChar_room hcr hbs hlen] at hstep
    exact hstep
  case full =>
    rw [lineChar_full hcr hbs hlen] at hstep
    exact hstep

/-! ### The line in the registers (R200, R201) -/

/-- BUFA and MAXL hold RDLINE's operands, and LEN the length of the line. -/
structure Datapath.Edits (r : Datapath) (a : Word) (max : Half) (line : List Byte) : Prop where
  bufa : r.bufa = a
  maxl : r.maxl = max
  len : r.len.toNat = line.length

section Line

variable {r : Datapath} {a : Word} {max : Half} {line cs : List Byte} {c : Byte}

theorem Datapath.Edits.withCh (h : r.Edits a max line) (c : Byte) : ({ r with ch := c } : Datapath).Edits a max line :=
  ⟨h.bufa, h.maxl, h.len⟩

/-- The next store goes after the line's last character (R201). -/
theorem Datapath.Edits.lineAddr (h : r.Edits a max line) : r.lineAddr = a + BitVec.ofNat 32 line.length := by
  rw [Datapath.lineAddr, h.bufa, ← h.len, BitVec.ofNat_toNat]

/-- Where every byte of the buffer is admitted, so is the next store (R200, R203). -/
theorem Datapath.Edits.admitted {cfg : Params} (h : r.Edits a max line)
    (hadm : ∀ k, k ≤ max.toNat → cfg.admits (a + BitVec.ofNat 32 k) = true) (hlen : line.length ≤ max.toNat) :
    cfg.admits r.lineAddr = true := by
  rw [h.lineAddr]
  exact hadm _ hlen

/-- LEN counts a character stored where there is room for it. -/
theorem Datapath.Edits.extend (h : r.Edits a max line) (hroom : (line ++ [c]).length ≤ max.toNat) :
    ({ r with len := r.len + 1#16 } : Datapath).Edits a max (line ++ [c]) := by
  refine ⟨h.bufa, h.maxl, ?_⟩
  have hlen := h.len
  have := max.isLt
  rw [List.length_append, List.length_singleton] at hroom ⊢
  show (r.len + 1#16).toNat = _
  bv_omega

/-- A backspace takes the last character off the line (R202). -/
theorem Datapath.Edits.erase (h : r.Edits a max line) (hne : line ≠ []) :
    ({ r with len := r.len - 1#16 } : Datapath).Edits a max line.dropLast := by
  refine ⟨h.bufa, h.maxl, ?_⟩
  have hlen := h.len
  have := List.length_pos_iff.2 hne
  rw [List.length_dropLast]
  show (r.len - 1#16).toNat = _
  bv_omega

theorem editLine_concat (m : Nat) (cs : List Byte) (c : Byte) :
    editLine m (cs ++ [c]) = lineStep m (editLine m cs) c := by
  rw [editLine, editLine, List.foldl_concat]

/-- What the line editor can do with a character: erase with it, take it where there is room, or leave it. -/
theorem editor_lineStep_cases (m : Nat) (st : List Byte × List Byte) (c : Byte) :
    lineStep m st c = (st.1.dropLast, st.2 ++ [c]) ∨
    (st.1.length < m ∧ lineStep m st c = (st.1 ++ [c], st.2 ++ [c])) ∨ lineStep m st c = st := by
  unfold lineStep
  split
  · split
    · exact .inr (.inr rfl)
    · exact .inl rfl
  · split
    next hroom => exact .inr (.inl ⟨hroom, rfl⟩)
    next => exact .inr (.inr rfl)

/-- The line never outgrows MAXL (R200). -/
theorem editLine_length_le (m : Nat) (cs : List Byte) : (editLine m cs).1.length ≤ m := by
  induction cs using List.reverseRecOn with
  | nil => exact Nat.zero_le m
  | append_singleton cs c ih =>
    rw [editLine_concat]
    rcases editor_lineStep_cases m (editLine m cs) c with h | ⟨hroom, h⟩ | h <;> rw [h]
    · exact (List.dropLast_sublist _).length_le.trans ih
    · rw [List.length_append, List.length_singleton]
      exact hroom
    · exact ih

/-- A character adds at most itself to the echo. -/
theorem editLine_echo_length_le (m : Nat) (cs : List Byte) (c : Byte) :
    (editLine m (cs ++ [c])).2.length ≤ (editLine m cs).2.length + 1 := by
  rw [editLine_concat]
  rcases editor_lineStep_cases m (editLine m cs) c with h | ⟨-, h⟩ | h <;> rw [h]
  · exact List.length_append.le
  · exact List.length_append.le
  · exact Nat.le_succ _

/-- Before CR, RDLINE does with a character what the line editor does: both erase and echo it, both take and echo it,
or both leave it (R201, R202). -/
theorem lineChar_editLine (hc : c ≠ charCR) (h : r.Edits a max (editLine max.toNat cs).1) :
    (lineChar c r.len r.maxl = .erase ∧
      ({ r with len := r.len - 1#16 } : Datapath).Edits a max (editLine max.toNat cs).1.dropLast ∧
      editLine max.toNat (cs ++ [c]) = ((editLine max.toNat cs).1.dropLast, (editLine max.toNat cs).2 ++ [c])) ∨
    (lineChar c r.len r.maxl = .store ∧
      editLine max.toNat (cs ++ [c]) = ((editLine max.toNat cs).1 ++ [c], (editLine max.toNat cs).2 ++ [c])) ∨
    (lineChar c r.len r.maxl = .drop ∧ editLine max.toNat (cs ++ [c]) = editLine max.toNat cs) := by
  have hempty : r.len = 0#16 ↔ (editLine max.toNat cs).1 = [] := by
    rw [← List.length_eq_zero_iff, ← h.len, ← BitVec.toNat_inj]
    rfl
  have hroom : r.len < r.maxl ↔ (editLine max.toNat cs).1.length < max.toNat := by
    rw [h.maxl, BitVec.lt_def, h.len]
  rw [editLine_concat, lineStep]
  by_cases hbs : c = charBS
  · rw [if_pos hbs]
    by_cases hlen : r.len = 0#16
    · rw [if_pos (hempty.1 hlen)]
      exact .inr (.inr ⟨lineChar_backspace_empty hbs hlen, rfl⟩)
    · rw [if_neg (mt hempty.2 hlen)]
      exact .inl ⟨lineChar_backspace hbs hlen, h.erase (mt hempty.2 hlen), rfl⟩
  · rw [if_neg hbs]
    by_cases hlen : r.len < r.maxl
    · rw [if_pos (hroom.1 hlen)]
      exact .inr (.inl ⟨lineChar_room hc hbs hlen, rfl⟩)
    · rw [if_neg (mt hroom.2 hlen)]
      exact .inr (.inr ⟨lineChar_full hc hbs hlen, rfl⟩)

end Line

/-! ### The line in memory (R67, R68, R203) -/

/-- The characters stand in memory from the address on, wherever it lies modulo 2^32. -/
def State.Holds (s : State) (a : Word) (chars : List Byte) : Prop :=
  ∀ k, (h : k < chars.length) → s.byteAt (a + BitVec.ofNat 32 k) = chars[k]

section Memory

variable {s t : State} {a : Word} {b : Byte} {chars : List Byte}

theorem offset_ne {j k : Nat} (hjk : j < k) (hk : k < 2 ^ 32) : a + BitVec.ofNat 32 j ≠ a + BitVec.ofNat 32 k := by
  intro h
  have hoffset := congrArg BitVec.toNat (BitVec.add_right_inj a |>.1 h)
  rw [BitVec.toNat_ofNat, BitVec.toNat_ofNat, Nat.mod_eq_of_lt hk, Nat.mod_eq_of_lt (hjk.trans hk)] at hoffset
  omega

/-- A store just after the line leaves the line alone. -/
theorem State.Holds.write {max : Half} (h : s.Holds a chars) (hlen : chars.length ≤ max.toNat)
    (hwf : Memory.wf s.mem = true)
    (hmem : t.mem = Memory.write (a + BitVec.ofNat 32 chars.length).toNat b s.mem) :
    t.Holds a chars ∧ t.byteAt (a + BitVec.ofNat 32 chars.length) = b := by
  have hlt : chars.length < 2 ^ 32 := by
    have := max.isLt
    omega
  refine ⟨fun k hk => ?_, ?_⟩
  · rw [byteAt_of_mem_write hmem (offset_ne hk hlt), h k hk]
  · rw [State.byteAt, hmem, Memory.read_write_same hwf]

theorem State.Holds.concat (h : s.Holds a chars) (hb : s.byteAt (a + BitVec.ofNat 32 chars.length) = b) :
    s.Holds a (chars ++ [b]) := by
  intro k hk
  rw [List.length_append, List.length_singleton] at hk
  rcases Nat.lt_succ_iff_lt_or_eq.1 hk with hlt | rfl
  · rw [List.getElem_append_left hlt, h k hlt]
  · rw [List.getElem_concat_length rfl, hb]

theorem State.Holds.dropLast (h : s.Holds a chars) : s.Holds a chars.dropLast := by
  intro k hk
  rw [List.getElem_dropLast]
  exact h k _

theorem State.Holds.congr (h : s.Holds a chars) (hmem : t.mem = s.mem) : t.Holds a chars := by
  intro k hk
  rw [State.byteAt, hmem]
  exact h k hk

end Memory

section Stores

variable {s : State}

/-- At an admitted address RDLINE stores CH, counts it and goes on to its echo (R201). -/
theorem storeLineChar_admitted (h : s.cfg.admits s.dp.lineAddr = true) :
    s.storeLineChar =
      ({ s with
          mem := Memory.write s.dp.lineAddr.toNat s.dp.ch s.mem
          dp := { s.dp with len := s.dp.len + 1#16 }
          trace := .memWr s.dp.lineAddr s.dp.ch :: s.trace } : State).goto .rdline .txPoll := by
  obtain ⟨-, hstore⟩ := (storeLineChar_cases s).resolve_left fun ⟨hno, _⟩ => nomatch h.symm.trans hno
  exact hstore

/-- At an admitted address RDLINE stores the terminator and completes (R201). -/
theorem terminateLine_admitted (h : s.cfg.admits s.dp.lineAddr = true) :
    s.terminateLine =
      (({ s with mem := Memory.write s.dp.lineAddr.toNat charNUL s.mem } : State).record
        (.memWr s.dp.lineAddr charNUL)).complete .rdline none := by
  obtain ⟨-, hterm⟩ := (terminateLine_cases s).resolve_left fun ⟨hno, _⟩ => nomatch h.symm.trans hno
  exact hterm

end Stores

end Sys2Proof.Machine
end

section
/-! PROOF. A whole RDLINE (spec/44_line_editor.md R200 to R205): the edited line wherever the run stands, and that it
ends where a line and room for its echo wait. -/

namespace Sys2Proof.Machine

/-! ### A run that stores in its buffer -/

/-- The run of RDLINE that began at `s` without an issue has come to `t`: CMD still holds the command, no fault is
raised, MODE and the configuration are as they were, and so is memory outside the buffer (R203). -/
structure State.LineRun (s : State) (a : Word) (max : Half) (t : State) : Prop where
  unissued : t.unissued
  command : decode t.cmd = .ok (.rdline a max)
  mode : t.mode = s.mode
  cfg : t.cfg = s.cfg
  canonical : Memory.wf t.mem = true
  outside : ∀ x : Word, (∀ k, k ≤ max.toNat → x ≠ a + BitVec.ofNat 32 k) → t.byteAt x = s.byteAt x

section LineRun

variable {s t u : State} {a : Word} {max : Half} {b : Byte} {k : Nat}

theorem State.LineRun.frame (h : s.LineRun a max t) (hf : t.Frame u) : s.LineRun a max u where
  unissued := hf.unissued h.unissued
  command := hf.cmd ▸ h.command
  mode := hf.mode.trans h.mode
  cfg := hf.cfg.trans h.cfg
  canonical := hf.mem ▸ h.canonical
  outside x hx := by
    rw [State.byteAt, hf.mem]
    exact h.outside x hx

theorem State.LineRun.takeTurn (h : s.LineRun a max t) : s.LineRun a max t.takeTurn :=
  ⟨h.unissued.takeTurn, h.command, h.mode, h.cfg, h.canonical, h.outside⟩

/-- A store in the buffer, with no other change that the run speaks of, keeps it (R67, R203). -/
theorem State.LineRun.store (h : s.LineRun a max t) (hk : k ≤ max.toNat) (hf : t.Frame { u with mem := t.mem })
    (hmem : u.mem = Memory.write (a + BitVec.ofNat 32 k).toNat b t.mem) : s.LineRun a max u where
  unissued := hf.unissued h.unissued
  command := (congrArg decode hf.cmd).trans h.command
  mode := hf.mode.trans h.mode
  cfg := hf.cfg.trans h.cfg
  canonical := hmem ▸ Memory.wf_write b h.canonical (BitVec.isLt _)
  outside x hx := (byteAt_of_mem_write hmem (hx k hk)).trans (h.outside x hx)

/-- A store is neither received, sent nor posted (R125). -/
theorem State.Observed.memWr {heard said : List Byte} {posts : List (Op × Option Word)}
    (h : s.Observed t heard said posts) (m : Memory) (x : Word) (b : Byte) :
    s.Observed (({ t with mem := m } : State).record (.memWr x b)) heard said posts :=
  have htrace := State.record_trace { t with mem := m } (.memWr x b)
  h.congr (received_of_silent (s := t) htrace rfl rfl) (sent_of_silent (s := t) htrace rfl rfl)
    ((completions_of_trace_cons (s := t) htrace).trans (List.append_nil _))

end LineRun

/-! ### Whatever the schedule -/

section Progress

variable {s t u v : State} {a : Word} {max : Half} {cs : List Byte}

/-- How far an RDLINE that began at `s` has come, with `cs` received before CR: it has yet to start; it receives the
next character, with `cs` echoed; it stores the last of `cs`, which stands in CH, or echoes it; CR has come, and it
writes the terminator; or it has ended. -/
inductive LineProgress (a : Word) (max : Half) (s t : State) : Prop where
  | starting (hseq : t.seq = .run .rdline .start) (hobs : s.Observed t [] [] [])
  | receiving (cs : List Byte) (hcr : charCR ∉ cs) (hseq : t.seq = .run .rdline .rxPoll ∨ t.seq = .run .rdline .rxRead)
      (hregs : t.dp.Edits a max (editLine max.toNat cs).1) (hbytes : t.Holds a (editLine max.toNat cs).1)
      (hobs : s.Observed t cs (editLine max.toNat cs).2 [])
  | storing (cs kept said : List Byte) (hcr : charCR ∉ cs) (hseq : t.seq = .run .rdline .lineStore)
      (hregs : t.dp.Edits a max kept) (hbytes : t.Holds a kept)
      (hedit : editLine max.toNat cs = (kept ++ [t.dp.ch], said ++ [t.dp.ch])) (hobs : s.Observed t cs said [])
  | echoing (cs said : List Byte) (hcr : charCR ∉ cs)
      (hseq : t.seq = .run .rdline .txPoll ∨ t.seq = .run .rdline .txWrite)
      (hregs : t.dp.Edits a max (editLine max.toNat cs).1) (hbytes : t.Holds a (editLine max.toNat cs).1)
      (hecho : (editLine max.toNat cs).2 = said ++ [t.dp.ch]) (hobs : s.Observed t cs said [])
  | terminating (cs : List Byte) (hcr : charCR ∉ cs) (hseq : t.seq = .run .rdline .lineTerm)
      (hregs : t.dp.Edits a max (editLine max.toNat cs).1) (hbytes : t.Holds a (editLine max.toNat cs).1)
      (hobs : s.Observed t (cs ++ [charCR]) (editLine max.toNat cs).2 [])
  | ended (cs : List Byte) (hcr : charCR ∉ cs) (hseq : t.seq = .idle) (hbytes : t.Holds a (editLine max.toNat cs).1)
      (hzero : t.byteAt (a + BitVec.ofNat 32 (editLine max.toNat cs).1.length) = charNUL)
      (hobs : s.Observed t (cs ++ [charCR]) (editLine max.toNat cs).2 [(.rdline, none)])

theorem LineProgress.unmoved (h : LineProgress a max s t) (hu : t.Unmoved u) (hmem : u.mem = t.mem) :
    LineProgress a max s u := by
  cases h with
  | starting hseq hobs => exact .starting (hu.seq.trans hseq) (hobs.unmoved hu)
  | receiving cs hcr hseq hregs hbytes hobs =>
    exact .receiving cs hcr (by rwa [hu.seq]) (by rwa [hu.dp]) (hbytes.congr hmem) (hobs.unmoved hu)
  | storing cs kept said hcr hseq hregs hbytes hedit hobs =>
    exact .storing cs kept said hcr (hu.seq.trans hseq) (by rwa [hu.dp]) (hbytes.congr hmem) (by rwa [hu.dp])
      (hobs.unmoved hu)
  | echoing cs said hcr hseq hregs hbytes hecho hobs =>
    exact .echoing cs said hcr (by rwa [hu.seq]) (by rwa [hu.dp]) (hbytes.congr hmem) (by rwa [hu.dp])
      (hobs.unmoved hu)
  | terminating cs hcr hseq hregs hbytes hobs =>
    exact .terminating cs hcr (hu.seq.trans hseq) (by rwa [hu.dp]) (hbytes.congr hmem) (hobs.unmoved hu)
  | ended cs hcr hseq hbytes hzero hobs =>
    refine .ended cs hcr (hu.seq.trans hseq) (hbytes.congr hmem) ?_ (hobs.unmoved hu)
    rw [State.byteAt, hmem]
    exact hzero

/-- The DR read leads to the terminator at CR, and with any other byte does what the line editor does (R202). -/
theorem LineProgress.read (hcr : charCR ∉ cs) (hregs : u.dp.Edits a max (editLine max.toNat cs).1)
    (hbytes : u.Holds a (editLine max.toNat cs).1) (hobs : s.Observed u cs (editLine max.toNat cs).2 []) :
    LineProgress a max s (u.recvRead.applyLine (lineChar u.drByte u.dp.len u.dp.maxl)) := by
  have hread := hobs.recvRead
  have hregs' : u.recvRead.dp.Edits a max (editLine max.toNat cs).1 := by
    rw [recvRead_dp]
    exact hregs.withCh _
  have hbytes' : u.recvRead.Holds a (editLine max.toNat cs).1 := hbytes.congr (recvRead_mem u)
  have hch : u.recvRead.dp.ch = u.drByte := by rw [recvRead_dp]
  by_cases hc : u.drByte = charCR
  · rw [lineChar_cr hc, applyLine_terminate]
    exact .terminating cs hcr rfl hregs' hbytes' ((hc ▸ hread).congr rfl rfl rfl)
  · have hcr' : charCR ∉ cs ++ [u.drByte] := by
      simpa [hcr] using fun h => hc h.symm
    rcases lineChar_editLine hc hregs with ⟨hact, hnext, hedit⟩ | ⟨hact, hedit⟩ | ⟨hact, hsame⟩ <;> rw [hact]
    · rw [applyLine_erase, recvRead_dp]
      exact .echoing _ (editLine max.toNat cs).2 hcr' (.inl rfl) (hedit ▸ hnext.withCh _) (hedit ▸ hbytes'.dropLast)
        (by rw [hedit]; rfl) (hread.congr rfl rfl rfl)
    · rw [applyLine_store]
      exact .storing _ _ _ hcr' rfl hregs' hbytes' (by rw [hedit, State.goto_dp, hch]) (hread.congr rfl rfl rfl)
    · rw [applyLine_drop]
      exact .receiving _ hcr' (.inl rfl) (hsame ▸ hregs') (hsame ▸ hbytes') (hsame ▸ hread.congr rfl rfl rfl)

/-- The store puts the last character in the buffer, and its echo comes next (R201). -/
theorem LineProgress.store {kept said : List Byte} (hrun : s.LineRun a max u)
    (hadm : ∀ k, k ≤ max.toNat → u.cfg.admits (a + BitVec.ofNat 32 k) = true) (hcr : charCR ∉ cs)
    (hregs : u.dp.Edits a max kept) (hbytes : u.Holds a kept)
    (hedit : editLine max.toNat cs = (kept ++ [u.dp.ch], said ++ [u.dp.ch])) (hobs : s.Observed u cs said [])
    (hv : u.storeLineChar = v) : s.LineRun a max v ∧ LineProgress a max s v := by
  have hfits : (kept ++ [u.dp.ch]).length ≤ max.toNat := by
    simpa [hedit] using editLine_length_le max.toNat cs
  have hkept : kept.length ≤ max.toNat := (List.sublist_append_left _ _).length_le.trans hfits
  rw [storeLineChar_admitted (hregs.admitted hadm hkept), hregs.lineAddr] at hv
  have hmem : v.mem = Memory.write (a + BitVec.ofNat 32 kept.length).toNat u.dp.ch u.mem := by rw [← hv]; rfl
  obtain ⟨hbefore, hstored⟩ := hbytes.write hkept hrun.canonical hmem
  subst hv
  refine ⟨hrun.store hkept ⟨rfl, rfl, rfl, rfl, rfl, rfl⟩ hmem, .echoing cs said hcr (.inl rfl) ?_ ?_ ?_ ?_⟩
  · rw [hedit]
    exact hregs.extend hfits
  · rw [hedit]
    exact hbefore.concat hstored
  · rw [hedit]
    rfl
  · exact (hobs.memWr u.mem (a + BitVec.ofNat 32 kept.length) u.dp.ch).congr rfl rfl rfl

/-- The terminator goes after the line, and the command has ended (R201). -/
theorem LineProgress.terminate (hrun : s.LineRun a max u)
    (hadm : ∀ k, k ≤ max.toNat → u.cfg.admits (a + BitVec.ofNat 32 k) = true) (hcr : charCR ∉ cs)
    (hregs : u.dp.Edits a max (editLine max.toNat cs).1)
    (hbytes : u.Holds a (editLine max.toNat cs).1)
    (hobs : s.Observed u (cs ++ [charCR]) (editLine max.toNat cs).2 []) (hv : u.terminateLine = v) :
    s.LineRun a max v ∧ LineProgress a max s v := by
  have hlen := editLine_length_le max.toNat cs
  rw [terminateLine_admitted (hregs.admitted hadm hlen), hregs.lineAddr] at hv
  have hmem : v.mem = Memory.write (a + BitVec.ofNat 32 (editLine max.toNat cs).1.length).toNat charNUL u.mem := by
    rw [← hv]
    rfl
  obtain ⟨hbefore, hzero⟩ := hbytes.write hlen hrun.canonical hmem
  subst hv
  refine ⟨hrun.store hlen ⟨rfl, rfl, rfl, rfl, rfl, rfl⟩ hmem, .ended cs hcr rfl hbefore hzero ?_⟩
  exact (hobs.memWr _ _ _).complete .rdline none

/-- An engine step of RDLINE moves it on and writes nothing outside the buffer, all of whose bytes are admitted (R201,
R203). -/
theorem LineProgress.exec (hadm : ∀ k, k ≤ max.toNat → s.cfg.admits (a + BitVec.ofNat 32 k) = true)
    (hrun : s.LineRun a max u) (h : LineProgress a max s u) (hne : u.seq ≠ .idle)
    (hexec : exec (.rdline a max) u = .next v) : s.LineRun a max v ∧ LineProgress a max s v := by
  have next_eq {w : State} (hw : Machine.exec (.rdline a max) u = .next w) : w = v :=
    Host.Outcome.next.inj (hw.symm.trans hexec)
  rw [← hrun.cfg] at hadm
  cases h with
  | starting hseq hobs =>
    obtain rfl := next_eq (exec_rdline_start hseq)
    have hopened : s.Observed ({ u with dp := u.dp.openLine a max } : State) [] [] [] := hobs.congr rfl rfl rfl
    exact ⟨hrun.frame (((State.Frame.refl u).withDp _).recvPoll _),
      .receiving [] List.not_mem_nil (recvPoll_seq _ _) ⟨rfl, rfl, rfl⟩ nofun (hopened.recvPoll _)⟩
  | receiving cs hcr hseq hregs hbytes hobs =>
    rcases hseq with hpoll | hread
    · obtain rfl := next_eq (exec_rxPoll rfl hpoll)
      exact ⟨hrun.frame ((State.Frame.refl u).recvPoll _),
        .receiving cs hcr (recvPoll_seq _ u) hregs hbytes (hobs.recvPoll _)⟩
    · obtain rfl := next_eq (exec_rdline_reads hread)
      exact ⟨hrun.frame ((recvRead_frame u).applyLine _), .read hcr hregs hbytes hobs⟩
  | storing cs kept said hcr hseq hregs hbytes hedit hobs =>
    exact LineProgress.store hrun hadm hcr hregs hbytes hedit hobs (next_eq (exec_rdline_lineStore hseq))
  | echoing cs said hcr hseq hregs hbytes hecho hobs =>
    rcases hseq with hpoll | hwrite
    · obtain rfl := next_eq (exec_txPoll rfl hpoll)
      exact ⟨hrun.frame (sendPoll_frame _ u),
        .echoing cs said hcr (sendPoll_seq _ u) hregs hbytes hecho (hobs.sendPoll _)⟩
    · obtain rfl := next_eq (exec_echo (.inr (.inr ⟨a, max, rfl⟩)) hwrite)
      refine ⟨hrun.frame ((sendWrite_frame u).goto _ _), .receiving cs hcr (.inl rfl) ?_ ?_ ?_⟩
      · rwa [State.goto_dp, sendWrite_dp]
      · exact hbytes.congr (sendWrite_mem u)
      · rw [hecho]
        exact hobs.sendWrite.congr rfl rfl rfl
  | terminating cs hcr hseq hregs hbytes hobs =>
    exact LineProgress.terminate hrun hadm hcr hregs hbytes hobs (next_eq (exec_rdline_lineTerm hseq))
  | ended _ _ hseq => exact absurd hseq hne

/-- Whatever the schedule, a run of RDLINE stands somewhere in its progress (R124). -/
theorem rdline_progress (hadm : ∀ k, k ≤ max.toNat → s.cfg.admits (a + BitVec.ofNat 32 k) = true) (hs : s.unissued)
    (hstarted : s.started (.rdline a max)) (hwf : Memory.wf s.mem = true) {k : Nat} (hrun : runs k s t) :
    s.LineRun a max t ∧ LineProgress a max s t := by
  obtain ⟨hseq, hcmd⟩ := hstarted
  refine runs_induction (P := fun u => s.LineRun a max u ∧ LineProgress a max s u) (fun u v ⟨hu, hp⟩ hstep => ?_)
    ⟨⟨hs, hcmd, rfl, rfl, hwf, fun _ _ => rfl⟩, .starting hseq (.refl s)⟩ hrun
  have hp' := hp.unmoved (takeTurn_unmoved u) rfl
  rcases step_unissued_cases hu.unissued hstep with ⟨i, hcur, hexec⟩ | ⟨-, rfl⟩ | ⟨e, rfl⟩
  · obtain ⟨-, ⟨op, ph, hat⟩, hdecode⟩ := current_eq_some.1 hcur
    obtain rfl : .rdline a max = i := Except.ok.inj (hu.command.symm.trans hdecode)
    exact hp'.exec hadm hu.takeTurn (by simp [hat]) hexec
  · exact ⟨hu.takeTurn, hp'⟩
  · have hline := lineStep_frame e u.takeTurn
    exact ⟨hu.takeTurn.frame hline, hp'.unmoved (lineStep_unmoved e _) hline.mem⟩

/-- An RDLINE that has ended received a line and its CR, echoed what the line editor accepts of it, and left the edited
line and a zero byte in the buffer. -/
theorem LineProgress.of_idle (h : LineProgress a max s t) (hidle : t.seq = .idle) :
    ∃ cs, charCR ∉ cs ∧ t.Holds a (editLine max.toNat cs).1 ∧
      t.byteAt (a + BitVec.ofNat 32 (editLine max.toNat cs).1.length) = charNUL ∧
      s.Observed t (cs ++ [charCR]) (editLine max.toNat cs).2 [(.rdline, none)] := by
  have busy {op : Op} {ph : Phase} (hseq : t.seq = .run op ph) : False := nomatch hidle.symm.trans hseq
  cases h with
  | starting hseq => exact (busy hseq).elim
  | receiving _ _ hseq => exact (hseq.elim busy busy).elim
  | storing _ _ _ _ hseq => exact (busy hseq).elim
  | echoing _ _ _ hseq => exact (hseq.elim busy busy).elim
  | terminating _ _ hseq => exact (busy hseq).elim
  | ended cs hcr _ hbytes hzero hobs => exact ⟨cs, hcr, hbytes, hzero, hobs⟩

/-- An RDLINE that has not ended has received a line, and perhaps its CR, and has echoed what the line editor accepts of
it, or has the last of it still to send. -/
theorem LineProgress.of_busy (h : LineProgress a max s t) (hbusy : t.seq ≠ .idle) :
    ∃ cs heard said, charCR ∉ cs ∧ s.Observed t heard said [] ∧ (heard = cs ∨ heard = cs ++ [charCR]) ∧
      (said = (editLine max.toNat cs).2 ∨ said = (editLine max.toNat cs).2.dropLast) := by
  cases h with
  | starting _ hobs => exact ⟨[], [], [], List.not_mem_nil, hobs, .inl rfl, .inl rfl⟩
  | receiving cs hcr _ _ _ hobs => exact ⟨cs, cs, _, hcr, hobs, .inl rfl, .inl rfl⟩
  | storing cs kept said hcr _ _ _ hedit hobs =>
    exact ⟨cs, cs, said, hcr, hobs, .inl rfl, .inr (by rw [hedit, List.dropLast_concat])⟩
  | echoing cs said hcr _ _ _ hecho hobs =>
    exact ⟨cs, cs, said, hcr, hobs, .inl rfl, .inr (by rw [hecho, List.dropLast_concat])⟩
  | terminating cs hcr _ _ _ hobs => exact ⟨cs, _, _, hcr, hobs, .inr rfl, .inl rfl⟩
  | ended _ _ hseq => exact absurd hseq hbusy

end Progress

/-! ### With no other agent moving -/

/-- The engine, moving alone, comes from `s` to `t`, and of MODE, FAULT, CMD, the configuration and the schedule
changes nothing on the way; memory may change. -/
structure State.EditsTo (s t : State) : Prop where
  frame : s.Frame { t with mem := s.mem }
  run : ∃ k, runs k s t

section Alone

variable {s t u v : State} {a : Word} {max : Half} {done cs kept q rest : List Byte} {c : Byte}

theorem State.Reaches.editsTo (h : s.Reaches t) : s.EditsTo t :=
  have hf := h.frame
  ⟨⟨hf.mode, hf.fault, hf.cmd, rfl, hf.cfg, hf.agenda⟩, h.run⟩

theorem State.EditsTo.trans (h : s.EditsTo t) (h' : t.EditsTo u) : s.EditsTo u := by
  obtain ⟨hf, j, hj⟩ := h
  obtain ⟨hf', k, hk⟩ := h'
  exact ⟨⟨hf'.mode.trans hf.mode, hf'.fault.trans hf.fault, hf'.cmd.trans hf.cmd, rfl, hf'.cfg.trans hf.cfg,
    hf'.agenda.trans hf.agenda⟩, j + k, runs_trans hj hk⟩

theorem State.EditsTo.cfg (h : s.EditsTo t) : t.cfg = s.cfg := h.frame.cfg

theorem State.EditsTo.alone (h : s.EditsTo t) (halone : s.alone) : t.alone := h.frame.alone halone

theorem State.EditsTo.decode (h : s.EditsTo t) {i : Instr} (hdecode : decode s.cmd = .ok i) : decode t.cmd = .ok i :=
  (congrArg _ h.frame.cmd).trans hdecode

theorem editsTo_of_exec {i : Instr} {op : Op} {ph : Phase} (halone : s.alone) (hdecode : decode s.cmd = .ok i)
    (hseq : s.seq = .run op ph) (hexec : exec i s = .next t) (hf : s.Frame { t with mem := s.mem }) :
    s.EditsTo t :=
  ⟨hf, 1, runs_succ ((step_of_alone halone hdecode hseq).trans hexec) rfl⟩

/-- With the engine alone the store counts one more character of the line, and the echo of CH comes next (R201). -/
theorem storeLineChar_editsTo (halone : u.alone) (hdecode : decode u.cmd = .ok (.rdline a max))
    (hadm : ∀ k, k ≤ max.toNat → u.cfg.admits (a + BitVec.ofNat 32 k) = true) (hseq : u.seq = .run .rdline .lineStore)
    (hregs : u.dp.Edits a max kept) (hfits : (kept ++ [c]).length ≤ max.toNat) :
    ∃ v, u.EditsTo v ∧ v.seq = .run .rdline .txPoll ∧ v.dp.Edits a max (kept ++ [c]) ∧ v.dp.ch = u.dp.ch ∧
      v.per = u.per := by
  have hkept : kept.length ≤ max.toNat := (List.sublist_append_left _ _).length_le.trans hfits
  have hexec := exec_rdline_lineStore (a := a) (max := max) hseq
  rw [storeLineChar_admitted (hregs.admitted hadm hkept)] at hexec
  exact ⟨_, editsTo_of_exec halone hdecode hseq hexec ⟨rfl, rfl, rfl, rfl, rfl, rfl⟩, rfl, hregs.extend hfits, rfl, rfl⟩

/-- With room for one echo RDLINE takes a character other than CR into the line, echoes what the line editor accepts,
and polls for the next (R201, R202). -/
theorem rdline_takes_char (halone : u.alone) (hdecode : decode u.cmd = .ok (.rdline a max))
    (hadm : ∀ k, k ≤ max.toNat → u.cfg.admits (a + BitVec.ofNat 32 k) = true) (hseq : u.seq = .run .rdline .rxRead)
    (hregs : u.dp.Edits a max (editLine max.toNat done).1) (hc : c ≠ charCR) (hrxq : u.per.rxq = c :: rest)
    (htxq : u.per.txq = q ++ (editLine max.toNat done).2) (hroom : u.per.txq.length < u.depth) :
    ∃ v, u.EditsTo v ∧ v.seq = .run .rdline .rxPoll ∧ v.dp.Edits a max (editLine max.toNat (done ++ [c])).1 ∧
      v.per = { u.per with rxq := rest, txq := q ++ (editLine max.toNat (done ++ [c])).2 } := by
  have hexec := exec_rdline_reads (a := a) (max := max) hseq
  have hread : u.recvRead.per = { u.per with rxq := rest } := by rw [recvRead_per, hrxq]; rfl
  have hdp : u.recvRead.dp = { u.dp with ch := c } := by rw [recvRead_dp, drByte_cons hrxq]
  have htaken := reaches_of_exec halone hdecode hseq hexec ((recvRead_frame u).applyLine _)
  rw [drByte_cons hrxq] at htaken
  have echoes {w : State} (hw : u.EditsTo w) (hat : w.seq = .run .rdline .txPoll) (hch : w.dp.ch = c)
      (hper : w.per = { u.per with rxq := rest }) : ∃ v, u.EditsTo v ∧ v.seq = .run .rdline .rxPoll ∧ v.dp = w.dp ∧
        v.per = { u.per with rxq := rest, txq := q ++ ((editLine max.toNat done).2 ++ [c]) } := by
    have hdepth : w.depth = u.depth := depth_congr (by rw [hper]; rfl) hw.cfg
    obtain ⟨v, hv, hpoll, hsame, hsent⟩ := echo_reaches (.inr (.inr ⟨a, max, rfl⟩)) rfl (hw.alone halone)
      (hw.decode hdecode) hat (by rwa [hdepth, hper])
    exact ⟨v, hw.trans hv.editsTo, hpoll, hsame, by rw [hsent, hper, hch, htxq, List.append_assoc]⟩
  rcases lineChar_editLine hc hregs with ⟨hact, hnext, hedit⟩ | ⟨hact, hedit⟩ | ⟨hact, hsame⟩ <;> rw [hact] at htaken
  · rw [applyLine_erase] at htaken
    obtain ⟨v, hv, hpoll, hdp', hper⟩ := echoes (htaken (recvRead_quiet u).completions).editsTo rfl
      (by rw [hdp]; rfl) hread
    rw [hedit]
    exact ⟨v, hv, hpoll, by rw [hdp', State.goto_dp, hdp]; exact hnext.withCh c, hper⟩
  · rw [applyLine_store] at htaken
    have hstore := (htaken (recvRead_quiet u).completions).editsTo
    have hfits := editLine_length_le max.toNat (done ++ [c])
    rw [hedit] at hfits
    obtain ⟨w, hw, hat, hregs', hch, hper⟩ := storeLineChar_editsTo (c := c) (hstore.alone halone)
      (hstore.decode hdecode) (by rwa [hstore.cfg]) rfl (by rw [State.goto_dp, hdp]; exact hregs.withCh c) hfits
    obtain ⟨v, hv, hpoll, hdp', hper'⟩ := echoes (hstore.trans hw) hat (by rw [hch, State.goto_dp, hdp])
      (hper.trans hread)
    rw [hedit]
    exact ⟨v, hv, hpoll, hdp' ▸ hregs', hper'⟩
  · rw [applyLine_drop] at htaken
    rw [hsame, ← htxq]
    exact ⟨_, (htaken (recvRead_quiet u).completions).editsTo, rfl, by rw [State.goto_dp, hdp]; exact hregs.withCh c,
      hread⟩

/-- With a line ended by CR waiting and room for its echo RDLINE ends, and leaves the characters after the CR in RXQ
(R201). -/
theorem rdline_ends_line (cs : List Byte) (halone : u.alone) (hdecode : decode u.cmd = .ok (.rdline a max))
    (hadm : ∀ k, k ≤ max.toNat → u.cfg.admits (a + BitVec.ofNat 32 k) = true) (hcr : charCR ∉ cs)
    (hseq : u.seq = .run .rdline .rxRead) (hregs : u.dp.Edits a max (editLine max.toNat done).1)
    (hrxq : u.per.rxq = cs ++ charCR :: rest) (htxq : u.per.txq = q ++ (editLine max.toNat done).2)
    (hroom : u.per.txq.length + cs.length ≤ u.depth) :
    ∃ k t, runs k u t ∧ t.seq = .idle ∧
      t.per = { u.per with rxq := rest, txq := q ++ (editLine max.toNat (done ++ cs)).2 } := by
  induction cs generalizing u done with
  | nil =>
    have hexec := exec_rdline_reads (a := a) (max := max) hseq
    rw [drByte_cons hrxq, lineChar_cr rfl, applyLine_terminate] at hexec
    have hread := reaches_of_exec halone hdecode hseq hexec ((recvRead_frame u).goto _ _)
      (recvRead_quiet u).completions
    have hregs' : (u.recvRead.goto .rdline .lineTerm).dp.Edits a max (editLine max.toNat done).1 := by
      rw [State.goto_dp, recvRead_dp]
      exact hregs.withCh _
    have hlast := exec_rdline_lineTerm (s := u.recvRead.goto .rdline .lineTerm) (a := a) (max := max) rfl
    rw [terminateLine_admitted (hregs'.admitted (by rwa [hread.frame.cfg]) (editLine_length_le _ _))] at hlast
    obtain ⟨-, k, hrun⟩ := hread.editsTo.trans (editsTo_of_exec (hread.frame.alone halone)
      (hread.editsTo.decode hdecode) rfl hlast ⟨rfl, rfl, rfl, rfl, rfl, rfl⟩)
    refine ⟨k, _, hrun, rfl, ?_⟩
    rw [List.append_nil, ← htxq]
    show u.recvRead.per = _
    rw [recvRead_per, hrxq]
    rfl
  | cons c cs ih =>
    obtain ⟨hc, hcr'⟩ := not_or.1 (mt List.mem_cons.2 hcr)
    rw [List.length_cons] at hroom
    obtain ⟨v, hv, hpoll, hregs', hper⟩ := rdline_takes_char (rest := cs ++ charCR :: rest) halone hdecode hadm hseq
      hregs (Ne.symm hc) hrxq htxq (by omega)
    have hreached : u.EditsTo (v.recvPoll .rdline) :=
      hv.trans (recvPoll_reaches rfl (hv.alone halone) (hv.decode hdecode) hpoll).editsTo
    have hat : (v.recvPoll .rdline).seq = .run .rdline .rxRead := recvPoll_rxRead .rdline (by simp [hper])
    have hper' : (v.recvPoll .rdline).per =
        { u.per with rxq := cs ++ charCR :: rest, txq := q ++ (editLine max.toNat (done ++ [c])).2 } := hper
    have hdepth : (v.recvPoll .rdline).depth = u.depth := depth_congr (by rw [hper']; rfl) hreached.cfg
    have hgrown := editLine_echo_length_le max.toNat done c
    rw [htxq, List.length_append] at hroom
    obtain ⟨k, t, hrun, hidle, ht⟩ := ih (done := done ++ [c]) (hreached.alone halone) (hreached.decode hdecode)
      (by rwa [hreached.cfg]) hcr' hat hregs' (by rw [hper']) (by rw [hper'])
      (by rw [hdepth, hper', List.length_append]; omega)
    obtain ⟨j, hj⟩ := hreached.run
    refine ⟨j + k, t, runs_trans hj hrun, hidle, ?_⟩
    rw [ht, hper', List.append_cons done c cs]

end Alone

/-- Settles O56: the progress of RDLINE along any schedule, and its run with the engine alone. -/
theorem rdlineRefinesTheLineEditor : Obligations.RdlineRefinesTheLineEditor := by
  intro s a max hs hstarted hwf hadm
  refine ⟨fun k t hrun => ?schedule, fun cs rest hagenda hcr hrxq hroom => ?ends⟩
  case schedule =>
    obtain ⟨hat, hprogress⟩ := rdline_progress hadm hs hstarted hwf hrun
    obtain ⟨-, hfault, -⟩ := hat.unissued
    refine ⟨hfault, hat.mode, hat.outside, ?_⟩
    by_cases hidle : t.seq = .idle
    · obtain ⟨cs, hcr, hbytes, hzero, hobs⟩ := hprogress.of_idle hidle
      exact ⟨cs, hcr, editLine_length_le _ cs, fun hbusy => absurd hidle hbusy, fun _ =>
        ⟨hobs.completions, hobs.received.trans (List.append_assoc _ _ _).symm, hobs.sent, hbytes, hzero⟩⟩
    · obtain ⟨cs, heard, said, hcr, hobs, hheard, hsaid⟩ := hprogress.of_busy hidle
      refine ⟨cs, hcr, editLine_length_le _ cs, fun _ => ⟨?_, ?_, ?_⟩, fun h => absurd h hidle⟩
      · rw [hobs.completions, List.append_nil]
      · rw [hobs.received, List.append_assoc]
        exact hheard.imp (congrArg _) (congrArg _)
      · rw [hobs.sent]
        exact hsaid.imp (congrArg _) (congrArg _)
  case ends =>
    obtain ⟨hok, hfault, -⟩ := hs
    obtain ⟨hseq, hdecode⟩ := hstarted
    have halone : s.alone := ⟨hok, hfault, hagenda⟩
    have hfirst : s.Reaches (({ s with dp := s.dp.openLine a max } : State).recvPoll .rdline) :=
      reaches_of_exec halone hdecode hseq (exec_rdline_start hseq) (((State.Frame.refl s).withDp _).recvPoll _)
        (busRead_quiet .fr { s with dp := s.dp.openLine a max }).completions
    obtain ⟨k, t, hrun, hidle, hper⟩ := rdline_ends_line (done := []) (q := s.per.txq) cs (hfirst.frame.alone halone)
      hdecode hadm hcr (recvPoll_rxRead .rdline (by simp [hrxq])) ⟨rfl, rfl, rfl⟩ hrxq (List.append_nil _).symm hroom
    obtain ⟨j, hj⟩ := hfirst.run
    exact ⟨j + k, t, runs_trans hj hrun, hidle, hper⟩

end Sys2Proof.Machine
end
